-- ==== Sys2Proof/Word.lean ====
section
/-! DEFINITION. The words of this hardware: bytes, positions, bit strings, tokens, and what crosses the ports
(spec 00 R8 to R11, 10 R43 to R45, 30 R90). Types only; every computation on them stands in Decode.lean and Machine/. -/

namespace Sys2Proof

/-- One byte (00 R8). -/
abbrev Byte := BitVec 8

/-- A position in a history buffer: POS_W = 16 bits (00 R6, R14). -/
abbrev Pos := BitVec 16

/-- A bit string in stream order: the first bit of the stream is the head (00 R10). -/
abbrev Bits := List Bool

/-- A whole token as the compressor emits it (00 R11, 30 R100): a literal byte, or a match `offset, length`. -/
inductive Token where
  | lit (b : Byte)
  | mtch (off len : Nat)
  deriving DecidableEq, Repr

/-- A command as the host presents it on the compressor's port (10 R43): the code, the two arguments, and the payload
bytes presented so far, `in[0]` first. -/
structure EncReq where
  cmd    : BitVec 3
  len    : BitVec 16
  maxOut : BitVec 16
  data   : List Byte
  deriving DecidableEq, Repr

/-- A command as the host presents it on the decompressor's port (10 R44). -/
structure DecReq where
  cmd   : BitVec 2
  len   : BitVec 16
  flags : Byte
  data  : List Byte
  deriving DecidableEq, Repr

/-- What the host does at the ports (10 R43 to R45, 70 R310, R322): present a command, send more payload bytes to a
command that waits for them, assert `rst` of one engine. DESIGN CHOICE, log 2: the host's coming actions are a list in
State, and the order of the list is the order in which they arrive. -/
inductive HostAct where
  | encCmd (r : EncReq)
  | encData (bs : List Byte)
  | encRst
  | decCmd (r : DecReq)
  | decData (bs : List Byte)
  | decRst
  deriving DecidableEq, Repr

end Sys2Proof
end

