-- ==== Sys2Proof/Config.lean ====
section
/-! DEFINITION. The parameters of the engine (spec 00 R6) and the values the spec leaves open. -/

namespace Sys2Proof

/-- `HIST_CAP`, the history capacity in bytes; also `DEC.history_buf_end` (00 R6, 10 R32; 90 C1). -/
@[reducible, simp] def Config.histCap : Nat := 65536

/-- `HASH_SIZE`, the number of hash-table entries (00 R6). -/
@[reducible, simp] def Config.hashSize : Nat := 65536

/-- `HASH_PREFIX` = `MIN_MATCH` = 3 (00 R6; 90 C3). -/
@[reducible, simp] def Config.minMatch : Nat := 3

/-- `MAX_MATCH` (00 R6). -/
@[reducible, simp] def Config.maxMatch : Nat := 65535

/-- `MAX_OFFSET` = `HIST_CAP - 1` (00 R6). -/
@[reducible, simp] def Config.maxOffset : Nat := 65535

/-- `CHAIN_DEPTH`: one position per hash value, so that an entry of the hash table is one position (00 R6, 10 R23; 90 C2). -/
@[reducible, simp] def Config.chainDepth : Nat := 1

/-- `MAX_CHUNK` = `HIST_CAP - 1` (00 R6). -/
@[reducible, simp] def Config.maxChunk : Nat := 65535

/-- `OPB_CAP` = `MAX_CHUNK + 8`, the locations of `ENC.opb` (00 R6, 20 R62). -/
@[reducible, simp] def Config.opbCap : Nat := Config.maxChunk + 8

/-- `UNBOUNDED`, the sentinel of `max_output_size`; it needs no special case (00 R6, 42 R181). -/
def Config.unbounded : BitVec 16 := 0xFFFF

/-- `TYPE_64K`, the compression type in bits 3:0 of the flags byte (00 R6, 30 R91). -/
def Config.type64K : Byte := 0x01

/-- The size in bytes of an ENC_LOAD_HASH payload (30 R123). -/
@[reducible, simp] def Config.hashImageSize : Nat := 131072

/-- The size in bytes of an ENC_LOAD_STATE or DEC_LOAD_STATE payload (30 R124, R125). -/
@[reducible, simp] def Config.stateImageSize : Nat := 65540

/-- The type of `HASH`: a total function of three bytes into `[0, HASH_SIZE)` (00 R6, 41 R161). -/
abbrev HashFn := Byte → Byte → Byte → BitVec 16

/-- `HASH`, the one OPEN parameter (00 R6, 92 D5). No body: nothing can be proved of its values (log 3). -/
opaque Config.hash : Byte → Byte → Byte → BitVec 16

/-- The value of a 16-bit decompressor register that the spec leaves unspecified after a fault (60 R287): a free value,
the n-th drawn (log 5). -/
opaque Config.freePos : Nat → BitVec 16

/-- The contents of `DEC.hist` that the spec leaves unspecified after a fault (60 R287): the byte at an address, or no
value; a free value, the n-th drawn (log 5). -/
opaque Config.freeHist : Nat → Nat → Option (BitVec 8)

/-- One byte's entry of the table of the recommended `HASH` instance: eight shift steps (41 R172). -/
def Config.crcStep : Nat → BitVec 16 → BitVec 16
  | 0, c => c
  | n + 1, c => Config.crcStep n (if c.getLsbD 0 then (c >>> 1) ^^^ 0x8408 else c >>> 1)

/-- The recommended instance of `HASH` (41 R172): CRC-16, reflected polynomial 0x8408, initial value 0xFFFF. The model's
machine does not use it (it uses the open `Config.hash`); the tests run the compressor with it. -/
def Config.crcHash : HashFn := fun a b c =>
  [a, b, c].foldl (fun crc x => (crc >>> 8) ^^^ Config.crcStep 8 ((crc ^^^ x.setWidth 16) &&& 0xFF)) 0xFFFF

end Sys2Proof
end

