-- ==== Sys2Proof/Syntax.lean ====
section
/-! DEFINITION. The instructions: one constructor for each of the 35 rows of spec/opcode_table.json (30 R100 to R125).
Rows of the token stream carry their value bits; commands carry their arguments and their payload bytes. -/

namespace Sys2Proof

/-- An instruction of this hardware: a part of the token stream, the flags byte of a chunk, or a host command. -/
inductive Instr where
  -- literal tokens (30 R101, R102)
  | lit7 (v : BitVec 7)
  | lit8 (v : BitVec 7)
  -- offset codes of a match token (30 R104)
  | matchO6 (o : BitVec 6)
  | matchO8 (o : BitVec 8)
  | matchO11 (o : BitVec 11)
  | matchO16 (o : BitVec 16)
  -- length codes of a match token (30 R108)
  | lenL3
  | lenL4 (l : BitVec 2)
  | lenL8 (l : BitVec 3)
  | lenL16 (l : BitVec 4)
  | lenL32 (l : BitVec 5)
  | lenL64 (l : BitVec 6)
  | lenL128 (l : BitVec 7)
  | lenL256 (l : BitVec 8)
  | lenL512 (l : BitVec 9)
  | lenL1024 (l : BitVec 10)
  | lenL2048 (l : BitVec 11)
  | lenL4096 (l : BitVec 12)
  | lenL8192 (l : BitVec 13)
  | lenL16384 (l : BitVec 14)
  | lenL32768 (l : BitVec 15)
  -- the reserved length prefix (30 R110)
  | lenReserved
  -- the accepted flags byte: PACKET_FLUSHED, PACKET_AT_FRONT, PACKET_COMPRESSED (30 R91, R93)
  | flags (f a c : Bool)
  -- compressor commands (30 R120); `enc_len` is the length of `input`
  | encNop
  | compress (maxOut : BitVec 16) (input : List Byte)
  | encReset
  | encReqFront
  | encReqFlush
  | encLoadHash (table : List Byte)
  | encLoadState (image : List Byte)
  | encReserved7
  -- decompressor commands (30 R121); `dec_len` is the length of `payload`
  | decNop
  | decompress (flagsByte : Byte) (payload : List Byte)
  | decReset
  | decLoadState (image : List Byte)
  deriving DecidableEq, Repr

end Sys2Proof
end

