-- ==== Sys2Proof/WellFormed.lean ====
section
/-! DEFINITION. Which instructions the ports can express (spec 30 R120 to R125, 42 R181, 70 R322): a chunk is at most
65535 bytes, a load payload has exactly its size. Every other operand is bounded by its type. -/

namespace Sys2Proof

/-- The instruction can be presented to the hardware. -/
def Instr.wellFormed : Instr → Bool
  | .compress _ input => decide (input.length ≤ Config.maxChunk)
  | .encLoadHash table => decide (table.length = Config.hashImageSize)
  | .encLoadState image => decide (image.length = Config.stateImageSize)
  | .decompress _ payload => decide (payload.length ≤ Config.maxChunk)
  | .decLoadState image => decide (image.length = Config.stateImageSize)
  | .lit7 _ | .lit8 _ | .matchO6 _ | .matchO8 _ | .matchO11 _ | .matchO16 _ => true
  | .lenL3 | .lenL4 _ | .lenL8 _ | .lenL16 _ | .lenL32 _ | .lenL64 _ | .lenL128 _ | .lenL256 _ => true
  | .lenL512 _ | .lenL1024 _ | .lenL2048 _ | .lenL4096 _ | .lenL8192 _ | .lenL16384 _ | .lenL32768 _ => true
  | .lenReserved | .flags _ _ _ => true
  | .encNop | .encReset | .encReqFront | .encReqFlush | .encReserved7 | .decNop | .decReset => true

/-- The token can be emitted: the domain of `encode_token` (30 R115). -/
def Token.wellFormed : Token → Bool
  | .lit _ => true
  | .mtch off len => decide (1 ≤ off ∧ off ≤ Config.maxOffset ∧ Config.minMatch ≤ len ∧ len ≤ Config.maxMatch)

end Sys2Proof
end

