-- ==== Sys2Proof/Decode.lean ====
section
/-! DEFINITION. The decoder, total and rejecting by name, and after it the encoder, both from the tables of spec 30
(R91 to R93, R101 to R115, R120 to R125). The bit-string helpers of 00 R10 stand first. -/

namespace Sys2Proof

/-! ## Bit strings (00 R10, 20 R66) -/

/-- `bin_k(v)`: the k low bits of `v`, most significant first (00 R10). -/
def natToBits : Nat → Nat → Bits
  | 0, _ => []
  | k + 1, v => v.testBit k :: natToBits k v

/-- The unsigned number a bit string stands for, first bit most significant (00 R10). -/
def bitsToNat : Bits → Nat
  | [] => 0
  | b :: bs => b.toNat * 2 ^ bs.length + bitsToNat bs

/-- `bytes_to_bits`: the most significant bit of each byte comes first (00 R10). -/
def bytesToBits : List Byte → Bits
  | [] => []
  | b :: bs => natToBits 8 b.toNat ++ bytesToBits bs

/-- The byte whose bits are the first eight of `bs`, completed with zero bits where there are fewer. -/
def padByte (bs : Bits) : Byte := BitVec.ofNat 8 (bitsToNat ((bs ++ List.replicate 8 false).take 8))

/-- `bits_to_bytes`: eight bits a byte, the last byte completed with zero bits (00 R10, 42 R197). -/
def bitsToBytes : Bits → List Byte
  | [] => []
  | b7 :: b6 :: b5 :: b4 :: b3 :: b2 :: b1 :: b0 :: rest =>
    padByte [b7, b6, b5, b4, b3, b2, b1, b0] :: bitsToBytes rest
  | short => [padByte short]

/-- `ceil8(n)` (00 R8). -/
def ceil8 (n : Nat) : Nat := (n + 7) / 8

/-! ## Offset and length values (30 R104, R105, R108, R109) -/

/-- Class O6: 0 to 63. -/
def offsetO6 (o : BitVec 6) : Nat := o.toNat
/-- Class O8: 64 to 319. -/
def offsetO8 (o : BitVec 8) : Nat := 64 + o.toNat
/-- Class O11: 320 to 2367. -/
def offsetO11 (o : BitVec 11) : Nat := 320 + o.toNat
/-- Class O16: 2368 to 67903. -/
def offsetO16 (o : BitVec 16) : Nat := 2368 + o.toNat

/-- The length a code of `ones` one-bits and value bits `l` stands for (30 R109, 43 R234): 3 for no one-bit, else
`2^k + l` with `k = ones + 1`. -/
def lengthValue (ones l : Nat) : Nat := if ones = 0 then 3 else 2 ^ (ones + 1) + l

/-- The byte a literal token stands for (30 R101, R102). -/
def Instr.literal? : Instr → Option Byte
  | .lit7 v => some (v.setWidth 8)
  | .lit8 v => some (0x80 ||| v.setWidth 8)
  | _ => none

/-- The offset an offset code stands for (30 R104). -/
def Instr.offset? : Instr → Option Nat
  | .matchO6 o => some (offsetO6 o)
  | .matchO8 o => some (offsetO8 o)
  | .matchO11 o => some (offsetO11 o)
  | .matchO16 o => some (offsetO16 o)
  | _ => none

/-- The number of one-bits and the value bits of a length code (30 R108). -/
def Instr.lengthCode? : Instr → Option (Nat × Nat)
  | .lenL3 => some (0, 0)
  | .lenL4 l => some (1, l.toNat)
  | .lenL8 l => some (2, l.toNat)
  | .lenL16 l => some (3, l.toNat)
  | .lenL32 l => some (4, l.toNat)
  | .lenL64 l => some (5, l.toNat)
  | .lenL128 l => some (6, l.toNat)
  | .lenL256 l => some (7, l.toNat)
  | .lenL512 l => some (8, l.toNat)
  | .lenL1024 l => some (9, l.toNat)
  | .lenL2048 l => some (10, l.toNat)
  | .lenL4096 l => some (11, l.toNat)
  | .lenL8192 l => some (12, l.toNat)
  | .lenL16384 l => some (13, l.toNat)
  | .lenL32768 l => some (14, l.toNat)
  | _ => none

/-- The length a length code stands for (30 R108). -/
def Instr.length? (i : Instr) : Option Nat := i.lengthCode?.map fun c => lengthValue c.1 c.2

/-! ## The decoder -/

/-- Why the decoder rejects. -/
inductive Reject where
  /-- The flags byte is outside the accepted set (30 R93); the machine takes the fault BadFlags. -/
  | badFlags
  /-- The payload ends inside a token (43 R226); the machine takes the fault TruncatedToken. -/
  | truncatedToken
  /-- A whole match token whose length code is the reserved prefix (30 R110). -/
  | reservedLengthCode
  /-- The command's payload is not complete yet (70 R322); the machine waits. -/
  | payloadShort
  deriving DecidableEq, Repr

/-- What the hardware decodes, and where it comes from: bits at a token boundary, bits of a length code, the flags byte of
a chunk, a command on either port (30 R90). -/
inductive Fetch where
  | token (bits : Bits)
  | length (bits : Bits)
  | flagsByte (b : Byte)
  | encCmd (r : EncReq)
  | decCmd (r : DecReq)
  deriving DecidableEq, Repr

/-- `take(k)` of the value bits of a code whose first `pre` bits have been read (00 R10): the instruction and the width of
the whole code, or `truncatedToken`. -/
def field (k : Nat) (mk : BitVec k → Instr) (pre : Nat) (bits : Bits) : Except Reject (Instr × Nat) :=
  if k ≤ bits.length then .ok (mk (BitVec.ofNat k (bitsToNat (bits.take k))), pre + k)
  else .error .truncatedToken

/-- The decode tree at a token boundary (30 R111): a literal, or the offset code of a match. -/
def decodeToken : Bits → Except Reject (Instr × Nat)
  | false :: r => field 7 .lit7 1 r
  | true :: false :: r => field 7 .lit8 2 r
  | true :: true :: false :: r => field 16 .matchO16 3 r
  | true :: true :: true :: false :: r => field 11 .matchO11 4 r
  | true :: true :: true :: true :: false :: r => field 8 .matchO8 5 r
  | true :: true :: true :: true :: true :: r => field 6 .matchO6 5 r
  | _ => .error .truncatedToken

/-- The length class with `n` one-bits: its value bits follow the zero bit (30 R108). -/
def lengthClass (n : Nat) (r : Bits) : Except Reject (Instr × Nat) :=
  match n with
  | 0 => .ok (.lenL3, 1)
  | 1 => field 2 .lenL4 2 r
  | 2 => field 3 .lenL8 3 r
  | 3 => field 4 .lenL16 4 r
  | 4 => field 5 .lenL32 5 r
  | 5 => field 6 .lenL64 6 r
  | 6 => field 7 .lenL128 7 r
  | 7 => field 8 .lenL256 8 r
  | 8 => field 9 .lenL512 9 r
  | 9 => field 10 .lenL1024 10 r
  | 10 => field 11 .lenL2048 11 r
  | 11 => field 12 .lenL4096 12 r
  | 12 => field 13 .lenL8192 13 r
  | 13 => field 14 .lenL16384 14 r
  | 14 => field 15 .lenL32768 15 r
  | _ => .ok (.lenReserved, 15)

/-- LengthCode (43 R234), bit by bit, with `ones` one-bits read so far: a zero bit ends the run; the fifteenth one-bit is
the reserved prefix, whatever follows; the end of the payload is `truncatedToken`. -/
def decodeLengthFrom : Nat → Bits → Except Reject (Instr × Nat)
  | _, [] => .error .truncatedToken
  | ones, false :: r => lengthClass ones r
  | ones, true :: r => if ones + 1 = 15 then .ok (.lenReserved, 15) else decodeLengthFrom (ones + 1) r

/-- A length code (30 R109 to R111, 43 R234). -/
def decodeLength (bits : Bits) : Except Reject (Instr × Nat) := decodeLengthFrom 0 bits

/-- The flags byte (30 R93, 43 R222): type 0x1 and bit 4 clear, else `badFlags`. -/
def decodeFlags (b : Byte) : Except Reject (Instr × Nat) :=
  if b &&& 0x1F = 0x01 then .ok (.flags (b.getLsbD 7) (b.getLsbD 6) (b.getLsbD 5), 8) else .error .badFlags

/-- How many payload bytes a compressor command consumes (30 R120). -/
def EncReq.need (r : EncReq) : Nat :=
  match r.cmd.toNat with
  | 1 => r.len.toNat
  | 5 => Config.hashImageSize
  | 6 => Config.stateImageSize
  | _ => 0

/-- The command a compressor request stands for (30 R120); bytes beyond the payload are not accepted (70 R322). -/
def EncReq.instr (r : EncReq) : Instr :=
  match r.cmd.toNat with
  | 0 => .encNop
  | 1 => .compress r.maxOut (r.data.take r.need)
  | 2 => .encReset
  | 3 => .encReqFront
  | 4 => .encReqFlush
  | 5 => .encLoadHash (r.data.take r.need)
  | 6 => .encLoadState (r.data.take r.need)
  | _ => .encReserved7

/-- How many payload bytes a decompressor command consumes (30 R121). -/
def DecReq.need (r : DecReq) : Nat :=
  match r.cmd.toNat with
  | 1 => r.len.toNat
  | 3 => Config.stateImageSize
  | _ => 0

/-- The command a decompressor request stands for (30 R121). -/
def DecReq.instr (r : DecReq) : Instr :=
  match r.cmd.toNat with
  | 0 => .decNop
  | 1 => .decompress r.flags (r.data.take r.need)
  | 2 => .decReset
  | _ => .decLoadState (r.data.take r.need)

/-- The decoder: the instruction and, for the token stream, its width in bits. -/
def decode : Fetch → Except Reject (Instr × Nat)
  | .token bits => decodeToken bits
  | .length bits => decodeLength bits
  | .flagsByte b => decodeFlags b
  | .encCmd r => if r.need ≤ r.data.length then .ok (r.instr, 3) else .error .payloadShort
  | .decCmd r => if r.need ≤ r.data.length then .ok (r.instr, 2) else .error .payloadShort

/-! ## The encoder -/

/-- A length code: `ones` one-bits, a zero bit, the value bits (30 R108). -/
def lengthBits (ones k l : Nat) : Bits := List.replicate ones true ++ false :: natToBits k l

/-- The bits of the rows of the token stream (30 R101 to R110); a command and the flags byte have no bits in it. -/
def Instr.bits : Instr → Bits
  | .lit7 v => false :: natToBits 7 v.toNat
  | .lit8 v => true :: false :: natToBits 7 v.toNat
  | .matchO6 o => [true, true, true, true, true] ++ natToBits 6 o.toNat
  | .matchO8 o => [true, true, true, true, false] ++ natToBits 8 o.toNat
  | .matchO11 o => [true, true, true, false] ++ natToBits 11 o.toNat
  | .matchO16 o => [true, true, false] ++ natToBits 16 o.toNat
  | .lenL3 => lengthBits 0 0 0
  | .lenL4 l => lengthBits 1 2 l.toNat
  | .lenL8 l => lengthBits 2 3 l.toNat
  | .lenL16 l => lengthBits 3 4 l.toNat
  | .lenL32 l => lengthBits 4 5 l.toNat
  | .lenL64 l => lengthBits 5 6 l.toNat
  | .lenL128 l => lengthBits 6 7 l.toNat
  | .lenL256 l => lengthBits 7 8 l.toNat
  | .lenL512 l => lengthBits 8 9 l.toNat
  | .lenL1024 l => lengthBits 9 10 l.toNat
  | .lenL2048 l => lengthBits 10 11 l.toNat
  | .lenL4096 l => lengthBits 11 12 l.toNat
  | .lenL8192 l => lengthBits 12 13 l.toNat
  | .lenL16384 l => lengthBits 13 14 l.toNat
  | .lenL32768 l => lengthBits 14 15 l.toNat
  | .lenReserved => List.replicate 15 true
  | .flags _ _ _ => []
  | .encNop | .compress _ _ | .encReset | .encReqFront | .encReqFlush | .encLoadHash _ | .encLoadState _ => []
  | .encReserved7 | .decNop | .decompress _ _ | .decReset | .decLoadState _ => []

/-- The flags byte with the three flags and type 0x1 (30 R91). -/
def flagsByteOf (f a c : Bool) : Byte :=
  (if f then 0x80 else 0) ||| (if a then 0x40 else 0) ||| (if c then 0x20 else 0) ||| Config.type64K

/-- A compressor command without arguments. -/
def encWord (code : BitVec 3) (data : List Byte) : Fetch := .encCmd ⟨code, 0, 0, data⟩

/-- A decompressor command without arguments. -/
def decWord (code : BitVec 2) (data : List Byte) : Fetch := .decCmd ⟨code, 0, 0, data⟩

/-- The words of a well-formed instruction, where the hardware reads them. -/
def encode : Instr → Fetch
  | .encNop => encWord 0 []
  | .compress maxOut input => .encCmd ⟨1, BitVec.ofNat 16 input.length, maxOut, input⟩
  | .encReset => encWord 2 []
  | .encReqFront => encWord 3 []
  | .encReqFlush => encWord 4 []
  | .encLoadHash table => encWord 5 table
  | .encLoadState image => encWord 6 image
  | .encReserved7 => encWord 7 []
  | .decNop => decWord 0 []
  | .decompress flagsByte payload => .decCmd ⟨1, BitVec.ofNat 16 payload.length, flagsByte, payload⟩
  | .decReset => decWord 2 []
  | .decLoadState image => decWord 3 image
  | .flags f a c => .flagsByte (flagsByteOf f a c)
  | .lit7 v => .token (Instr.lit7 v).bits
  | .lit8 v => .token (Instr.lit8 v).bits
  | .matchO6 o => .token (Instr.matchO6 o).bits
  | .matchO8 o => .token (Instr.matchO8 o).bits
  | .matchO11 o => .token (Instr.matchO11 o).bits
  | .matchO16 o => .token (Instr.matchO16 o).bits
  | .lenL3 => .length Instr.lenL3.bits
  | .lenL4 l => .length (Instr.lenL4 l).bits
  | .lenL8 l => .length (Instr.lenL8 l).bits
  | .lenL16 l => .length (Instr.lenL16 l).bits
  | .lenL32 l => .length (Instr.lenL32 l).bits
  | .lenL64 l => .length (Instr.lenL64 l).bits
  | .lenL128 l => .length (Instr.lenL128 l).bits
  | .lenL256 l => .length (Instr.lenL256 l).bits
  | .lenL512 l => .length (Instr.lenL512 l).bits
  | .lenL1024 l => .length (Instr.lenL1024 l).bits
  | .lenL2048 l => .length (Instr.lenL2048 l).bits
  | .lenL4096 l => .length (Instr.lenL4096 l).bits
  | .lenL8192 l => .length (Instr.lenL8192 l).bits
  | .lenL16384 l => .length (Instr.lenL16384 l).bits
  | .lenL32768 l => .length (Instr.lenL32768 l).bits
  | .lenReserved => .length Instr.lenReserved.bits

/-- The width the opcode table gives the row (30 R112, R120, R121). -/
def Instr.width : Instr → Nat
  | .lit7 _ => 8
  | .lit8 _ => 9
  | .matchO6 _ => 11
  | .matchO8 _ => 13
  | .matchO11 _ => 15
  | .matchO16 _ => 19
  | .lenL3 => 1
  | .lenL4 _ => 4
  | .lenL8 _ => 6
  | .lenL16 _ => 8
  | .lenL32 _ => 10
  | .lenL64 _ => 12
  | .lenL128 _ => 14
  | .lenL256 _ => 16
  | .lenL512 _ => 18
  | .lenL1024 _ => 20
  | .lenL2048 _ => 22
  | .lenL4096 _ => 24
  | .lenL8192 _ => 26
  | .lenL16384 _ => 28
  | .lenL32768 _ => 30
  | .lenReserved => 15
  | .flags _ _ _ => 8
  | .encNop | .compress _ _ | .encReset | .encReqFront | .encReqFlush | .encLoadHash _ | .encLoadState _ => 3
  | .encReserved7 => 3
  | .decNop | .decompress _ _ | .decReset | .decLoadState _ => 2

/-! ## Whole tokens (30 R115) -/

/-- The offset code of `d` (30 R105): the class whose range contains it. -/
def offsetInstr (d : Nat) : Instr :=
  if d < 64 then .matchO6 (BitVec.ofNat 6 d)
  else if d < 320 then .matchO8 (BitVec.ofNat 8 (d - 64))
  else if d < 2368 then .matchO11 (BitVec.ofNat 11 (d - 320))
  else .matchO16 (BitVec.ofNat 16 (d - 2368))

/-- The length code of `n` (30 R109): 3, or the class of its highest set bit with the bits below it. -/
def lengthInstr (n : Nat) : Instr :=
  if n < 4 then .lenL3
  else if n < 8 then .lenL4 (BitVec.ofNat 2 (n - 4))
  else if n < 16 then .lenL8 (BitVec.ofNat 3 (n - 8))
  else if n < 32 then .lenL16 (BitVec.ofNat 4 (n - 16))
  else if n < 64 then .lenL32 (BitVec.ofNat 5 (n - 32))
  else if n < 128 then .lenL64 (BitVec.ofNat 6 (n - 64))
  else if n < 256 then .lenL128 (BitVec.ofNat 7 (n - 128))
  else if n < 512 then .lenL256 (BitVec.ofNat 8 (n - 256))
  else if n < 1024 then .lenL512 (BitVec.ofNat 9 (n - 512))
  else if n < 2048 then .lenL1024 (BitVec.ofNat 10 (n - 1024))
  else if n < 4096 then .lenL2048 (BitVec.ofNat 11 (n - 2048))
  else if n < 8192 then .lenL4096 (BitVec.ofNat 12 (n - 4096))
  else if n < 16384 then .lenL8192 (BitVec.ofNat 13 (n - 8192))
  else if n < 32768 then .lenL16384 (BitVec.ofNat 14 (n - 16384))
  else .lenL32768 (BitVec.ofNat 15 (n - 32768))

/-- The literal token of a byte (30 R101, R102). -/
def literalInstr (b : Byte) : Instr := if b.toNat < 0x80 then .lit7 (b.setWidth 7) else .lit8 (b.setWidth 7)

/-- The rows a token is made of, in stream order (30 R103). -/
def Token.instrs : Token → List Instr
  | .lit b => [literalInstr b]
  | .mtch off len => [offsetInstr off, lengthInstr len]

/-- `encode_token` (30 R115). -/
def encodeToken (t : Token) : Bits := t.instrs.flatMap Instr.bits

/-- A token list as one bit string (42 R194). -/
def encodeTokens (ts : List Token) : Bits := ts.flatMap encodeToken

/-- A token list as a payload: its bits, padded to whole bytes with zero bits (30 R113, R118). -/
def assemble (ts : List Token) : List Byte := bitsToBytes (encodeTokens ts)

/-- `decode_token` (30 R115): the token and its width, or the reason. -/
def decodeWhole (bits : Bits) : Except Reject (Token × Nat) :=
  match decodeToken bits with
  | .error r => .error r
  | .ok (i, n) =>
    match i.literal? with
    | some b => .ok (.lit b, n)
    | none =>
      match decodeLength (bits.drop n) with
      | .error r => .error r
      | .ok (j, m) =>
        match i.offset?, j.length? with
        | some off, some len => .ok (.mtch off len, n + m)
        | _, _ => .error .reservedLengthCode

/-! ## The opcode table's numbering (log 10) -/

/-- The number of bits of a table number that begins with a one-bit. -/
def bitLength (w : Nat) : Nat := if w = 0 then 0 else w.log2 + 1

/-- Where a row of the token stream with `k` bits of value `w` is read: a length code's widths are the even ones below 32
and 1; a token's are 8, 9, 11, 13, 15 and 19; the width 15 and all ones is the reserved length prefix, and the width 8 with
the top bit set is LEN_L16. -/
def streamFetch (k w : Nat) : Fetch :=
  if k = 9 ∨ k = 11 ∨ k = 13 ∨ k = 19 then .token (natToBits k w)
  else if k = 15 then (if w = 0x7FFF then .length (natToBits k w) else .token (natToBits k w))
  else if k = 8 then (if w < 0x80 then .token (natToBits k w) else .length (natToBits k w))
  else .length (natToBits k w)

/-- What a table number stands for (log 10). The rows of the table are read on different ports and share numbers; this
picks one port for each number. `nbits` exact: 2 is `dec_cmd`, 3 is `enc_cmd`, other widths are rows of the token stream.
`nbits` in whole bytes: in one byte 0 to 7 is `enc_cmd`, a number accepted as a flags byte is one, the rest is the token
stream; in more bytes the row is the one of the number's own width. -/
def tableFetch (nbits w : Nat) : Fetch :=
  if nbits = 2 then decWord (BitVec.ofNat 2 w) []
  else if nbits = 3 then .encCmd ⟨BitVec.ofNat 3 w, 0, 0, []⟩
  else if nbits = 8 then
    if w < 8 then encWord (BitVec.ofNat 3 w) []
    else if w &&& 0x1F = 0x01 then .flagsByte (BitVec.ofNat 8 w)
    else streamFetch 8 w
  else if nbits = 16 ∨ nbits = 24 ∨ nbits = 32 then streamFetch (bitLength w) w
  else streamFetch nbits w

/-- The zero payload bytes a command with nothing above its code has (operand words of zeros). -/
def Fetch.zeroFilled : Fetch → Fetch
  | .encCmd r => .encCmd { r with data := List.replicate r.need 0 }
  | .decCmd r => .decCmd { r with data := List.replicate r.need 0 }
  | f => f

/-- The instruction the decoder reads from a table number. -/
def decodeTableWord (nbits w : Nat) : Option Instr :=
  match decode (tableFetch nbits w).zeroFilled with
  | .ok (i, _) => some i
  | .error _ => none

end Sys2Proof
end

