-- ==== Sys2Proof/Machine/State.lean ====
section
/-! DEFINITION. The state of the hardware (spec 10): the two engines, the transient registers of a command in progress, the
ports, and the host's coming actions. Plain data. -/

namespace Sys2Proof.Machine

/-- A history buffer's contents (20 R60, R63): the bytes that hold a value, by address, in rising order. An address that is
not listed holds no value (10 R48; log 4). -/
abbrev Memory := List Host.Cell

/-- The hash table's contents (20 R61): the entries other than 0, by index, in rising order; an entry is one position
(`Config.chainDepth`). An index that is not listed holds 0, the cleared value (10 R23, 41 R168). -/
abbrev Table := List (Nat × BitVec 16)

/-- The six causes of a decompressor fault (60 R281). Raising one is a next state (60 R286), not a stop of the machine. -/
inductive Cause where
  | badFlags
  | truncatedToken
  | reservedLengthCode
  | offsetZero
  | offsetOutOfWindow
  | historyOverflow
  deriving DecidableEq, Repr

/-- Why the machine stops with no next state. No step from a state that meets the invariant of Safety.lean does. -/
inductive Fault where
  /-- A history byte that holds no value is read (10 R48; log 4). Raised by the scan of COMPRESS and by the match copy.
  Safe: the hardware would go on with some byte. -/
  | unwrittenByte
  /-- A row of the token stream or the flags byte is executed with no DECOMPRESS in progress, or a command is executed
  inside the token stream (log 9). No step does this: they are fetched only from a payload. Safe. -/
  | outOfPlace
  deriving DecidableEq, Repr

/-- Why exec has no meaning for an instruction. -/
inductive Refusal where
  /-- The instruction has no meaning yet. Raised by exec's refused arms only; there is none. Safe. -/
  | notModelled (mnemonic : String)
  deriving DecidableEq, Repr

/-- The transient registers of a COMPRESS in progress (10 R28), with the command's operands. -/
structure EncWork where
  /-- `in[0..len)` (20 R64). -/
  input  : List Byte
  /-- `max_output_size` (42 R181). -/
  maxOut : BitVec 16
  /-- `base`: ENC.historyOffset after the reset policy ran. -/
  base   : Nat
  /-- `ctr`: the next unconsumed input byte. -/
  ctr    : Nat
  /-- `hold`: the reset flags of this chunk. -/
  hold   : Byte
  /-- `toks`: the tokens emitted so far, in order (42 R188). -/
  toks   : List Token
  /-- `p`: the position examined last. -/
  p      : Nat
  /-- `q`: the candidate position read last. -/
  q      : Nat
  /-- `L`: the match length found last. -/
  L      : Nat
  /-- `hv`: the hash value computed last. -/
  hv     : Nat
  deriving DecidableEq, Repr

/-- The compressor engine (10 R21 to R28). -/
structure Enc where
  hist          : Memory
  historyOffset : Pos
  hash          : Table
  flags         : Byte
  flagsHold     : Byte
  firstPkt      : Bool
  /-- `ENC.opb` from index 0: the bytes the packer or the fallback stored, at most `Config.opbCap` of them (20 R62;
  `Enc.Inv.capacity`); beyond them no byte holds a value (log 7). -/
  opb           : List Byte
  bytesInOpb    : BitVec 16
  work          : Option EncWork
  deriving DecidableEq, Repr

/-- What a DECOMPRESS in progress reads next (43 R220, R225, R226, R234). -/
inductive DecPhase where
  | flags
  | raw
  | token
  | length
  deriving DecidableEq, Repr

/-- The transient registers of a DECOMPRESS in progress (10 R36), with the command's operands. -/
structure DecWork where
  /-- `in[0..len)` (20 R64). -/
  payload : List Byte
  /-- The operand `dec_flags` (10 R37: not latched beyond the command). -/
  flags   : Byte
  phase   : DecPhase
  /-- `start`: the cursor after the flag processing (43 R225). -/
  start   : Pos
  /-- `DEC.bitpos`: the next unread bit of the payload. -/
  bitpos  : Nat
  /-- `off`: the decoded offset. -/
  off     : Nat
  /-- `mlen`: the decoded length. -/
  mlen    : Nat
  /-- `src`: the source position of the last byte copied. -/
  src     : Pos
  /-- `ones`: the number of leading one-bits of the last length code. -/
  ones    : Nat
  deriving DecidableEq, Repr

/-- The decompressor engine (10 R30 to R36). -/
structure Dec where
  hist       : Memory
  historyPtr : Pos
  validHi    : Pos
  faulted    : Bool
  faultCode  : BitVec 3
  viewStart  : Pos
  viewLen    : BitVec 16
  work       : Option DecWork
  /-- The model's own: how many free values have been drawn (log 5). -/
  freeCtr    : Nat
  deriving DecidableEq, Repr

/-- The compressor's port (10 R43): `enc_done`, and a command that waits for the rest of its payload (70 R322). -/
structure EncPort where
  done    : Bool
  waiting : Option EncReq
  deriving DecidableEq, Repr

/-- The decompressor's port (10 R44). -/
structure DecPort where
  done    : Bool
  waiting : Option DecReq
  deriving DecidableEq, Repr

/-- The machine: two engines that share no state (10 R20), their ports, and the host's coming actions (log 2). -/
structure State where
  enc     : Enc
  encPort : EncPort
  dec     : Dec
  decPort : DecPort
  host    : List HostAct
  deriving DecidableEq, Repr

/-- The compressor after reset (10 R46). `hist` and `opb`: no byte holds a value (10 R48; logs 6 and 7). -/
def Enc.reset : Enc :=
  { hist := [], historyOffset := 0, hash := [], flags := 0x00, flagsHold := 0x00, firstPkt := true, opb := [],
    bytesInOpb := 0, work := none }

/-- The decompressor after reset (10 R47). `hist`: no byte holds a value (10 R48; log 6). -/
def Dec.reset : Dec :=
  { hist := [], historyPtr := 0, validHi := 0, faulted := false, faultCode := 0, viewStart := 0, viewLen := 0,
    work := none, freeCtr := 0 }

/-- The compressor's port after reset (70 R311): idle, not done. -/
def EncPort.reset : EncPort := { done := false, waiting := none }

/-- The decompressor's port after reset (70 R311). -/
def DecPort.reset : DecPort := { done := false, waiting := none }

/-- The machine right after reset (70 R311, R312): both engines idle, waiting for their first command. -/
def State.reset : State :=
  { enc := Enc.reset, encPort := EncPort.reset, dec := Dec.reset, decPort := DecPort.reset, host := [] }

end Sys2Proof.Machine
end

