-- ==== Sys2Proof/Machine/Flags.lean ====
section
/-! DEFINITION. Every flag computation (spec 10 R25, R39, R40; 30 R91 to R93; 42 R183, R200, R201; 60 R281). -/

namespace Sys2Proof.Machine

/-- `PACKET_FLUSHED` (30 R91). -/
def packetFlushed : Byte := 0x80
/-- `PACKET_AT_FRONT` (30 R91). -/
def packetAtFront : Byte := 0x40
/-- `PACKET_COMPRESSED` (30 R91). -/
def packetCompressed : Byte := 0x20

/-- The bits of `ENC.flagsHold` that exist: 7 and 6 (10 R25, R39). -/
def holdMask : Byte := 0xC0

/-- A read of `ENC.flagsHold`: bits 5:0 read as 0 (10 R25). -/
def Enc.readHold (e : Enc) : Byte := e.flagsHold &&& holdMask

/-- A write of `ENC.flagsHold`: writes to bits 5:0 are ignored (10 R25). -/
def Enc.writeHold (v : Byte) (e : Enc) : Enc := { e with flagsHold := v &&& holdMask }

/-- The value ENC_LOAD_STATE gives `ENC.flagsHold`: bit 7 kept, bit 6 set where bit 6 or bit 7 of the byte is (30 R124). -/
def loadedHold (b : Byte) : Byte := (b &&& 0xC0) ||| (if b &&& 0x80 ≠ 0 then 0x40 else 0)

/-- The flags byte of a chunk sent uncompressed (42 R200). -/
def rawFlags (hold : Byte) : Byte := Config.type64K ||| hold

/-- The flags byte of a chunk sent compressed (42 R201). -/
def compressedFlags (hold : Byte) : Byte := Config.type64K ||| hold ||| packetCompressed

/-- The closed enumeration of flags bytes the compressor emits (30 R92). -/
def emittedFlags : List Byte := [0x01, 0x21, 0x41, 0x61, 0xC1, 0xE1]

/-- The cause code in `DEC.fault_code` (60 R281). -/
def Cause.code : Cause → BitVec 3
  | .badFlags => 1
  | .truncatedToken => 2
  | .reservedLengthCode => 3
  | .offsetZero => 4
  | .offsetOutOfWindow => 5
  | .historyOverflow => 6

/-- The fault a decoder's rejection stands for (60 R281). -/
def rejectCause : Reject → Cause
  | .badFlags => .badFlags
  | .truncatedToken => .truncatedToken
  | .reservedLengthCode => .reservedLengthCode
  | .payloadShort => .truncatedToken

end Sys2Proof.Machine
end

