-- ==== Sys2Proof/Machine/Ops.lean ====
section
/-! DEFINITION. The named operations over memories and registers (spec 40, 41 R166 and R168, 43 R235 to R237), taking a
decompressor fault and leaving the fault state (60 R286 to R288). -/

namespace Sys2Proof.Machine

/-! ## History buffers -/

/-- The byte at an address, or no value (10 R48). -/
def Memory.read : Memory → Nat → Option Byte
  | [], _ => none
  | (k, b) :: m, a => if k = a then some b else Memory.read m a

/-- Store a byte, keeping the addresses in rising order. -/
def Memory.write : Memory → Nat → Byte → Memory
  | [], a, b => [(a, b)]
  | (k, c) :: m, a, b =>
    if a < k then (a, b) :: (k, c) :: m
    else if a = k then (a, b) :: m
    else (k, c) :: Memory.write m a b

/-- `append` without the cursor: `hist[base + i] <- b[i]`, ascending (40 R141, 42 R186). -/
def Memory.writeRange : Memory → Nat → List Byte → Memory
  | m, _, [] => m
  | m, base, b :: bs => Memory.writeRange (m.write base b) (base + 1) bs

/-- The memory that holds `bs` from address `a` on and nothing else. -/
def Memory.ofBytes : Nat → List Byte → Memory
  | _, [] => []
  | a, b :: bs => (a, b) :: Memory.ofBytes (a + 1) bs

/-- `n` addresses from `a` on with the given contents. -/
def Memory.ofFn (f : Nat → Option Byte) : Nat → Nat → Memory
  | 0, _ => []
  | n + 1, a =>
    match f a with
    | some b => (a, b) :: Memory.ofFn f n (a + 1)
    | none => Memory.ofFn f n (a + 1)

/-- `read_range(start, length)` (40 R143): the bytes, or nothing where one of them holds no value. -/
def Memory.readRange (m : Memory) : Nat → Nat → Option (List Byte)
  | _, 0 => some []
  | a, n + 1 =>
    match m.read a with
    | none => none
    | some b => (Memory.readRange m (a + 1) n).map (b :: ·)

/-- The canonical form of a history buffer: addresses strictly rising, all inside the buffer (20 R60, R63). -/
abbrev Memory.wf (m : Memory) : Prop :=
  m.Pairwise (fun c d => c.1 < d.1) ∧ ∀ c ∈ m, c.1 < Config.histCap

/-! ## The hash table -/

/-- `T[i]`: an entry not listed is 0 (10 R23, 41 R168). -/
def Table.read : Table → Nat → BitVec 16
  | [], _ => 0
  | (k, v) :: t, i => if k = i then v else Table.read t i

/-- The table without entry `i`, which then reads 0. -/
def Table.erase : Table → Nat → Table
  | [], _ => []
  | (k, v) :: t, i => if k = i then t else (k, v) :: Table.erase t i

/-- The table with entry `i` set to a value other than 0. -/
def Table.insert : Table → Nat → BitVec 16 → Table
  | [], i, v => [(i, v)]
  | (k, u) :: t, i, v =>
    if i < k then (i, v) :: (k, u) :: t
    else if i = k then (i, v) :: t
    else (k, u) :: Table.insert t i v

/-- `T[i] <- v` (41 R166). -/
def Table.write (t : Table) (i : Nat) (v : BitVec 16) : Table := if v = 0 then t.erase i else t.insert i v

/-- The cleared table (41 R168). -/
def Table.cleared : Table := []

/-- The canonical form of the table: indexes strictly rising and below HASH_SIZE, no entry 0. -/
abbrev Table.wf (t : Table) : Prop :=
  t.Pairwise (fun c d => c.1 < d.1) ∧ ∀ c ∈ t, c.1 < Config.hashSize ∧ c.2 ≠ 0

/-! ## Taking a fault, leaving the fault state -/

/-- After a fault other than BadFlags the history, the cursor, the validity mark and the view's start are unspecified
(60 R287): free values, numbered by `freeCtr` (log 5). -/
def Dec.forget (d : Dec) : Dec :=
  { d with
    hist := Memory.ofFn (Config.freeHist d.freeCtr) Config.histCap 0
    historyPtr := Config.freePos d.freeCtr
    validHi := Config.freePos (d.freeCtr + 1)
    viewStart := Config.freePos (d.freeCtr + 2)
    freeCtr := d.freeCtr + 3 }

/-- Fault entry (60 R286): the fault state, the cause code, no view, the command abandoned. BadFlags is raised before any
state is changed and changes nothing else (43 R222, 60 R287). -/
def Dec.faultEntry (c : Cause) (d : Dec) : Dec :=
  let d' := { d with faulted := true, faultCode := c.code, viewLen := 0, work := none }
  if c = .badFlags then d' else d'.forget

/-- The return from the fault state by reset (60 R288, 10 R47): every register at its reset value. The counter of free
values is the model's own and goes on. -/
def Dec.toReset (d : Dec) : Dec := { Dec.reset with freeCtr := d.freeCtr }

/-- Why an operation of the decompressor does not complete: a cause is raised (60 R283), or the model stops. -/
inductive Stop where
  | raise (c : Cause)
  | fault (f : Fault)
  deriving DecidableEq, Repr

/-- The end of an operation that began in state `d`: its result, or the fault entry for the cause it raised (60 R283). -/
def Dec.take (d : Dec) : Except Stop Dec → Except Fault Dec
  | .ok d' => .ok d'
  | .error (.raise c) => .ok (d.faultEntry c)
  | .error (.fault f) => .error f

/-! ## The decompressor's history (43 R235 to R237) -/

/-- The greater of two positions. -/
def maxPos (a b : Pos) : Pos := if a.toNat < b.toNat then b else a

/-- WriteByte (43 R237): the only way the decompressor writes history. -/
def Dec.writeByte (b : Byte) (d : Dec) : Except Stop Dec :=
  if Config.histCap - 1 ≤ d.historyPtr.toNat then .error (.raise .historyOverflow)
  else .ok { d with
    hist := d.hist.write d.historyPtr.toNat b
    historyPtr := d.historyPtr + 1
    validHi := maxPos d.validHi (d.historyPtr + 1) }

/-- The source position of a match byte: `(w - off) mod HIST_CAP`, a 16-bit wrapping subtraction (43 R235). -/
def Dec.source (off : Nat) (d : Dec) : Pos := d.historyPtr - BitVec.ofNat 16 off

/-- Change the transient registers of the command in progress. -/
def Dec.setWork (f : DecWork → DecWork) (d : Dec) : Dec := { d with work := d.work.map f }

/-- One byte of a match copy: compute `src`, test it against the valid window, copy (43 R235, R236). -/
def Dec.copyByte (off : Nat) (d : Dec) : Except Stop Dec :=
  let src := d.source off
  if d.validHi.toNat ≤ src.toNat then .error (.raise .offsetOutOfWindow)
  else
    match d.hist.read src.toNat with
    | none => .error (.fault .unwrittenByte)
    | some b => (d.setWork fun w => { w with src := src }).writeByte b

/-- The match copy, byte by byte in ascending order; the source is computed anew for each byte (40 R144, 20 R76). -/
def Dec.copyBytes (off : Nat) : Nat → Dec → Except Stop Dec
  | 0, d => .ok d
  | n + 1, d =>
    match d.copyByte off with
    | .error e => .error e
    | .ok d' => Dec.copyBytes off n d'

/-- CopyMatch (43 R235): the two static tests, then the copy. -/
def Dec.copyMatch (off mlen : Nat) (d : Dec) : Except Stop Dec :=
  if off = 0 then .error (.raise .offsetZero)
  else if Config.histCap ≤ off then .error (.raise .offsetOutOfWindow)
  else d.copyBytes off mlen

/-- RawAppend (43 R227). -/
def Dec.rawAppend : List Byte → Dec → Except Stop Dec
  | [], d => .ok d
  | b :: bs, d =>
    match d.writeByte b with
    | .error e => .error e
    | .ok d' => Dec.rawAppend bs d'

/-! ## An engine's result as the machine's -/

/-- The machine after an operation of the decompressor. -/
def State.withDec (s : State) : Except Fault Dec → Host.Outcome State Fault Refusal
  | .ok d => .next { s with dec := d }
  | .error f => .fault f

/-- The machine after an operation of the compressor; `none` is a read of a byte that holds no value. -/
def State.withEnc (s : State) : Option Enc → Host.Outcome State Fault Refusal
  | some e => .next { s with enc := e }
  | none => .fault .unwrittenByte

end Sys2Proof.Machine
end

