-- ==== Sys2Proof/Machine/Operands.lean ====
section
/-! DEFINITION. The operand forms: a match's offset and length as the transient registers hold them (spec 10 R36), and the
payload formats of the load commands (30 R123 to R125). -/

namespace Sys2Proof.Machine

/-- A 16-bit field of a load payload, low byte first (20 R68). -/
def le16 (lo hi : Byte) : BitVec 16 := BitVec.ofNat 16 (lo.toNat + 256 * hi.toNat)

/-- The hash table of an ENC_LOAD_HASH payload: entry i is `payload[2i] + 256 * payload[2i+1]` (30 R123). -/
def hashImage : Nat → List Byte → Table
  | i, lo :: hi :: rest => if le16 lo hi = 0 then hashImage (i + 1) rest else (i, le16 lo hi) :: hashImage (i + 1) rest
  | _, _ => []

/-- The k-th 16-bit field of a state image's header (30 R124, R125). -/
def imageField (image : List Byte) (k : Nat) : BitVec 16 := le16 (image.getD (2 * k) 0) (image.getD (2 * k + 1) 0)

/-- The history bytes of a state image: from byte 4 on (30 R124, R125). -/
def imageHist (image : List Byte) : Memory := Memory.ofBytes 0 (image.drop 4)

/-- The operand `off` of a length code: the offset the match's offset code left (43 R230 to R233). -/
def DecWork.offset (w : DecWork) : Nat := w.off

/-- `off <- ...`; the length code comes next (30 R103, R111). -/
def DecWork.setOffset (off : Nat) (w : DecWork) : DecWork := { w with off := off, phase := .length }

/-- `ones` and `mlen` of a length code (43 R234); a token boundary comes next. -/
def DecWork.setLength (ones l : Nat) (w : DecWork) : DecWork :=
  { w with ones := ones, mlen := lengthValue ones l, phase := .token }

/-- The number of payload bits not read yet (43 R226). -/
def DecWork.bitsLeft (w : DecWork) : Nat := 8 * w.payload.length - w.bitpos

/-- The payload from `DEC.bitpos` on, as bits (20 R64, R66). -/
def DecWork.bits (w : DecWork) : Bits := (bytesToBits w.payload).drop w.bitpos

/-- The number of bits emitted so far: the register `nbits` (10 R28). -/
def EncWork.nbits (w : EncWork) : Nat := (encodeTokens w.toks).length

/-- `end = base + len` (42 R188). -/
def EncWork.fin (w : EncWork) : Nat := w.base + w.input.length

end Sys2Proof.Machine
end

