-- ==== Sys2Proof/Machine/Compress.lean ====
section
/-! DEFINITION. The match finder (spec 41) and COMPRESS (42), for any `HASH`; the machine's COMPRESS takes the open
parameter. `none` is a read of a history byte that holds no value (10 R48; log 4). -/

namespace Sys2Proof.Machine

/-! ## The match finder (41) -/

/-- Hash of a position: `HASH(h[p], h[p+1], h[p+2])` (41 R161). -/
def hashAt (H : HashFn) (h : Memory) (p : Nat) : Option Nat :=
  match h.read p, h.read (p + 1), h.read (p + 2) with
  | some a, some b, some c => some (H a b c).toNat
  | _, _, _ => none

/-- Whether two positions hold the same byte. -/
def sameByte (h : Memory) (a b : Nat) : Option Bool :=
  match h.read a, h.read b with
  | some x, some y => some (x == y)
  | _, _ => none

/-- Candidate acceptance (41 R163): `q < p` and the three bytes are equal. -/
def accept (h : Memory) (q p : Nat) : Option Bool :=
  if q < p then
    match sameByte h q p, sameByte h (q + 1) (p + 1), sameByte h (q + 2) (p + 2) with
    | some a, some b, some c => some (a && b && c)
    | _, _, _ => none
  else some false

/-- Match extension from length `L` (41 R165), at most `n` bytes further. -/
def extend (h : Memory) (q p fin : Nat) : Nat → Nat → Option Nat
  | 0, L => some L
  | n + 1, L =>
    if p + L < fin ∧ L < Config.maxMatch then
      match sameByte h (q + L) (p + L) with
      | none => none
      | some true => extend h q p fin n (L + 1)
      | some false => some L
    else some L

/-- `insert(position)` (41 R166). -/
def insertAt (H : HashFn) (h : Memory) (t : Table) (p : Nat) : Option Table :=
  (hashAt H h p).map fun hv => t.write hv (BitVec.ofNat 16 p)

/-- InsertInterior (42 R191): the `n` positions from `a` on, ascending, those with three bytes of the chunk left. -/
def insertInterior (H : HashFn) (h : Memory) (fin : Nat) : Nat → Nat → Table → Option Table
  | 0, _, t => some t
  | n + 1, a, t =>
    if a + 2 < fin then
      match insertAt H h t a with
      | none => none
      | some t' => insertInterior H h fin n (a + 1) t'
    else insertInterior H h fin n (a + 1) t

/-- The lookup of `find_match` at `w.p` (41 R164): the registers `hv` and `q`. -/
def Enc.lookup (H : HashFn) (e : Enc) (w : EncWork) : Option EncWork :=
  (hashAt H e.hist w.p).map fun hv => { w with hv := hv, q := (e.hash.read hv).toNat }

/-! ## COMPRESS (42) -/

/-- Rewind (42 R185): offset 0, table cleared. -/
def Enc.rewind (e : Enc) : Enc := { e with historyOffset := 0, hash := Table.cleared }

/-- The reset flags of a chunk of `len` bytes (42 R183, R184). -/
def Enc.chunkHold (len : Nat) (e : Enc) : Byte :=
  let hold := e.readHold
  let hold := if e.firstPkt then hold ||| packetAtFront ||| packetFlushed else hold
  if Config.histCap ≤ e.historyOffset.toNat + len then hold ||| packetAtFront else hold

/-- ResetPolicy (42 R183): the state after it; the chunk's flags are `chunkHold`. -/
def Enc.resetPolicy (len : Nat) (e : Enc) : Enc :=
  let e' := if e.chunkHold len ≠ 0 then e.rewind else e
  { e' with firstPkt := false }.writeHold 0

/-- The command is accepted: reset policy, `base`, chunk store, and the transient registers at their initial values
(42 R183 to R186; log 8). -/
def Enc.begin (maxOut : BitVec 16) (input : List Byte) (e : Enc) : Enc :=
  let e' := e.resetPolicy input.length
  { e' with
    hist := e'.hist.writeRange e'.historyOffset.toNat input
    work := some (
      { input := input, maxOut := maxOut, base := e'.historyOffset.toNat, ctr := 0, hold := e.chunkHold input.length,
        toks := [], p := 0, q := 0, L := 0, hv := 0 } : EncWork) }

/-- Emit a token that consumes `n` input bytes (42 R188). -/
def EncWork.emit (t : Token) (n : Nat) (w : EncWork) : EncWork := { w with toks := w.toks ++ [t], ctr := w.ctr + n }

/-- The position examined: `p <- base + ctr`, at the start of every iteration (42 R188). -/
def EncWork.examine (w : EncWork) : EncWork := { w with p := w.base + w.ctr }

/-- Emit the literal at `w.p` (42 R189, R192). -/
def Enc.emitLiteral (w : EncWork) (e : Enc) : Option Enc :=
  (e.hist.read w.p).map fun b => { e with work := some (w.emit (.lit b) 1) }

/-- Emit the match at `w.p` with the candidate `w.q`, and insert its interior positions (42 R190, R191). -/
def Enc.emitMatch (H : HashFn) (w : EncWork) (e : Enc) : Option Enc :=
  match extend e.hist w.q w.p w.fin (w.fin - w.p) Config.minMatch with
  | none => none
  | some L =>
    (insertInterior H e.hist w.fin (L - 1) (w.p + 1) e.hash).map fun t =>
      { e with hash := t, work := some ({ w with L := L }.emit (.mtch (w.p - w.q) L) L) }

/-- A scanned position with three bytes left: look up, insert, decide (41 R164, 42 R188). -/
def Enc.scanHashed (H : HashFn) (w : EncWork) (e : Enc) : Option Enc :=
  match e.lookup H w with
  | none => none
  | some w =>
    let e' := { e with hash := e.hash.write w.hv (BitVec.ofNat 16 w.p) }
    match accept e'.hist w.q w.p with
    | none => none
    | some true => e'.emitMatch H w
    | some false => e'.emitLiteral w

/-- Fallback (42 R200). -/
def Enc.fallback (w : EncWork) (e : Enc) : Enc :=
  { e with opb := w.input, bytesInOpb := BitVec.ofNat 16 w.input.length, flags := rawFlags w.hold }

/-- The compressed result (42 R197, R201). -/
def Enc.emitCompressed (w : EncWork) (e : Enc) : Enc :=
  { e with opb := assemble w.toks, bytesInOpb := BitVec.ofNat 16 (ceil8 w.nbits), flags := compressedFlags w.hold }

/-- The end of the scan: the offset, then the compressed result or the fallback (42 R197 to R201). -/
def Enc.finish (w : EncWork) (e : Enc) : Enc :=
  let e' := { e with historyOffset := BitVec.ofNat 16 w.fin, work := none }
  if min w.input.length w.maxOut.toNat < ceil8 w.nbits then e'.fallback w else e'.emitCompressed w

/-- One of the finer steps of a COMPRESS (00 R16): one iteration of the scan loop (42 R188), or its end. -/
def Enc.scanStep (H : HashFn) (e : Enc) : Option Enc :=
  match e.work with
  | none => some e
  | some w =>
    if w.ctr < w.input.length then
      if Config.minMatch ≤ w.input.length - w.ctr then e.scanHashed H w.examine
      else e.emitLiteral w.examine
    else some (e.finish w)

/-- The finer steps until the command is complete, at most `n` of them. -/
def Enc.runCommand (H : HashFn) : Nat → Enc → Option Enc
  | 0, e => some e
  | n + 1, e =>
    if e.work.isNone then some e
    else
      match e.scanStep H with
      | none => none
      | some e' => Enc.runCommand H n e'

/-- COMPRESS with a given `HASH` (42 R180): a zero-length input is a no-op with an empty result (42 R182); else the command
is run to its end as one step (10 R45), at most one scan step a byte and the end. -/
def Enc.compress (H : HashFn) (maxOut : BitVec 16) (input : List Byte) (e : Enc) : Option Enc :=
  if input = [] then some { e with flags := rawFlags 0, bytesInOpb := 0 }
  else (e.begin maxOut input).runCommand H (input.length + 1)

/-- COMPRESS (42 R180), with the open parameter `HASH` (log 3). -/
def execCompress (maxOut : BitVec 16) (input : List Byte) (s : State) : Host.Outcome State Fault Refusal :=
  s.withEnc (s.enc.compress Config.hash maxOut input)

end Sys2Proof.Machine
end

