-- ==== Sys2Proof/Machine/Control.lean ====
section
/-! DEFINITION. The control commands (spec 44, 30 R122): no-ops, resets, reset requests, bulk loads. -/

namespace Sys2Proof.Machine

/-- ENC_NOP (44 R260). -/
def execEncNop (s : State) : Host.Outcome State Fault Refusal := .next s

/-- The reserved code 7 behaves as a no-op (30 R122). -/
def execEncReserved7 (s : State) : Host.Outcome State Fault Refusal := .next s

/-- DEC_NOP (44 R260). -/
def execDecNop (s : State) : Host.Outcome State Fault Refusal := .next s

/-- ENC_RESET (44 R261): the reset state of 10 R46. -/
def execEncReset (s : State) : Host.Outcome State Fault Refusal := .next { s with enc := Enc.reset }

/-- DEC_RESET (44 R264): the reset state of 10 R47. -/
def execDecReset (s : State) : Host.Outcome State Fault Refusal := .next { s with dec := s.dec.toReset }

/-- ENC_REQ_FRONT (44 R262). -/
def execEncReqFront (s : State) : Host.Outcome State Fault Refusal :=
  .next { s with enc := s.enc.writeHold (s.enc.readHold ||| packetAtFront) }

/-- ENC_REQ_FLUSH (44 R263). -/
def execEncReqFlush (s : State) : Host.Outcome State Fault Refusal :=
  .next { s with enc := s.enc.writeHold (s.enc.readHold ||| (packetAtFront ||| packetFlushed)) }

/-- ENC_LOAD_HASH (44 R266, 30 R123). -/
def execEncLoadHash (table : List Byte) (s : State) : Host.Outcome State Fault Refusal :=
  .next { s with enc := { s.enc with hash := hashImage 0 table } }

/-- ENC_LOAD_STATE on the compressor (44 R268, 30 R124). -/
def Enc.loadState (image : List Byte) (e : Enc) : Enc :=
  { e with
    historyOffset := imageField image 0
    firstPkt := (image.getD 2 0).getLsbD 0
    hist := imageHist image }.writeHold (loadedHold (image.getD 3 0))

/-- ENC_LOAD_STATE (44 R268). -/
def execEncLoadState (image : List Byte) (s : State) : Host.Outcome State Fault Refusal :=
  .next { s with enc := s.enc.loadState image }

/-- DEC_LOAD_STATE on the decompressor (44 R270, 30 R125). -/
def Dec.loadState (image : List Byte) (d : Dec) : Dec :=
  { d with
    historyPtr := imageField image 0
    validHi := maxPos (imageField image 1) (imageField image 0)
    hist := imageHist image
    faulted := false
    faultCode := 0
    viewStart := imageField image 0
    viewLen := 0 }

/-- DEC_LOAD_STATE (44 R270). -/
def execDecLoadState (image : List Byte) (s : State) : Host.Outcome State Fault Refusal :=
  .next { s with dec := s.dec.loadState image }

end Sys2Proof.Machine
end

