-- ==== Sys2Proof/Machine/Tokens.lean ====
section
/-! DEFINITION. The literal tokens and the offset codes of a match token (spec 43 R228 to R233). -/

namespace Sys2Proof.Machine

/-- An operation on the command in progress; with none in progress a row of the token stream has no place (log 9). -/
def Dec.inCommand (d : Dec) (f : DecWork → Except Stop Dec) : Except Fault Dec :=
  match d.work with
  | none => .error .outOfPlace
  | some w => d.take (f w)

/-- A literal token (43 R228, R229). -/
def Dec.literal (b : Byte) (d : Dec) : Except Fault Dec := d.inCommand fun _ => d.writeByte b

/-- An offset code: the length code that follows completes the match (43 R230 to R233). -/
def Dec.matchOffset (off : Nat) (d : Dec) : Except Fault Dec :=
  d.inCommand fun _ => .ok (d.setWork (DecWork.setOffset off))

/-- LIT7 (43 R228). -/
def execLit7 (v : BitVec 7) (s : State) : Host.Outcome State Fault Refusal :=
  s.withDec (s.dec.literal (v.setWidth 8))

/-- LIT8 (43 R229). -/
def execLit8 (v : BitVec 7) (s : State) : Host.Outcome State Fault Refusal :=
  s.withDec (s.dec.literal (0x80 ||| v.setWidth 8))

/-- MATCH_O6 (43 R230). -/
def execMatchO6 (o : BitVec 6) (s : State) : Host.Outcome State Fault Refusal :=
  s.withDec (s.dec.matchOffset (offsetO6 o))

/-- MATCH_O8 (43 R231). -/
def execMatchO8 (o : BitVec 8) (s : State) : Host.Outcome State Fault Refusal :=
  s.withDec (s.dec.matchOffset (offsetO8 o))

/-- MATCH_O11 (43 R232). -/
def execMatchO11 (o : BitVec 11) (s : State) : Host.Outcome State Fault Refusal :=
  s.withDec (s.dec.matchOffset (offsetO11 o))

/-- MATCH_O16 (43 R233). -/
def execMatchO16 (o : BitVec 16) (s : State) : Host.Outcome State Fault Refusal :=
  s.withDec (s.dec.matchOffset (offsetO16 o))

end Sys2Proof.Machine
end

