-- ==== Sys2Proof/Machine/FlagsByte.lean ====
section
/-! DEFINITION. The accepted flags byte of a chunk, processed before the payload (spec 43 R223 to R225). -/

namespace Sys2Proof.Machine

/-- `PACKET_FLUSHED` empties the valid window and rewinds; `PACKET_AT_FRONT` only rewinds (43 R223, R224). -/
def Dec.applyFlags (f a : Bool) (d : Dec) : Dec :=
  { d with
    historyPtr := if f ∨ a then 0 else d.historyPtr
    validHi := if f then 0 else d.validHi }

/-- The flags byte: flush, rewind, latch `start`, and dispatch on `PACKET_COMPRESSED` (43 R223 to R225). -/
def Dec.chunkFlags (f a c : Bool) (d : Dec) : Except Fault Dec :=
  d.inCommand fun _ =>
    let d' := d.applyFlags f a
    .ok (d'.setWork fun w => { w with start := d'.historyPtr, phase := if c then .token else .raw, bitpos := 0 })

/-- FLAGS (43 R222 to R225). -/
def execFlags (f a c : Bool) (s : State) : Host.Outcome State Fault Refusal :=
  s.withDec (s.dec.chunkFlags f a c)

end Sys2Proof.Machine
end

