-- ==== Sys2Proof/Machine/Lengths.lean ====
section
/-! DEFINITION. The length codes of a match token (spec 43 R234, R235; 30 R108): the code gives `mlen`, and the match is
executed. -/

namespace Sys2Proof.Machine

/-- A length code with `ones` one-bits and value bits `l`: LengthCode's registers, then CopyMatch with the pending offset
(43 R234, R235). -/
def Dec.matchLength (ones l : Nat) (d : Dec) : Except Fault Dec :=
  d.inCommand fun w => (d.setWork (DecWork.setLength ones l)).copyMatch w.offset (lengthValue ones l)

/-- LEN_L3: length 3 (30 R108). -/
def execLenL3 (s : State) : Host.Outcome State Fault Refusal := s.withDec (s.dec.matchLength 0 0)

/-- LEN_L4: length `4 + l` (30 R108). -/
def execLenL4 (l : BitVec 2) (s : State) : Host.Outcome State Fault Refusal :=
  s.withDec (s.dec.matchLength 1 l.toNat)

/-- LEN_L8: length `8 + l` (30 R108). -/
def execLenL8 (l : BitVec 3) (s : State) : Host.Outcome State Fault Refusal :=
  s.withDec (s.dec.matchLength 2 l.toNat)

/-- LEN_L16: length `16 + l` (30 R108). -/
def execLenL16 (l : BitVec 4) (s : State) : Host.Outcome State Fault Refusal :=
  s.withDec (s.dec.matchLength 3 l.toNat)

/-- LEN_L32: length `32 + l` (30 R108). -/
def execLenL32 (l : BitVec 5) (s : State) : Host.Outcome State Fault Refusal :=
  s.withDec (s.dec.matchLength 4 l.toNat)

/-- LEN_L64: length `64 + l` (30 R108). -/
def execLenL64 (l : BitVec 6) (s : State) : Host.Outcome State Fault Refusal :=
  s.withDec (s.dec.matchLength 5 l.toNat)

/-- LEN_L128: length `128 + l` (30 R108). -/
def execLenL128 (l : BitVec 7) (s : State) : Host.Outcome State Fault Refusal :=
  s.withDec (s.dec.matchLength 6 l.toNat)

/-- LEN_L256: length `256 + l` (30 R108). -/
def execLenL256 (l : BitVec 8) (s : State) : Host.Outcome State Fault Refusal :=
  s.withDec (s.dec.matchLength 7 l.toNat)

/-- LEN_L512: length `512 + l` (30 R108). -/
def execLenL512 (l : BitVec 9) (s : State) : Host.Outcome State Fault Refusal :=
  s.withDec (s.dec.matchLength 8 l.toNat)

/-- LEN_L1024: length `1024 + l` (30 R108). -/
def execLenL1024 (l : BitVec 10) (s : State) : Host.Outcome State Fault Refusal :=
  s.withDec (s.dec.matchLength 9 l.toNat)

/-- LEN_L2048: length `2048 + l` (30 R108). -/
def execLenL2048 (l : BitVec 11) (s : State) : Host.Outcome State Fault Refusal :=
  s.withDec (s.dec.matchLength 10 l.toNat)

/-- LEN_L4096: length `4096 + l` (30 R108). -/
def execLenL4096 (l : BitVec 12) (s : State) : Host.Outcome State Fault Refusal :=
  s.withDec (s.dec.matchLength 11 l.toNat)

/-- LEN_L8192: length `8192 + l` (30 R108). -/
def execLenL8192 (l : BitVec 13) (s : State) : Host.Outcome State Fault Refusal :=
  s.withDec (s.dec.matchLength 12 l.toNat)

/-- LEN_L16384: length `16384 + l` (30 R108). -/
def execLenL16384 (l : BitVec 14) (s : State) : Host.Outcome State Fault Refusal :=
  s.withDec (s.dec.matchLength 13 l.toNat)

/-- LEN_L32768: length `32768 + l` (30 R108). -/
def execLenL32768 (l : BitVec 15) (s : State) : Host.Outcome State Fault Refusal :=
  s.withDec (s.dec.matchLength 14 l.toNat)

/-- LEN_RESERVED: the fifteenth consecutive one-bit raises ReservedLengthCode (30 R110, 43 R234). -/
def Dec.reservedLength (d : Dec) : Except Fault Dec := d.inCommand fun _ => .error (.raise .reservedLengthCode)

/-- LEN_RESERVED (30 R110). -/
def execLenReserved (s : State) : Host.Outcome State Fault Refusal := s.withDec s.dec.reservedLength

end Sys2Proof.Machine
end

