-- ==== Sys2Proof/Machine/Decompress.lean ====
section
/-! DEFINITION. DECOMPRESS (spec 43 R220 to R242): what a command in progress reads next, the run of its flags byte and
tokens, and the command as one step. -/

namespace Sys2Proof.Machine

/-- The command is accepted: its operands, and every transient register at its initial value (10 R20, R36; log 8). -/
def Dec.begin (flagsByte : Byte) (payload : List Byte) (d : Dec) : Dec :=
  { d with work := some (
      { payload := payload, flags := flagsByte, phase := .flags, start := 0, bitpos := 0, off := 0, mlen := 0, src := 0,
        ones := 0 } : DecWork) }

/-- The result view; the command is complete (43 R238). -/
def Dec.finish (w : DecWork) (d : Dec) : Dec :=
  { d with viewStart := w.start, viewLen := d.historyPtr - w.start, work := none }

/-- What a step finds to do: a change of state with no instruction, an instruction to run in a state whose cursor has moved
past it, or a stop. -/
inductive Fetched (σ : Type) where
  | quiet (s : σ)
  | run (i : Instr) (s : σ)
  | stop (f : Fault)
  deriving Repr

/-- An operation's end as a quiet change. -/
def Fetched.ofExcept {σ : Type} : Except Fault σ → Fetched σ
  | .ok s => .quiet s
  | .error f => .stop f

/-- An instruction read from the payload at `DEC.bitpos`, which moves past it; a rejection is the fault it stands for. -/
def Dec.fetchAt (d : Dec) (f : Fetch) : Fetched Dec :=
  match decode f with
  | .ok (i, n) => .run i (d.setWork fun w => { w with bitpos := w.bitpos + n })
  | .error r => .quiet (d.faultEntry (rejectCause r))

/-- What the command in progress does next (43 R220, R225 to R227, R234): the flags byte; the raw payload, after which it
is complete; at a token boundary the end of the stream when fewer than 8 bits are left, else a token; a length code. -/
def Dec.fetch (d : Dec) (w : DecWork) : Fetched Dec :=
  match w.phase with
  | .flags => d.fetchAt (.flagsByte w.flags)
  | .raw =>
    match d.rawAppend w.payload with
    | .ok d' => .quiet (d'.finish w)
    | .error e => Fetched.ofExcept (d.take (.error e))
  | .token => if w.bitsLeft < 8 then .quiet (d.finish w) else d.fetchAt (.token w.bits)
  | .length => d.fetchAt (.length w.bits)

/-- What a row of the token stream does to the decompressor; a command has no place in it (log 9). -/
def Dec.streamOp : Instr → Dec → Except Fault Dec
  | .lit7 v, d => d.literal (v.setWidth 8)
  | .lit8 v, d => d.literal (0x80 ||| v.setWidth 8)
  | .matchO6 o, d => d.matchOffset (offsetO6 o)
  | .matchO8 o, d => d.matchOffset (offsetO8 o)
  | .matchO11 o, d => d.matchOffset (offsetO11 o)
  | .matchO16 o, d => d.matchOffset (offsetO16 o)
  | .lenL3, d => d.matchLength 0 0
  | .lenL4 l, d => d.matchLength 1 l.toNat
  | .lenL8 l, d => d.matchLength 2 l.toNat
  | .lenL16 l, d => d.matchLength 3 l.toNat
  | .lenL32 l, d => d.matchLength 4 l.toNat
  | .lenL64 l, d => d.matchLength 5 l.toNat
  | .lenL128 l, d => d.matchLength 6 l.toNat
  | .lenL256 l, d => d.matchLength 7 l.toNat
  | .lenL512 l, d => d.matchLength 8 l.toNat
  | .lenL1024 l, d => d.matchLength 9 l.toNat
  | .lenL2048 l, d => d.matchLength 10 l.toNat
  | .lenL4096 l, d => d.matchLength 11 l.toNat
  | .lenL8192 l, d => d.matchLength 12 l.toNat
  | .lenL16384 l, d => d.matchLength 13 l.toNat
  | .lenL32768 l, d => d.matchLength 14 l.toNat
  | .lenReserved, d => d.reservedLength
  | .flags f a c, d => d.chunkFlags f a c
  | .encNop, _ | .compress _ _, _ | .encReset, _ | .encReqFront, _ | .encReqFlush, _ => .error .outOfPlace
  | .encLoadHash _, _ | .encLoadState _, _ | .encReserved7, _ => .error .outOfPlace
  | .decNop, _ | .decompress _ _, _ | .decReset, _ | .decLoadState _, _ => .error .outOfPlace

/-- One of the finer steps of a DECOMPRESS (00 R16). -/
def Dec.microStep (d : Dec) : Except Fault Dec :=
  match d.work with
  | none => .ok d
  | some w =>
    match d.fetch w with
    | .quiet d' => .ok d'
    | .run i d' => Dec.streamOp i d'
    | .stop f => .error f

/-- The finer steps until the command is complete, at most `n` of them. -/
def Dec.runCommand : Nat → Dec → Except Fault Dec
  | 0, d => .ok d
  | n + 1, d =>
    if d.work.isNone then .ok d
    else
      match d.microStep with
      | .error f => .error f
      | .ok d' => Dec.runCommand n d'

/-- How many finer steps a DECOMPRESS of `len` bytes takes at most: the flags byte, two for every token (a token has at
least 8 bits, 30 R112), the end. -/
def commandSteps (len : Nat) : Nat := 2 * len + 2

/-- DECOMPRESS (43 R220): refused in the fault state, changing nothing (43 R221); else run to its end as one step
(10 R45). -/
def Dec.decompress (flagsByte : Byte) (payload : List Byte) (d : Dec) : Except Fault Dec :=
  if d.faulted then .ok d
  else (d.begin flagsByte payload).runCommand (commandSteps payload.length)

/-- DECOMPRESS (43 R220). -/
def execDecompress (flagsByte : Byte) (payload : List Byte) (s : State) : Host.Outcome State Fault Refusal :=
  s.withDec (s.dec.decompress flagsByte payload)

end Sys2Proof.Machine
end

