-- ==== Sys2Proof/Machine/Fetch.lean ====
section
/-! DEFINITION. What a step finds to do (spec 10 R45, 70 R310 and R322, 00 R16), in the order of log 2: the host's first
action that is accepted, `rst` always; else the command in progress in either engine. Also what of the ports the host can
see (10 R43, R44). -/

namespace Sys2Proof.Machine

/-! ## The ports' outputs (10 R43, R44) -/

/-- `enc_cmd_ready`: no command executes or waits. -/
def State.encCmdReady (s : State) : Bool := s.enc.work.isNone && s.encPort.waiting.isNone

/-- `dec_cmd_ready`. -/
def State.decCmdReady (s : State) : Bool := s.dec.work.isNone && s.decPort.waiting.isNone

/-- `enc_flags`. -/
def State.encFlags (s : State) : Byte := s.enc.flags

/-- `enc_encoded_length`. -/
def State.encEncodedLength (s : State) : BitVec 16 := s.enc.bytesInOpb

/-- The compressor's payload stream: `ENC.opb[0 .. ENC.bytes_in_opb)` (42 R180). -/
def Enc.output (e : Enc) : List Byte := e.opb.take e.bytesInOpb.toNat

/-- `dec_err`. -/
def State.decErr (s : State) : Bool := s.dec.faulted

/-- `dec_fault_code`. -/
def State.decFaultCode (s : State) : BitVec 3 := s.dec.faultCode

/-- The result view's bytes, lowest position first (43 R238); nothing is streamed in the fault state (10 R44). -/
def Dec.output (d : Dec) : Option (List Byte) :=
  if d.faulted then none else d.hist.readRange d.viewStart.toNat d.viewLen.toNat

/-! ## Which engine an instruction belongs to -/

/-- The two engines (10 R20). -/
inductive Engine where
  | enc
  | dec
  deriving DecidableEq, Repr

/-- The engine that executes an instruction: the compressor its commands, the decompressor everything else. -/
def engineOf : Instr → Engine
  | .encNop | .compress _ _ | .encReset | .encReqFront | .encReqFlush | .encLoadHash _ | .encLoadState _ => .enc
  | .encReserved7 => .enc
  | .decNop | .decompress _ _ | .decReset | .decLoadState _ => .dec
  | .lit7 _ | .lit8 _ | .matchO6 _ | .matchO8 _ | .matchO11 _ | .matchO16 _ => .dec
  | .lenL3 | .lenL4 _ | .lenL8 _ | .lenL16 _ | .lenL32 _ | .lenL64 _ | .lenL128 _ | .lenL256 _ => .dec
  | .lenL512 _ | .lenL1024 _ | .lenL2048 _ | .lenL4096 _ | .lenL8192 _ | .lenL16384 _ | .lenL32768 _ => .dec
  | .lenReserved | .flags _ _ _ => .dec

/-- `enc_done` after a step of the compressor: raised when no command is in progress any more (10 R45). -/
def State.settleEnc (s : State) : State := { s with encPort := { s.encPort with done := s.enc.work.isNone } }

/-- `dec_done` after a step of the decompressor. -/
def State.settleDec (s : State) : State := { s with decPort := { s.decPort with done := s.dec.work.isNone } }

/-- The `done` output of the engine that made the step. -/
def State.settle (g : Engine) (s : State) : State :=
  match g with
  | .enc => s.settleEnc
  | .dec => s.settleDec

/-! ## What the step does -/

/-- `rst` of the compressor (70 R310): the reset state; a command in progress or waiting is abandoned. -/
def State.resetEnc (s : State) : State := { s with enc := Enc.reset, encPort := EncPort.reset }

/-- `rst` of the decompressor (70 R310). -/
def State.resetDec (s : State) : State := { s with dec := s.dec.toReset, decPort := DecPort.reset }

/-- A compressor command with the payload bytes that have come: run when its payload is complete, else it waits, with
`enc_done` low (10 R45, 70 R322). -/
def State.acceptEnc (r : EncReq) (s : State) : Fetched State :=
  match decode (.encCmd r) with
  | .ok (i, _) => .run i { s with encPort := { s.encPort with waiting := none } }
  | .error _ => .quiet { s with encPort := { done := false, waiting := some r } }

/-- A decompressor command with the payload bytes that have come (10 R45, 70 R322). -/
def State.acceptDec (r : DecReq) (s : State) : Fetched State :=
  match decode (.decCmd r) with
  | .ok (i, _) => .run i { s with decPort := { s.decPort with waiting := none } }
  | .error _ => .quiet { s with decPort := { done := false, waiting := some r } }

/-- Whether an action of the host is not accepted now (10 R43 to R45; log 2). A command waits for its port's ready; payload
bytes wait while their engine executes. `rst` never waits: it may be asserted at any time (70 R310). -/
def State.blocked (s : State) : HostAct → Bool
  | .encRst | .decRst => false
  | .encCmd _ => !s.encCmdReady
  | .decCmd _ => !s.decCmdReady
  | .encData _ => s.enc.work.isSome
  | .decData _ => s.dec.work.isSome

/-- The first action that is not blocked, and the other actions in their order. -/
def firstFree (blocked : HostAct → Bool) : List HostAct → Option (HostAct × List HostAct)
  | [] => none
  | a :: as => if blocked a then (firstFree blocked as).map fun x => (x.1, a :: x.2) else some (a, as)

/-- An action of the host is accepted (log 2). Payload bytes come to the command that waits; with none waiting they are not
accepted (70 R322) and are dropped. -/
def State.hostAct (s : State) : HostAct → Fetched State
  | .encRst => .quiet s.resetEnc
  | .decRst => .quiet s.resetDec
  | .encCmd r => s.acceptEnc r
  | .decCmd r => s.acceptDec r
  | .encData bs =>
    match s.encPort.waiting with
    | none => .quiet s
    | some r => s.acceptEnc { r with data := r.data ++ bs }
  | .decData bs =>
    match s.decPort.waiting with
    | none => .quiet s
    | some r => s.acceptDec { r with data := r.data ++ bs }

/-- One finer step of the COMPRESS in progress. -/
def State.scanEnc (s : State) : Fetched State :=
  match s.enc.scanStep Config.hash with
  | some e => .quiet { s with enc := e }.settleEnc
  | none => .stop .unwrittenByte

/-- What the DECOMPRESS in progress does next, on the machine. -/
def State.fetchDec (s : State) (w : DecWork) : Fetched State :=
  match s.dec.fetch w with
  | .quiet d => .quiet { s with dec := d }.settleDec
  | .run i d => .run i { s with dec := d }
  | .stop f => .stop f

/-- A finer step of a command in progress; with none, both engines are idle and keep their state (60 R308). -/
def State.progress (s : State) : Fetched State :=
  if s.enc.work.isSome then s.scanEnc
  else
    match s.dec.work with
    | some w => s.fetchDec w
    | none => .quiet s

/-- What the next step does (log 2): the host's first action that is accepted, else a finer step of a command in progress. -/
def State.fetch (s : State) : Fetched State :=
  match firstFree s.blocked s.host with
  | some (a, rest) => { s with host := rest }.hostAct a
  | none => s.progress

/-! ## Placing an instruction where the next step fetches -/

/-- A DECOMPRESS in progress that reads the given bits next (log 10). -/
def Dec.placed (phase : DecPhase) (bits : Bits) (flagsByte : Byte) (d : Dec) : Dec :=
  { d.begin flagsByte (bitsToBytes bits) with
    work := (d.begin flagsByte (bitsToBytes bits)).work.map fun w => { w with phase := phase } }

/-- The state in which the next step reads `f`: a command is the host's next action with both engines idle; a row of the
token stream or a flags byte is what a DECOMPRESS in progress reads next. -/
def State.place (f : Fetch) (s : State) : State :=
  let s := { s with enc := { s.enc with work := none }, host := [] }
  match f with
  | .encCmd r =>
    { s with host := [.encCmd r], encPort := { s.encPort with waiting := none }, dec := { s.dec with work := none } }
  | .decCmd r =>
    { s with host := [.decCmd r], decPort := { s.decPort with waiting := none }, dec := { s.dec with work := none } }
  | .flagsByte b => { s with dec := s.dec.placed .flags [] b }
  | .token bits => { s with dec := s.dec.placed .token bits 0 }
  | .length bits => { s with dec := s.dec.placed .length bits 0 }

end Sys2Proof.Machine
end

