-- ==== Sys2Proof/Machine/Dispatch.lean ====
section
/-! DEFINITION. One arm per instruction, one meaning per arm. -/

namespace Sys2Proof.Machine

/-- The meaning of an instruction. -/
def exec (i : Instr) (s : State) : Host.Outcome State Fault Refusal :=
  match i with
  | .lit7 v => Sys2Proof.Machine.execLit7 v s
  | .lit8 v => Sys2Proof.Machine.execLit8 v s
  | .matchO6 o => Sys2Proof.Machine.execMatchO6 o s
  | .matchO8 o => Sys2Proof.Machine.execMatchO8 o s
  | .matchO11 o => Sys2Proof.Machine.execMatchO11 o s
  | .matchO16 o => Sys2Proof.Machine.execMatchO16 o s
  | .lenL3 => Sys2Proof.Machine.execLenL3 s
  | .lenL4 l => Sys2Proof.Machine.execLenL4 l s
  | .lenL8 l => Sys2Proof.Machine.execLenL8 l s
  | .lenL16 l => Sys2Proof.Machine.execLenL16 l s
  | .lenL32 l => Sys2Proof.Machine.execLenL32 l s
  | .lenL64 l => Sys2Proof.Machine.execLenL64 l s
  | .lenL128 l => Sys2Proof.Machine.execLenL128 l s
  | .lenL256 l => Sys2Proof.Machine.execLenL256 l s
  | .lenL512 l => Sys2Proof.Machine.execLenL512 l s
  | .lenL1024 l => Sys2Proof.Machine.execLenL1024 l s
  | .lenL2048 l => Sys2Proof.Machine.execLenL2048 l s
  | .lenL4096 l => Sys2Proof.Machine.execLenL4096 l s
  | .lenL8192 l => Sys2Proof.Machine.execLenL8192 l s
  | .lenL16384 l => Sys2Proof.Machine.execLenL16384 l s
  | .lenL32768 l => Sys2Proof.Machine.execLenL32768 l s
  | .lenReserved => Sys2Proof.Machine.execLenReserved s
  | .flags f a c => Sys2Proof.Machine.execFlags f a c s
  | .encNop => Sys2Proof.Machine.execEncNop s
  | .compress maxOut input => Sys2Proof.Machine.execCompress maxOut input s
  | .encReset => Sys2Proof.Machine.execEncReset s
  | .encReqFront => Sys2Proof.Machine.execEncReqFront s
  | .encReqFlush => Sys2Proof.Machine.execEncReqFlush s
  | .encLoadHash table => Sys2Proof.Machine.execEncLoadHash table s
  | .encLoadState image => Sys2Proof.Machine.execEncLoadState image s
  | .encReserved7 => Sys2Proof.Machine.execEncReserved7 s
  | .decNop => Sys2Proof.Machine.execDecNop s
  | .decompress flagsByte payload => Sys2Proof.Machine.execDecompress flagsByte payload s
  | .decReset => Sys2Proof.Machine.execDecReset s
  | .decLoadState image => Sys2Proof.Machine.execDecLoadState image s

end Sys2Proof.Machine
end

