-- ==== Sys2Proof/Machine/Step.lean ====
section
/-! DEFINITION. One step of the machine: what it finds to do, and the instruction's meaning where it finds one. -/

namespace Sys2Proof.Machine

/-- A meaning's outcome, with the `done` output of the engine that made the step (10 R45). -/
def settleOutcome (g : Engine) : Host.Outcome State Fault Refusal → Host.Outcome State Fault Refusal
  | .next s => .next (s.settle g)
  | .fault f => .fault f
  | .refused r => .refused r

/-- One step: a change of the ports or of a command in progress, or one instruction. -/
def step (s : State) : Host.Outcome State Fault Refusal :=
  match s.fetch with
  | .quiet t => .next t
  | .run i t => settleOutcome (engineOf i) (exec i t)
  | .stop f => .fault f

/-- The state whose next step runs the instruction of a number of the opcode table (log 10). -/
def State.withFetchWord (s : State) (nbits w : Nat) : State := s.place (tableFetch nbits w).zeroFilled

end Sys2Proof.Machine
end

