-- ==== Sys2Proof/Safety.lean ====
section
/-! DEFINITION. What claims are stated in: the invariant of the two engines (spec 10 R49), the mirror relation (10 R50), what
taking a fault leaves (60 R286, R287), the replay of a token list (42 R193), and a session of a pair (70 R330). -/

namespace Sys2Proof.Machine

/-! ## What a token list stands for (42 R193, 40 R144) -/

/-- `n` bytes copied from `off` behind the end of `out`, one at a time. -/
def replayMatch (off : Nat) : Nat → List Byte → Option (List Byte)
  | 0, out => some out
  | n + 1, out =>
    if off = 0 ∨ out.length < off then none
    else
      match out[out.length - off]? with
      | some b => replayMatch off n (out ++ [b])
      | none => none

/-- A token list expanded in order, from the history `out` below the write position. -/
def replay : List Token → List Byte → Option (List Byte)
  | [], out => some out
  | .lit b :: ts, out => replay ts (out ++ [b])
  | .mtch off len :: ts, out =>
    match replayMatch off len out with
    | some out' => replay ts out'
    | none => none

/-! ## Invariants (10 R49) -/

/-- Every position below `n` holds a value. -/
def Memory.filled (m : Memory) (n : Nat) : Prop := ∀ a, a < n → (m.read a).isSome = true

/-- The values `ENC.flagsHold` and `hold` can have (10 R25, 42 R183). -/
abbrev legalHold (b : Byte) : Prop := b = 0x00 ∨ b = 0x40 ∨ b = 0xC0

/-- A COMPRESS in progress: its chunk is stored at `base`, below position 65535, the cursor is inside it (10 R28, R29;
42 R184, R186), every token emitted so far can be encoded, and the tokens, expanded from the history below `base`, give the
part of the chunk consumed so far (42 R193). -/
structure Enc.WorkInv (e : Enc) (w : EncWork) : Prop where
  nonempty : w.input ≠ []
  fits     : w.base + w.input.length ≤ 65535
  cursor   : w.ctr ≤ w.input.length
  hold     : legalHold w.hold
  below    : e.hist.filled w.base
  stored   : ∀ k, k < w.input.length → e.hist.read (w.base + k) = w.input[k]?
  legal    : ∀ t ∈ w.toks, t.wellFormed = true
  replays  : ∀ P, e.hist.readRange 0 w.base = some P → replay w.toks P = some (P ++ w.input.take w.ctr)

/-- The compressor's invariant (10 R22, R25, R49; 20 R62; 30 R92). -/
structure Enc.Inv (e : Enc) : Prop where
  histWf   : Memory.wf e.hist
  hashWf   : Table.wf e.hash
  hold     : legalHold e.flagsHold
  flags    : e.flags = 0x00 ∨ e.flags ∈ emittedFlags
  staged   : e.bytesInOpb.toNat ≤ e.opb.length
  capacity : e.opb.length ≤ Config.opbCap
  filled   : e.hist.filled e.historyOffset.toNat
  working  : ∀ w, e.work = some w → e.WorkInv w

/-- The decompressor's invariant (10 R31, R33 to R35, R49; 60 R281). Nothing is promised of the history, the cursor and the
validity mark in the fault state (60 R287), but that the history is in canonical form. -/
structure Dec.Inv (d : Dec) : Prop where
  histWf   : Memory.wf d.hist
  noCode   : d.faulted = false → d.faultCode = 0
  code     : d.faulted = true → d.faultCode ≠ 0 ∧ d.faultCode ≠ 7
  noView   : d.faulted = true → d.viewLen = 0
  cursor   : d.faulted = false → d.historyPtr.toNat ≤ d.validHi.toNat
  filled   : d.faulted = false → d.hist.filled d.validHi.toNat
  view     : d.faulted = false → d.work = none → d.viewStart.toNat + d.viewLen.toNat = d.historyPtr.toNat
  working  : ∀ w, d.work = some w → d.faulted = false ∧ w.start.toNat ≤ d.historyPtr.toNat

/-- The machine's invariant: both engines', and a command waits only while its payload is not complete (70 R322). -/
structure State.Inv (s : State) : Prop where
  enc        : s.enc.Inv
  dec        : s.dec.Inv
  encWaiting : ∀ r, s.encPort.waiting = some r → decode (.encCmd r) = .error .payloadShort
  decWaiting : ∀ r, s.decPort.waiting = some r → decode (.decCmd r) = .error .payloadShort

/-- The mirror relation of a compressor and the decompressor of its peer (10 R50). -/
def Mirror (e : Enc) (d : Dec) : Prop :=
  d.faulted = false ∧ d.historyPtr = e.historyOffset ∧
    ∀ a, a < e.historyOffset.toNat → d.hist.read a = e.hist.read a

/-- The compressor is about to perform a flush at its next non-empty chunk (43 R239). -/
def Enc.flushPending (e : Enc) : Prop := e.firstPkt = true ∨ e.flagsHold.getLsbD 7 = true

/-- The premise of the round trip (43 R239, 70 R330): the pair mirrors, or the next non-empty chunk flushes and the
decompressor is not in the fault state. -/
def Synced (e : Enc) (d : Dec) : Prop := Mirror e d ∨ (e.flushPending ∧ d.faulted = false)

/-! ## Taking a fault (60 R286, R287) -/

/-- `t` is `s` after the decompressor took the fault of cause `c`: the fault state, the code, no view, no command in
progress. What 60 R287 leaves unspecified (history, cursor, validity mark, view start) and the model's own counter are not
constrained; everything else is unchanged. -/
def FaultTaken (c : Cause) (s t : State) : Prop :=
  t = { s with dec := { s.dec with
    hist := t.dec.hist, historyPtr := t.dec.historyPtr, validHi := t.dec.validHi, viewStart := t.dec.viewStart,
    freeCtr := t.dec.freeCtr, faulted := true, faultCode := c.code, viewLen := 0, work := none } }

/-! ## The tables of the token stream, as the spec prints them (30 R104, R108) -/

/-- The offset classes: the row and the offset it stands for. -/
def OffsetRow (i : Instr) (d : Nat) : Prop :=
  (∃ o : BitVec 6, i = .matchO6 o ∧ d = o.toNat) ∨
  (∃ o : BitVec 8, i = .matchO8 o ∧ d = 64 + o.toNat) ∨
  (∃ o : BitVec 11, i = .matchO11 o ∧ d = 320 + o.toNat) ∨
  (∃ o : BitVec 16, i = .matchO16 o ∧ d = 2368 + o.toNat)

/-- The length classes: the row, the number of one-bits before the zero bit, and the length it stands for. -/
def LengthRow (i : Instr) (ones n : Nat) : Prop :=
  (i = .lenL3 ∧ ones = 0 ∧ n = 3) ∨
  (∃ l : BitVec 2, i = .lenL4 l ∧ ones = 1 ∧ n = 4 + l.toNat) ∨
  (∃ l : BitVec 3, i = .lenL8 l ∧ ones = 2 ∧ n = 8 + l.toNat) ∨
  (∃ l : BitVec 4, i = .lenL16 l ∧ ones = 3 ∧ n = 16 + l.toNat) ∨
  (∃ l : BitVec 5, i = .lenL32 l ∧ ones = 4 ∧ n = 32 + l.toNat) ∨
  (∃ l : BitVec 6, i = .lenL64 l ∧ ones = 5 ∧ n = 64 + l.toNat) ∨
  (∃ l : BitVec 7, i = .lenL128 l ∧ ones = 6 ∧ n = 128 + l.toNat) ∨
  (∃ l : BitVec 8, i = .lenL256 l ∧ ones = 7 ∧ n = 256 + l.toNat) ∨
  (∃ l : BitVec 9, i = .lenL512 l ∧ ones = 8 ∧ n = 512 + l.toNat) ∨
  (∃ l : BitVec 10, i = .lenL1024 l ∧ ones = 9 ∧ n = 1024 + l.toNat) ∨
  (∃ l : BitVec 11, i = .lenL2048 l ∧ ones = 10 ∧ n = 2048 + l.toNat) ∨
  (∃ l : BitVec 12, i = .lenL4096 l ∧ ones = 11 ∧ n = 4096 + l.toNat) ∨
  (∃ l : BitVec 13, i = .lenL8192 l ∧ ones = 12 ∧ n = 8192 + l.toNat) ∨
  (∃ l : BitVec 14, i = .lenL16384 l ∧ ones = 13 ∧ n = 16384 + l.toNat) ∨
  (∃ l : BitVec 15, i = .lenL32768 l ∧ ones = 14 ∧ n = 32768 + l.toNat)

/-! ## What an operation leaves -/

/-- `t` is `s` after `n` bytes were written at the decompressor's cursor (43 R237), with `w'` in the transient registers:
nothing else changed, and no byte outside the `n` did. -/
structure Grown (s t : State) (n : Nat) (w' : Option DecWork) : Prop where
  frame   : t = { s with dec := { s.dec with
    hist := t.dec.hist, historyPtr := t.dec.historyPtr, validHi := t.dec.validHi, work := w' } }
  cursor  : t.dec.historyPtr.toNat = s.dec.historyPtr.toNat + n
  mark    : t.dec.validHi.toNat = max s.dec.validHi.toNat (s.dec.historyPtr.toNat + n)
  outside : ∀ a, a < s.dec.historyPtr.toNat ∨ s.dec.historyPtr.toNat + n ≤ a → t.dec.hist.read a = s.dec.hist.read a

/-- Where a chunk with the flags `f` (PACKET_FLUSHED) and `a` (PACKET_AT_FRONT) starts in the decompressor's history
(43 R223, R224). -/
def chunkStart (f a : Bool) (d : Dec) : Nat := if f || a then 0 else d.historyPtr.toNat

/-- `t` is `s` after a DECOMPRESS that completed normally and whose plaintext is `out` (43 R238): the bytes stand in the
history from the chunk's start on and are the result view; no other byte of the history changed, and nothing else of the
machine. -/
structure Decompressed (f a : Bool) (s t : State) (out : List Byte) : Prop where
  frame     : t = { s with dec := { s.dec with
    hist := t.dec.hist, historyPtr := t.dec.historyPtr, validHi := t.dec.validHi, viewStart := t.dec.viewStart,
    viewLen := t.dec.viewLen, work := none } }
  cursor    : t.dec.historyPtr.toNat = chunkStart f a s.dec + out.length
  mark      : t.dec.validHi.toNat = max (if f then 0 else s.dec.validHi.toNat) (chunkStart f a s.dec + out.length)
  viewStart : t.dec.viewStart.toNat = chunkStart f a s.dec
  viewLen   : t.dec.viewLen.toNat = out.length
  bytes     : ∀ k, k < out.length → t.dec.hist.read (chunkStart f a s.dec + k) = out[k]?
  outside   : ∀ x, x < chunkStart f a s.dec ∨ chunkStart f a s.dec + out.length ≤ x →
    t.dec.hist.read x = s.dec.hist.read x
  output    : t.dec.output = some out

/-- The source position of byte `k` of a match copy that began with the cursor at `p` (43 R235). -/
def matchSource (off p k : Nat) : Nat := (p + k + 65536 - off) % 65536

/-- The compressor rewinds before a chunk of `n` bytes (42 R183, R184). -/
def Enc.rewinds (n : Nat) (e : Enc) : Bool :=
  e.firstPkt || decide (e.flagsHold ≠ 0) || decide (65536 ≤ e.historyOffset.toNat + n)

/-- The base of a chunk of `n` bytes (42 R203). -/
def Enc.baseOf (n : Nat) (e : Enc) : Nat := if e.rewinds n then 0 else e.historyOffset.toNat

/-- The reset flags a chunk of `n` bytes carries (42 R183, R184; 30 R92). -/
def Enc.resetFlags (n : Nat) (e : Enc) : Byte :=
  if e.firstPkt || e.flagsHold.getLsbD 7 then 0xC0 else if e.rewinds n then 0x40 else 0x00

/-- `t` is `s` after a COMPRESS of the non-empty chunk `bs` (42 R203): the chunk stands at its base, the offset is behind
it, no other byte of the history changed, nothing is pending, and nothing of the machine changed but the compressor's hash
table and results. -/
structure Stored (bs : List Byte) (s t : State) : Prop where
  frame   : t = { s with enc := { s.enc with
    hist := t.enc.hist, historyOffset := t.enc.historyOffset, hash := t.enc.hash, flags := t.enc.flags, flagsHold := 0x00,
    firstPkt := false, opb := t.enc.opb, bytesInOpb := t.enc.bytesInOpb, work := none } }
  offset  : t.enc.historyOffset.toNat = s.enc.baseOf bs.length + bs.length
  bytes   : ∀ k, k < bs.length → t.enc.hist.read (s.enc.baseOf bs.length + k) = bs[k]?
  outside : ∀ x, x < s.enc.baseOf bs.length ∨ s.enc.baseOf bs.length + bs.length ≤ x →
    t.enc.hist.read x = s.enc.hist.read x

/-- `v` is the hash of the three bytes at a position (41 R161). -/
def HashOf (H : HashFn) (h : Memory) (p v : Nat) : Prop :=
  ∃ a b c, h.read p = some a ∧ h.read (p + 1) = some b ∧ h.read (p + 2) = some c ∧ v = (H a b c).toNat

/-- A candidate qualifies for a position: it is below it and the three bytes are equal (41 R163). -/
def Qualifies (h : Memory) (q p : Nat) : Prop := q < p ∧ ∀ k, k < 3 → h.read (q + k) = h.read (p + k)

/-- `toks` is the token list that the scan of a COMPRESS of `input` emits (42 R188) and `table` the hash table it leaves: what
the finer steps from the accepted command on have made of both when the whole chunk is consumed. -/
def Enc.Scanned (H : HashFn) (maxOut : BitVec 16) (input : List Byte) (e : Enc) (toks : List Token) (table : Table) : Prop :=
  ∃ n e' w, (e.begin maxOut input).runCommand H n = some e' ∧ e'.work = some w ∧ w.ctr = w.input.length ∧
    w.toks = toks ∧ e'.hash = table

/-- `n` steps of the machine (00 R16). -/
def steps : Nat → State → Host.Outcome State Fault Refusal
  | 0, s => .next s
  | n + 1, s =>
    match step s with
    | .next t => steps n t
    | .fault f => .fault f
    | .refused r => .refused r

/-! ## A session of a pair (70 R330) -/

/-- One chunk through the pair (00 R4): COMPRESS on the machine `s`, its flags and payload to DECOMPRESS on the peer machine
`r`. The result is both machines and the plaintext the decompressor returns; none if either stops or the decompressor
faults. -/
def exchange (maxOut : BitVec 16) (input : List Byte) (s r : State) : Option (State × State × List Byte) :=
  match exec (.compress maxOut input) s with
  | .next t =>
    match exec (.decompress t.encFlags t.enc.output) r with
    | .next u => u.dec.output.map fun v => (t, u, v)
    | _ => none
  | _ => none

/-- What the host does to the compressor in a session: a chunk, or one of the commands 70 R330 admits between chunks. -/
inductive SessionAct where
  | chunk (maxOut : BitVec 16) (input : List Byte)
  | nop
  | reqFront
  | reqFlush
  | loadHash (table : List Byte)
  deriving DecidableEq, Repr

/-- The act can be presented to the hardware. -/
def SessionAct.wellFormed : SessionAct → Bool
  | .chunk maxOut input => (Instr.compress maxOut input).wellFormed
  | .loadHash table => (Instr.encLoadHash table).wellFormed
  | .nop | .reqFront | .reqFlush => true

/-- A command of the compressor in a session. -/
def command (i : Instr) (s : State) : Option State :=
  match exec i s with
  | .next t => some t
  | _ => none

/-- A session: the final machines, and the plaintext of every chunk in order. -/
def session : List SessionAct → State → State → Option (State × State × List (List Byte))
  | [], s, r => some (s, r, [])
  | a :: as, s, r =>
    match a with
    | .chunk maxOut input =>
      match exchange maxOut input s r with
      | some (t, u, v) => (session as t u).map fun x => (x.1, x.2.1, v :: x.2.2)
      | none => none
    | .nop => (command .encNop s).bind fun t => session as t r
    | .reqFront => (command .encReqFront s).bind fun t => session as t r
    | .reqFlush => (command .encReqFlush s).bind fun t => session as t r
    | .loadHash table => (command (.encLoadHash table) s).bind fun t => session as t r

/-- The chunks of a session, in order. -/
def chunksOf : List SessionAct → List (List Byte)
  | [] => []
  | .chunk _ input :: as => input :: chunksOf as
  | .nop :: as | .reqFront :: as | .reqFlush :: as | .loadHash _ :: as => chunksOf as

end Sys2Proof.Machine
end

