-- ==== Sys2Proof/Certificates/Slice0/Obligations.lean ====
section
/-! DEFINITION. The statements for the provers, from the rules of spec/, family by family: encodings, tokens, DECOMPRESS,
COMPRESS and its match finder, control commands, faults and reset, the step, the invariant, the pair of engines. -/

open Sys2Proof Sys2Proof.Machine

/-! ## Encodings (30) -/

/-- Words written out from the tables of 30 R101 to R110, R120, R121 and 95 part 2.1 decode to the rows they stand for, with
their widths; a byte with bit 4 set is no flags byte. -/
def Obligations.TableWordsDecode : Prop :=
  decode (.token [false, true, false, false, false, false, false, true]) = .ok (.lit7 0x41, 8) ∧
  decode (.token [true, false, false, true, false, true, false, true, false]) = .ok (.lit8 0x2A, 9) ∧
  decode (.token [true, true, true, true, true, false, false, false, false, false, true]) = .ok (.matchO6 1, 11) ∧
  decode (.token [true, true, true, false, false, false, false, false, false, false, false, false, false, false, true])
    = .ok (.matchO11 1, 15) ∧
  decode (.length [false]) = .ok (.lenL3, 1) ∧
  decode (.length [true, false, true, true]) = .ok (.lenL4 3, 4) ∧
  decode (.length [true, true, false, true, false, false]) = .ok (.lenL8 4, 6) ∧
  decode (.flagsByte 0xE1) = .ok (.flags true true true, 8) ∧
  decode (.flagsByte 0x31) = .error .badFlags ∧
  decode (.encCmd ⟨4, 0, 0, []⟩) = .ok (.encReqFlush, 3) ∧
  decode (.decCmd ⟨2, 0, 0, []⟩) = .ok (.decReset, 2)

/-- Decode and encode agree on every well-formed instruction, with every operand, and the decoded width is the table's
(30 R100 to R125). -/
def Obligations.DecodeEncodeAgree : Prop :=
  ∀ i : Instr, i.wellFormed = true → decode (encode i) = .ok (i, i.width)

/-- The law of 30 R115: a whole token decodes from its code with anything after it, and with the code's width. -/
def Obligations.WholeTokenDecodes : Prop :=
  ∀ (t : Token) (rest : Bits), t.wellFormed = true →
    decodeWhole (encodeToken t ++ rest) = .ok (t, (encodeToken t).length)

/-- The other direction: a code the decoder accepts is the code of the row it reads, bit for bit, and the width it reports is
the code's (30 R101 to R111). -/
def Obligations.DecodedBitsAreTheCode : Prop :=
  ∀ (bits : Bits) (i : Instr) (n : Nat),
    (decodeToken bits = .ok (i, n) → n ≤ bits.length ∧ bits.take n = i.bits ∧ n = i.width) ∧
    (decodeLength bits = .ok (i, n) → n ≤ bits.length ∧ bits.take n = i.bits ∧ n = i.width)

/-- Every offset from 0 to 67903 has exactly one code, the encoder's, and no row stands for any other offset (30 R104,
R105). -/
def Obligations.OffsetsHaveOneCode : Prop :=
  ∀ (i : Instr) (d : Nat), OffsetRow i d ↔ d ≤ 67903 ∧ i = offsetInstr d

/-- Every length from 3 to 65535 has exactly one code, the encoder's, and no row stands for any other length (30 R108,
R109). -/
def Obligations.LengthsHaveOneCode : Prop :=
  ∀ (i : Instr) (n : Nat), (∃ ones, LengthRow i ones n) ↔ 3 ≤ n ∧ n ≤ 65535 ∧ i = lengthInstr n

/-- Bit order (20 R66): bit n of the stream is bit 7 - (n mod 8) of byte n div 8, and a field is written most significant
bit first. -/
def Obligations.StreamBitOrder : Prop :=
  (∀ (bytes : List Byte) (n : Nat), n < 8 * bytes.length →
    (bytesToBits bytes)[n]? = (bytes[n / 8]?).map fun b => b.getLsbD (7 - n % 8)) ∧
  (∀ k v j : Nat, j < k → (natToBits k v)[j]? = some (v.testBit (k - 1 - j)))

/-- Packing (00 R10, 42 R197, R198): a bit string becomes ceil8 of its length in bytes, and unpacking them gives the string
and fewer than eight zero bits. Unpacking bytes and packing them again gives the bytes. -/
def Obligations.PackingLosesNothing : Prop :=
  (∀ bs : Bits, (bitsToBytes bs).length = ceil8 bs.length ∧
    ∃ pad : Bits, pad.length < 8 ∧ (∀ x ∈ pad, x = false) ∧ bytesToBits (bitsToBytes bs) = bs ++ pad) ∧
  (∀ bytes : List Byte, bitsToBytes (bytesToBits bytes) = bytes)

/-- The accepted flags bytes (30 R93): the eight with type 1 and bit 4 clear, and of them 0x81 and 0xA1 act as 0xC1 and 0xE1
in every state and with every payload; any other byte is rejected and takes the fault BadFlags. -/
def Obligations.AcceptedFlagsBytes : Prop :=
  (∀ b : Byte, (∃ x, decodeFlags b = .ok x) ↔
    b = 0x01 ∨ b = 0x21 ∨ b = 0x41 ∨ b = 0x61 ∨ b = 0xC1 ∨ b = 0xE1 ∨ b = 0x81 ∨ b = 0xA1) ∧
  (∀ (b : Byte) (s : State) (payload : List Byte), (¬ ∃ x, decodeFlags b = .ok x) → s.dec.faulted = false →
    decodeFlags b = .error .badFlags ∧ ∃ t, exec (.decompress b payload) s = .next t ∧ FaultTaken .badFlags s t) ∧
  (∀ (s : State) (payload : List Byte), exec (.decompress 0x81 payload) s = exec (.decompress 0xC1 payload) s ∧
    exec (.decompress 0xA1 payload) s = exec (.decompress 0xE1 payload) s)

/-! ## Tokens (43 R228 to R237) -/

/-- LIT7 and LIT8 write their byte by WriteByte (43 R228, R229, R237): the byte at the cursor, the cursor one on, the validity
mark up to it, nothing else; with the cursor at 65535 they take the fault HistoryOverflow. -/
def Obligations.LiteralsWriteOneByte : Prop :=
  ∀ (s : State) (w : DecWork) (i : Instr) (b : Byte), s.dec.work = some w →
    ((∃ v : BitVec 7, i = .lit7 v ∧ b = v.setWidth 8) ∨ (∃ v : BitVec 7, i = .lit8 v ∧ b = 0x80 ||| v.setWidth 8)) →
    (s.dec.historyPtr.toNat < 65535 → ∃ t, exec i s = .next t ∧ Grown s t 1 (some w) ∧
      t.dec.hist.read s.dec.historyPtr.toNat = some b) ∧
    (65535 ≤ s.dec.historyPtr.toNat → ∃ t, exec i s = .next t ∧ FaultTaken .historyOverflow s t)

/-- An offset code gives the command its offset and nothing else changes; the length code comes next (43 R230 to R233,
30 R103, R104). -/
def Obligations.OffsetCodesSetTheOffset : Prop :=
  ∀ (s : State) (w : DecWork) (i : Instr) (d : Nat), s.dec.work = some w → OffsetRow i d →
    exec i s = .next { s with dec := { s.dec with work := some { w with off := d, phase := .length } } }

/-- A length code executes the match (43 R234, R235; 40 R144; 70 R333): with every source position in the valid window and
room for the length, the `n` bytes at the cursor are, for k below the offset, the byte at the wrapped source position, and
after that the byte the offset behind it; the transient registers hold the length, its one-bits and the last source; nothing
else changes. All fifteen rows. -/
def Obligations.LengthCodesCopyTheMatch : Prop :=
  ∀ (s : State) (w : DecWork) (i : Instr) (ones n : Nat), s.dec.Inv → s.dec.work = some w → LengthRow i ones n →
    1 ≤ w.off → w.off ≤ 65535 → s.dec.historyPtr.toNat + n ≤ 65535 →
    (∀ k, k < n → k < w.off → matchSource w.off s.dec.historyPtr.toNat k < s.dec.validHi.toNat) →
    ∃ t, exec i s = .next t ∧
      Grown s t n (some { w with
        mlen := n, ones := ones, phase := .token,
        src := BitVec.ofNat 16 (matchSource w.off s.dec.historyPtr.toNat (n - 1)) }) ∧
      ∀ k, k < n → t.dec.hist.read (s.dec.historyPtr.toNat + k) =
        if k < w.off then s.dec.hist.read (matchSource w.off s.dec.historyPtr.toNat k)
        else t.dec.hist.read (s.dec.historyPtr.toNat + k - w.off)

/-- The faults of a match in the order of 60 R284 (43 R235, R236): offset 0; offset 65536 or more; else, at the first byte
that cannot be copied, OffsetOutOfWindow where its source is not valid, HistoryOverflow where its source is valid and the
cursor is at 65535. -/
def Obligations.MatchFaultsInOrder : Prop :=
  ∀ (s : State) (w : DecWork) (i : Instr) (ones n : Nat), s.dec.Inv → s.dec.work = some w → LengthRow i ones n →
    (w.off = 0 → ∃ t, exec i s = .next t ∧ FaultTaken .offsetZero s t) ∧
    (65536 ≤ w.off → ∃ t, exec i s = .next t ∧ FaultTaken .offsetOutOfWindow s t) ∧
    (∀ k, 1 ≤ w.off → w.off ≤ 65535 → k < n →
      (∀ j, j < k → matchSource w.off s.dec.historyPtr.toNat j < max s.dec.validHi.toNat (s.dec.historyPtr.toNat + j) ∧
        s.dec.historyPtr.toNat + j < 65535) →
      (max s.dec.validHi.toNat (s.dec.historyPtr.toNat + k) ≤ matchSource w.off s.dec.historyPtr.toNat k →
        ∃ t, exec i s = .next t ∧ FaultTaken .offsetOutOfWindow s t) ∧
      (matchSource w.off s.dec.historyPtr.toNat k < max s.dec.validHi.toNat (s.dec.historyPtr.toNat + k) →
        65535 ≤ s.dec.historyPtr.toNat + k → ∃ t, exec i s = .next t ∧ FaultTaken .historyOverflow s t))

/-- The reserved length prefix (30 R110): fifteen one-bits are LEN_RESERVED whatever follows, which takes the fault
ReservedLengthCode; no token the compressor emits contains it. -/
def Obligations.ReservedLengthFaults : Prop :=
  (∀ rest : Bits, decodeLength (List.replicate 15 true ++ rest) = .ok (.lenReserved, 15)) ∧
  (∀ (s : State) (w : DecWork), s.dec.work = some w →
    ∃ t, exec .lenReserved s = .next t ∧ FaultTaken .reservedLengthCode s t) ∧
  (∀ t : Token, .lenReserved ∉ t.instrs)

/-- The accepted flags byte (43 R223 to R225): PACKET_FLUSHED zeroes cursor and validity mark, PACKET_AT_FRONT the cursor
only; then the start is latched and PACKET_COMPRESSED chooses the token loop or the raw append. Nothing else changes, no byte
of the history does. -/
def Obligations.FlagsByteRewinds : Prop :=
  ∀ (s : State) (w : DecWork) (f a c : Bool), s.dec.work = some w →
    exec (.flags f a c) s = .next { s with dec := { s.dec with
      historyPtr := if f || a then 0 else s.dec.historyPtr
      validHi := if f then 0 else s.dec.validHi
      work := some { w with
        start := if f || a then 0 else s.dec.historyPtr, phase := if c then .token else .raw, bitpos := 0 } } }

/-- The model's own stop (log 9): a row of the token stream or a flags byte executed with no DECOMPRESS in progress. No step
does it (StepNeverStops). -/
def Obligations.StreamRowsNeedACommand : Prop :=
  ∀ (s : State) (i : Instr), s.dec.work = none →
    ((∃ v, i = .lit7 v) ∨ (∃ v, i = .lit8 v) ∨ (∃ d, OffsetRow i d) ∨ (∃ ones n, LengthRow i ones n) ∨ i = .lenReserved ∨
      ∃ f a c, i = .flags f a c) →
    exec i s = .fault .outOfPlace

/-! ## DECOMPRESS (43 R220 to R240) -/

/-- BadFlags (43 R222, 60 R286): with the type not 1 or bit 4 set, no state is changed but the fault state, the code, the
view length, and the command is over. -/
def Obligations.BadFlagsChangeNothing : Prop :=
  ∀ (s : State) (fb : Byte) (payload : List Byte), s.dec.faulted = false →
    (fb &&& 0x0F ≠ 0x01 ∨ fb.getLsbD 4 = true) →
    exec (.decompress fb payload) s =
      .next { s with dec := { s.dec with faulted := true, faultCode := 1, viewLen := 0, work := none } }

/-- Refusal in the fault state (43 R221): DECOMPRESS changes no state, so dec_err stays 1 with the stored code and there is
no view; no instruction but DEC_RESET and DEC_LOAD_STATE leaves the fault state or changes the code (rst, which is no
instruction: FaultStateExits). -/
def Obligations.FaultStateRefuses : Prop :=
  ∀ (s : State) (fb : Byte) (payload : List Byte), s.dec.Inv → s.dec.faulted = true →
    exec (.decompress fb payload) s = .next s ∧ s.decErr = true ∧ s.decFaultCode ≠ 0 ∧ s.dec.output = none ∧
      s.dec.viewLen = 0 ∧
      ∀ (i : Instr) (t : State), exec i s = .next t → i ≠ .decReset → (∀ image, i ≠ .decLoadState image) →
        t.decErr = true ∧ t.decFaultCode = s.decFaultCode

/-- A raw chunk (43 R227): its bytes go into the history from the chunk's start on and are the view; where they would pass
position 65534, HistoryOverflow. -/
def Obligations.RawChunksAreAppended : Prop :=
  ∀ (s : State) (fb : Byte) (payload : List Byte), s.dec.Inv → s.dec.faulted = false → fb &&& 0x3F = 0x01 →
    (chunkStart (fb.getLsbD 7) (fb.getLsbD 6) s.dec + payload.length ≤ 65535 →
      ∃ t, exec (.decompress fb payload) s = .next t ∧ Decompressed (fb.getLsbD 7) (fb.getLsbD 6) s t payload) ∧
    (65535 < chunkStart (fb.getLsbD 7) (fb.getLsbD 6) s.dec + payload.length →
      ∃ t, exec (.decompress fb payload) s = .next t ∧ FaultTaken .historyOverflow s t)

/-- A compressed chunk (43 R226, R238; 42 R193): a payload that is the codes of a token list and at most seven further bits of
any value gives the plaintext the tokens expand to from the history below the chunk's start. -/
def Obligations.CompressedChunksAreReplayed : Prop :=
  ∀ (s : State) (fb : Byte) (payload : List Byte) (ts : List Token) (pad : Bits) (before out : List Byte),
    s.dec.Inv → s.dec.faulted = false → fb &&& 0x3F = 0x21 →
    bytesToBits payload = encodeTokens ts ++ pad → pad.length < 8 → (∀ t ∈ ts, t.wellFormed = true) →
    s.dec.hist.readRange 0 (chunkStart (fb.getLsbD 7) (fb.getLsbD 6) s.dec) = some before →
    replay ts before = some (before ++ out) → before.length + out.length ≤ 65535 →
    ∃ t, exec (.decompress fb payload) s = .next t ∧ Decompressed (fb.getLsbD 7) (fb.getLsbD 6) s t out

/-- A payload that ends inside a token, or holds the reserved length prefix (43 R226, R234; 60 R284): after the tokens before
it were executed, the fault is TruncatedToken or ReservedLengthCode. -/
def Obligations.MalformedTokensFault : Prop :=
  ∀ (s : State) (fb : Byte) (payload : List Byte) (ts : List Token) (tail : Bits) (before out : List Byte),
    s.dec.Inv → s.dec.faulted = false → fb &&& 0x3F = 0x21 →
    bytesToBits payload = encodeTokens ts ++ tail → 8 ≤ tail.length → (∀ t ∈ ts, t.wellFormed = true) →
    s.dec.hist.readRange 0 (chunkStart (fb.getLsbD 7) (fb.getLsbD 6) s.dec) = some before →
    replay ts before = some (before ++ out) → before.length + out.length ≤ 65535 →
    (decodeWhole tail = .error .truncatedToken →
      ∃ t, exec (.decompress fb payload) s = .next t ∧ FaultTaken .truncatedToken s t) ∧
    (decodeWhole tail = .error .reservedLengthCode →
      ∃ t, exec (.decompress fb payload) s = .next t ∧ FaultTaken .reservedLengthCode s t)

/-- DECOMPRESS always completes (70 R325, 60 R283), whatever the flags byte and the payload: with the invariant kept, the
command over, and nothing changed outside the decompressor. Without a fault the view goes from the chunk's start to the cursor
(43 R238, 10 R35) and is readable, and no byte of the history outside it was written. -/
def Obligations.DecompressCompletes : Prop :=
  ∀ (s : State) (fb : Byte) (payload : List Byte), s.dec.Inv → s.dec.work = none →
    ∃ t, exec (.decompress fb payload) s = .next t ∧ t = { s with dec := t.dec } ∧ t.dec.Inv ∧ t.dec.work = none ∧
      (t.dec.faulted = false →
        t.dec.viewStart.toNat = chunkStart (fb.getLsbD 7) (fb.getLsbD 6) s.dec ∧
        t.dec.viewStart.toNat + t.dec.viewLen.toNat = t.dec.historyPtr.toNat ∧
        (∃ view, t.dec.output = some view ∧ view.length = t.dec.viewLen.toNat) ∧
        ∀ x, x < t.dec.viewStart.toNat ∨ t.dec.historyPtr.toNat ≤ x → t.dec.hist.read x = s.dec.hist.read x)

/-- Position 65535 of neither history is written by a chunk (20 R60, R63; 43 R237). -/
def Obligations.LastPositionIsNeverWritten : Prop :=
  (∀ (s t : State) (maxOut : BitVec 16) (input : List Byte), s.enc.Inv → input.length ≤ 65535 →
    exec (.compress maxOut input) s = .next t → t.enc.hist.read 65535 = s.enc.hist.read 65535) ∧
  (∀ (s t : State) (fb : Byte) (payload : List Byte), s.dec.Inv →
    exec (.decompress fb payload) s = .next t → t.dec.faulted = false →
    t.dec.hist.read 65535 = s.dec.hist.read 65535)

/-! ## The match finder and COMPRESS (41, 42) -/

/-- A candidate is accepted exactly where it is below the position and the three bytes are equal (41 R163); then it is extended,
to a true match, whatever `HASH` and the table are (41 R165, R167): at least three bytes long, ending inside the chunk, equal
byte for byte, and as long as the chunk and the bytes allow. -/
def Obligations.FoundMatchesAreTrue : Prop :=
  ∀ (h : Memory) (q p fin : Nat), h.filled fin → p + 2 < fin → fin ≤ 65535 →
    (Qualifies h q p → accept h q p = some true ∧ ∃ L, extend h q p fin (fin - p) 3 = some L) ∧
    (¬ Qualifies h q p → accept h q p = some false) ∧
    (∀ L, accept h q p = some true → extend h q p fin (fin - p) 3 = some L →
      q < p ∧ 3 ≤ L ∧ p + L ≤ fin ∧ (∀ k, k < L → h.read (q + k) = h.read (p + k)) ∧
        (p + L < fin → h.read (q + L) ≠ h.read (p + L)))

/-- What a scan step does at the position `p` = base + ctr (42 R188). With three bytes of the chunk left (41 R161, R164; 42 R189,
R190): the entry of the hash of the three bytes at `p` is read before the position is inserted; a candidate not accepted gives
the literal at the position, an accepted one the match with the distance and the extended length, whose interior positions are
inserted. In the chunk tail, one or two bytes left (42 R192): the literal, with the table neither read nor written. -/
def Obligations.ScanEmitsLiteralOrMatch : Prop :=
  ∀ (H : HashFn) (e : Enc) (w : EncWork) (p : Nat), e.work = some w → p = w.base + w.ctr →
    (∀ a b c hv q, w.ctr + 3 ≤ w.input.length → e.hist.read p = some a → e.hist.read (p + 1) = some b →
      e.hist.read (p + 2) = some c → hv = (H a b c).toNat → q = (e.hash.read hv).toNat →
      (accept e.hist q p = some false →
        e.scanStep H = some { e with
          hash := e.hash.write hv (BitVec.ofNat 16 p)
          work := some { w with p := p, q := q, hv := hv, toks := w.toks ++ [.lit a], ctr := w.ctr + 1 } }) ∧
      (∀ L t, accept e.hist q p = some true → extend e.hist q p w.fin (w.fin - p) 3 = some L →
        insertInterior H e.hist w.fin (L - 1) (p + 1) (e.hash.write hv (BitVec.ofNat 16 p)) = some t →
        e.scanStep H = some { e with
          hash := t
          work := some { w with
            p := p, q := q, hv := hv, L := L, toks := w.toks ++ [.mtch (p - q) L], ctr := w.ctr + L } })) ∧
    (∀ b, w.ctr < w.input.length → w.input.length < w.ctr + 3 → e.hist.read p = some b →
      e.scanStep H = some { e with work := some { w with p := p, toks := w.toks ++ [.lit b], ctr := w.ctr + 1 } })

/-- InsertInterior (42 R191; 41 R161, R162, R166) completes where the history below the chunk's end is written; then an entry
holds the greatest of the inserted positions with its hash value, those of the `n` from `a` on that have three bytes of the
chunk left, and an entry that none of them has is unchanged. -/
def Obligations.InteriorInsertsMostRecentWins : Prop :=
  ∀ (H : HashFn) (h : Memory) (fin n a : Nat) (t : Table), Table.wf t → a + n ≤ 65536 →
    (h.filled fin → ∃ t', insertInterior H h fin n a t = some t') ∧
    ∀ t', insertInterior H h fin n a t = some t' →
      ∀ v, (∀ j, a ≤ j → j < a + n → j + 2 < fin → HashOf H h j v →
          (∀ k, j < k → k < a + n → k + 2 < fin → ¬ HashOf H h k v) → t'.read v = BitVec.ofNat 16 j) ∧
        ((∀ j, a ≤ j → j < a + n → j + 2 < fin → ¬ HashOf H h j v) → t'.read v = t.read v)

/-- The end of a scan, a step of the machine where no host action is accepted (42 R199 to R201; log 2): the offset is advanced;
where the compressed form exceeds min(len, max_out) the input is staged with PACKET_COMPRESSED clear, else the packed tokens
with it set; the reset flags are kept, and enc_done is raised. -/
def Obligations.ScanEndsCompressedOrRaw : Prop :=
  ∀ (s : State) (w : EncWork), (∀ a ∈ s.host, s.blocked a = true) → s.enc.work = some w → w.ctr = w.input.length →
    (min w.input.length w.maxOut.toNat < ceil8 (encodeTokens w.toks).length →
      step s = .next { s with
        enc := { s.enc with historyOffset := BitVec.ofNat 16 (w.base + w.input.length), opb := w.input,
                            bytesInOpb := BitVec.ofNat 16 w.input.length, flags := 0x01 ||| w.hold, work := none }
        encPort := { s.encPort with done := true } }) ∧
    (ceil8 (encodeTokens w.toks).length ≤ min w.input.length w.maxOut.toNat →
      step s = .next { s with
        enc := { s.enc with historyOffset := BitVec.ofNat 16 (w.base + w.input.length),
                            opb := bitsToBytes (encodeTokens w.toks),
                            bytesInOpb := BitVec.ofNat 16 (ceil8 (encodeTokens w.toks).length),
                            flags := 0x01 ||| w.hold ||| 0x20, work := none }
        encPort := { s.encPort with done := true } })

/-- COMPRESS never fails (42 R202) and leaves the state of 42 R203: the scan starts with the table cleared where the compressor
rewinds and with the old table where it does not, and the table it leaves is the table afterwards. The token list the scan
emits expands, from the history below the chunk's base, to exactly the chunk (42 R193), and is sent compressed where that fits
min(len, max_out), raw where it does not (42 R200, R201). -/
def Obligations.CompressCompletes : Prop :=
  ∀ (s : State) (maxOut : BitVec 16) (input : List Byte), s.enc.Inv → input ≠ [] → input.length ≤ 65535 →
    ∃ t toks before, exec (.compress maxOut input) s = .next t ∧ Stored input s t ∧ t.enc.Inv ∧
      (s.enc.rewinds input.length = true → ∀ v, (s.enc.resetPolicy input.length).hash.read v = 0) ∧
      (s.enc.rewinds input.length = false → (s.enc.resetPolicy input.length).hash = s.enc.hash) ∧
      (s.enc.begin maxOut input).hash = (s.enc.resetPolicy input.length).hash ∧
      s.enc.hist.readRange 0 (s.enc.baseOf input.length) = some before ∧
      s.enc.Scanned Config.hash maxOut input toks t.enc.hash ∧
      (∀ x ∈ toks, x.wellFormed = true) ∧ replay toks before = some (before ++ input) ∧
      (ceil8 (encodeTokens toks).length ≤ min input.length maxOut.toNat →
        t.enc.flags = 0x01 ||| s.enc.resetFlags input.length ||| 0x20 ∧ t.enc.output = assemble toks ∧
          t.encEncodedLength.toNat = ceil8 (encodeTokens toks).length) ∧
      (min input.length maxOut.toNat < ceil8 (encodeTokens toks).length →
        t.enc.flags = 0x01 ||| s.enc.resetFlags input.length ∧ t.enc.output = input ∧
          t.encEncodedLength.toNat = input.length)

/-- A zero-length COMPRESS (42 R182): flags 0x01 and an empty result; nothing else changes, a pending reset stays pending. -/
def Obligations.EmptyCompressIsANoOp : Prop :=
  ∀ (s : State) (maxOut : BitVec 16), ∃ t, exec (.compress maxOut []) s = .next t ∧
    t = { s with enc := { s.enc with flags := 0x01, bytesInOpb := 0 } } ∧
    t.enc.output = [] ∧ t.encFlags = 0x01 ∧ t.encEncodedLength = 0

/-- The closed enumeration of emitted flags (30 R92), with the boundary of 70 R332: PACKET_AT_FRONT exactly where the
compressor rewinds, that is with no room, a request pending or on the first chunk; PACKET_FLUSHED exactly on the first chunk
or with a flush pending; PACKET_COMPRESSED exactly where the code of the tokens the scan emits fits min(len, max_out); without
it the payload is the input, with it the packed tokens. -/
def Obligations.EmittedFlagsEnumerated : Prop :=
  ∀ (s : State) (maxOut : BitVec 16) (input : List Byte), s.enc.Inv → input.length ≤ 65535 →
    ∃ t, exec (.compress maxOut input) s = .next t ∧
      (t.encFlags = 0x01 ∨ t.encFlags = 0x21 ∨ t.encFlags = 0x41 ∨ t.encFlags = 0x61 ∨ t.encFlags = 0xC1 ∨
        t.encFlags = 0xE1) ∧
      (input = [] → t.encFlags = 0x01) ∧
      (input ≠ [] →
        (t.encFlags.getLsbD 6 = true ↔ 65536 ≤ s.enc.historyOffset.toNat + input.length ∨ s.enc.firstPkt = true ∨
          s.enc.flagsHold ≠ 0) ∧
        (t.encFlags.getLsbD 7 = true ↔ s.enc.firstPkt = true ∨ s.enc.flagsHold.getLsbD 7 = true) ∧
        (t.encFlags.getLsbD 6 = true → t.enc.historyOffset.toNat = input.length) ∧
        ∃ toks, s.enc.Scanned Config.hash maxOut input toks t.enc.hash ∧
          (t.encFlags.getLsbD 5 = true ↔ ceil8 (encodeTokens toks).length ≤ min input.length maxOut.toNat) ∧
          (t.encFlags.getLsbD 5 = false → t.enc.output = input) ∧
          (t.encFlags.getLsbD 5 = true → t.enc.output = assemble toks))

/-! ## Control commands (44) -/

/-- ENC_NOP, the reserved code 7 and DEC_NOP change no state (44 R260, 30 R122). -/
def Obligations.NoOpsChangeNothing : Prop :=
  ∀ s : State, exec .encNop s = .next s ∧ exec .encReserved7 s = .next s ∧ exec .decNop s = .next s

/-- ENC_RESET (44 R261, 10 R46): every register and table entry of the compressor at its reset value, nothing changed
outside the compressor; the same in effect as rst; and the next non-empty chunk carries PACKET_FLUSHED and
PACKET_AT_FRONT. -/
def Obligations.EncResetState : Prop :=
  ∀ s : State, ∃ t, exec .encReset s = .next t ∧ t = { s with enc := t.enc } ∧
    t.enc.historyOffset = 0 ∧ t.enc.firstPkt = true ∧ t.enc.flagsHold = 0x00 ∧ t.enc.flags = 0x00 ∧
    t.enc.bytesInOpb = 0 ∧ (∀ v, t.enc.hash.read v = 0) ∧ t.enc.work = none ∧
    (∀ u rest, s.host = .encRst :: rest → step s = .next u → u.enc = t.enc) ∧
    (∀ (maxOut : BitVec 16) (input : List Byte), input ≠ [] → input.length ≤ 65535 →
      ∃ u, exec (.compress maxOut input) t = .next u ∧ (u.encFlags = 0xC1 ∨ u.encFlags = 0xE1))

/-- DEC_RESET (44 R264, 10 R47): every register of the decompressor at its reset value, out of the fault state, nothing
changed outside the decompressor; the same in effect as rst. -/
def Obligations.DecResetState : Prop :=
  ∀ s : State, ∃ t, exec .decReset s = .next t ∧ t = { s with dec := t.dec } ∧
    t.dec.historyPtr = 0 ∧ t.dec.validHi = 0 ∧ t.dec.faulted = false ∧ t.dec.faultCode = 0 ∧ t.dec.viewStart = 0 ∧
    t.dec.viewLen = 0 ∧ t.dec.work = none ∧
    (∀ u rest, s.host = .decRst :: rest → step s = .next u → u.dec = t.dec)

/-- ENC_REQ_FRONT (44 R262): bit 6 of flagsHold is set and nothing else changes now; a second request changes nothing; the
next non-empty COMPRESS rewinds to position 0, clears the table and sets PACKET_AT_FRONT. -/
def Obligations.FrontRequestIsHeld : Prop :=
  ∀ s : State, s.enc.Inv → ∃ t, exec .encReqFront s = .next t ∧
    t = { s with enc := { s.enc with flagsHold := s.enc.flagsHold ||| 0x40 } } ∧ exec .encReqFront t = .next t ∧
    ∀ (maxOut : BitVec 16) (input : List Byte), input ≠ [] → input.length ≤ 65535 →
      ∃ u, exec (.compress maxOut input) t = .next u ∧ u.enc.historyOffset.toNat = input.length ∧
        u.encFlags.getLsbD 6 = true ∧ ∀ v, (t.enc.begin maxOut input).hash.read v = 0

/-- ENC_REQ_FLUSH (44 R263): bits 7 and 6 of flagsHold are set, absorbing a pending front request, and nothing else changes
now; a second request changes nothing; the next non-empty COMPRESS rewinds, clears the table and sets PACKET_AT_FRONT and
PACKET_FLUSHED. -/
def Obligations.FlushRequestIsHeld : Prop :=
  ∀ s : State, s.enc.Inv → ∃ t, exec .encReqFlush s = .next t ∧
    t = { s with enc := { s.enc with flagsHold := 0xC0 } } ∧ exec .encReqFlush t = .next t ∧
    ∀ (maxOut : BitVec 16) (input : List Byte), input ≠ [] → input.length ≤ 65535 →
      ∃ u, exec (.compress maxOut input) t = .next u ∧ u.enc.historyOffset.toNat = input.length ∧
        u.encFlags.getLsbD 7 = true ∧ u.encFlags.getLsbD 6 = true ∧ ∀ v, (t.enc.begin maxOut input).hash.read v = 0

/-- ENC_LOAD_HASH (44 R266, 30 R123): every entry of the table is the little-endian pair of the payload, in canonical form,
and nothing else changes. -/
def Obligations.LoadHashReplacesTheTable : Prop :=
  ∀ (s : State) (table : List Byte), table.length = 131072 →
    ∃ t, exec (.encLoadHash table) s = .next t ∧ t = { s with enc := { s.enc with hash := t.enc.hash } } ∧
      Table.wf t.enc.hash ∧
      ∀ i lo hi, i < 65536 → table[2 * i]? = some lo → table[2 * i + 1]? = some hi →
        (t.enc.hash.read i).toNat = lo.toNat + 256 * hi.toNat

/-- ENC_LOAD_STATE (44 R268, 30 R124): offset, first_pkt, flagsHold (a pending flush includes a front reset) and every
history byte from the payload; the table, the flags, the results and everything else unchanged. -/
def Obligations.EncLoadStateLoads : Prop :=
  ∀ (s : State) (image : List Byte) (b0 b1 b2 b3 : Byte), image.length = 65540 →
    image[0]? = some b0 → image[1]? = some b1 → image[2]? = some b2 → image[3]? = some b3 →
    ∃ t, exec (.encLoadState image) s = .next t ∧
      t = { s with enc := { s.enc with
        hist := t.enc.hist, historyOffset := t.enc.historyOffset, firstPkt := b2.getLsbD 0, flagsHold := t.enc.flagsHold } } ∧
      t.enc.historyOffset.toNat = b0.toNat + 256 * b1.toNat ∧
      (t.enc.flagsHold = if b3.getLsbD 7 then 0xC0 else if b3.getLsbD 6 then 0x40 else 0x00) ∧
      ∀ a, a < 65536 → t.enc.hist.read a = image[4 + a]?

/-- DEC_LOAD_STATE (44 R270, 30 R125): cursor, validity mark (not below the cursor) and every history byte from the payload, an
empty view at the cursor, out of the fault state; nothing else changes. -/
def Obligations.DecLoadStateLoads : Prop :=
  ∀ (s : State) (image : List Byte) (b0 b1 b2 b3 : Byte), image.length = 65540 →
    image[0]? = some b0 → image[1]? = some b1 → image[2]? = some b2 → image[3]? = some b3 →
    ∃ t, exec (.decLoadState image) s = .next t ∧
      t = { s with dec := { s.dec with
        hist := t.dec.hist, historyPtr := t.dec.historyPtr, validHi := t.dec.validHi, faulted := false, faultCode := 0,
        viewStart := t.dec.historyPtr, viewLen := 0 } } ∧
      t.dec.historyPtr.toNat = b0.toNat + 256 * b1.toNat ∧
      t.dec.validHi.toNat = max (b2.toNat + 256 * b3.toNat) (b0.toNat + 256 * b1.toNat) ∧
      ∀ a, a < 65536 → t.dec.hist.read a = image[4 + a]?

/-! ## Faults and reset (60, 70) -/

/-- Fault entry (60 R281, R286): whatever the state, the fault state with the cause's code on the port, no view, no command; the six causes
have the codes 1 to 6. -/
def Obligations.FaultEntrySetsTheCode : Prop :=
  ∀ (s : State) (c : Cause), FaultTaken c s { s with dec := s.dec.faultEntry c } ∧
    State.decErr { s with dec := s.dec.faultEntry c } = true ∧
    State.decFaultCode { s with dec := s.dec.faultEntry c } = c.code ∧
    Cause.badFlags.code = 1 ∧ Cause.truncatedToken.code = 2 ∧ Cause.reservedLengthCode.code = 3 ∧
    Cause.offsetZero.code = 4 ∧ Cause.offsetOutOfWindow.code = 5 ∧ Cause.historyOverflow.code = 6

/-- The exits of the fault state (60 R288): a step leaves it, or changes the code, only where the host asserts rst or has
DEC_RESET or DEC_LOAD_STATE executed; and each of the three leaves it with the code cleared. -/
def Obligations.FaultStateExits : Prop :=
  (∀ s t : State, s.Inv → s.dec.faulted = true → step s = .next t →
    (t.dec.faulted = true ∧ t.dec.faultCode = s.dec.faultCode) ∨
    ∃ pre a rest, s.host = pre ++ a :: rest ∧ (∀ x ∈ pre, s.blocked x = true) ∧ s.blocked a = false ∧
      (a = .decRst ∨ (∃ r, a = .decCmd r ∧ (r.cmd = 2 ∨ r.cmd = 3)) ∨
        ∃ r bs, a = .decData bs ∧ s.decPort.waiting = some r ∧ r.cmd = 3)) ∧
  (∀ s : State, ∃ t, exec .decReset s = .next t ∧ t.dec.faulted = false ∧ t.dec.faultCode = 0) ∧
  (∀ (s : State) (image : List Byte),
    ∃ t, exec (.decLoadState image) s = .next t ∧ t.dec.faulted = false ∧ t.dec.faultCode = 0) ∧
  (∀ (s : State) (pre rest : List HostAct), (∀ x ∈ pre, s.blocked x = true) → s.host = pre ++ .decRst :: rest →
    ∃ t, step s = .next t ∧ t.dec.faulted = false ∧ t.dec.faultCode = 0)

/-- rst (70 R310): at any time, during a command in progress or one that waits for its payload, and whatever actions that are
not accepted now (log 2) stand before it, it puts its engine in the reset state with the port idle, and changes nothing of the other
engine. -/
def Obligations.RstAbandonsTheCommand : Prop :=
  ∀ (s : State) (pre rest : List HostAct), (∀ a ∈ pre, s.blocked a = true) →
    (s.host = pre ++ .encRst :: rest → ∃ t, step s = .next t ∧
      t = { s with enc := t.enc, encPort := { done := false, waiting := none }, host := pre ++ rest } ∧ t.enc.work = none ∧
      t.enc.historyOffset = 0 ∧ t.enc.firstPkt = true ∧ t.enc.flagsHold = 0x00 ∧ t.enc.flags = 0x00 ∧
      t.enc.bytesInOpb = 0 ∧ ∀ v, t.enc.hash.read v = 0) ∧
    (s.host = pre ++ .decRst :: rest → ∃ t, step s = .next t ∧
      t = { s with dec := t.dec, decPort := { done := false, waiting := none }, host := pre ++ rest } ∧ t.dec.work = none ∧
      t.dec.historyPtr = 0 ∧ t.dec.validHi = 0 ∧ t.dec.faulted = false ∧ t.dec.faultCode = 0 ∧ t.dec.viewStart = 0 ∧
      t.dec.viewLen = 0)

/-- The state after reset (70 R311): the values the spec gives, both engines idle and ready, and it meets the invariant. -/
def Obligations.ResetMeetsTheInvariant : Prop :=
  State.reset.Inv ∧
  State.reset.enc.historyOffset = 0 ∧ State.reset.enc.firstPkt = true ∧ State.reset.enc.flagsHold = 0x00 ∧
  State.reset.enc.flags = 0x00 ∧ State.reset.enc.bytesInOpb = 0 ∧ (∀ v, State.reset.enc.hash.read v = 0) ∧
  State.reset.dec.historyPtr = 0 ∧ State.reset.dec.validHi = 0 ∧ State.reset.dec.faulted = false ∧
  State.reset.dec.faultCode = 0 ∧ State.reset.dec.viewStart = 0 ∧ State.reset.dec.viewLen = 0 ∧
  State.reset.encCmdReady = true ∧ State.reset.decCmdReady = true ∧ State.reset.encPort.done = false ∧
  State.reset.decPort.done = false ∧ State.reset.decErr = false

/-! ## The step (10 R45, 00 R16, 70 R322) -/

/-- A step runs the decoded instruction: a command that stands complete at a port that is ready, behind only actions that are
not accepted now (log 2); and, where no action is accepted, the row at the cursor of a DECOMPRESS in progress, with the cursor moved past it. The step
adds the done output of the engine. -/
def Obligations.StepRunsTheDecodedInstruction : Prop :=
  (∀ (s : State) (r : EncReq) (pre rest : List HostAct) (i : Instr) (n : Nat), s.host = pre ++ .encCmd r :: rest →
    (∀ a ∈ pre, s.blocked a = true) → s.encCmdReady = true → decode (.encCmd r) = .ok (i, n) →
    step s = settleOutcome .enc (exec i { s with host := pre ++ rest })) ∧
  (∀ (s : State) (r : DecReq) (pre rest : List HostAct) (i : Instr) (n : Nat), s.host = pre ++ .decCmd r :: rest →
    (∀ a ∈ pre, s.blocked a = true) → s.decCmdReady = true → decode (.decCmd r) = .ok (i, n) →
    step s = settleOutcome .dec (exec i { s with host := pre ++ rest })) ∧
  (∀ (s : State) (w : DecWork) (i : Instr) (n : Nat), (∀ a ∈ s.host, s.blocked a = true) → s.enc.work = none →
    s.dec.work = some w →
    (w.phase = .flags ∧ decode (.flagsByte w.flags) = .ok (i, n)) ∨
    (w.phase = .token ∧ 8 ≤ w.bitsLeft ∧ decode (.token w.bits) = .ok (i, n)) ∨
    (w.phase = .length ∧ decode (.length w.bits) = .ok (i, n)) →
    step s = settleOutcome .dec (exec i { s with dec := { s.dec with work := some { w with bitpos := w.bitpos + n } } }))

/-- The payload stream (70 R322; the order of arrivals is the model's, log 2), on each port: a command whose payload is short
waits with done low and changes nothing else; while a command waits or executes, a second one is not accepted, and the step is
what it is without it; further bytes are the waiting command's, and complete it or leave it waiting; bytes that no command
waits for are not accepted: they are dropped, or wait while their engine executes. -/
def Obligations.ShortPayloadsWait : Prop :=
  (∀ (s : State) (r : EncReq) (rest : List HostAct),
    (s.host = .encCmd r :: rest → s.encCmdReady = true → r.data.length < r.need →
      step s = .next { s with host := rest, encPort := { done := false, waiting := some r } }) ∧
    (∀ t, s.host = .encCmd r :: rest → s.encCmdReady = false → step { s with host := rest } = .next t →
      step s = .next { t with host := .encCmd r :: t.host }) ∧
    (∀ bs, s.host = .encData bs :: rest → s.enc.work = none → s.encPort.waiting = some r →
      r.data.length + bs.length < r.need →
      step s = .next { s with
        host := rest, encPort := { done := false, waiting := some { r with data := r.data ++ bs } } }) ∧
    (∀ bs, s.host = .encData bs :: rest → s.enc.work = none → s.encPort.waiting = some r →
      r.need ≤ r.data.length + bs.length →
      step s = settleOutcome .enc (exec (EncReq.instr { r with data := (r.data ++ bs).take r.need })
        { s with host := rest, encPort := { s.encPort with waiting := none } })) ∧
    (∀ bs, s.host = .encData bs :: rest → s.enc.work = none → s.encPort.waiting = none →
      step s = .next { s with host := rest }) ∧
    (∀ bs t, s.host = .encData bs :: rest → s.enc.work ≠ none → step { s with host := rest } = .next t →
      step s = .next { t with host := .encData bs :: t.host })) ∧
  (∀ (s : State) (r : DecReq) (rest : List HostAct),
    (s.host = .decCmd r :: rest → s.decCmdReady = true → r.data.length < r.need →
      step s = .next { s with host := rest, decPort := { done := false, waiting := some r } }) ∧
    (∀ t, s.host = .decCmd r :: rest → s.decCmdReady = false → step { s with host := rest } = .next t →
      step s = .next { t with host := .decCmd r :: t.host }) ∧
    (∀ bs, s.host = .decData bs :: rest → s.dec.work = none → s.decPort.waiting = some r →
      r.data.length + bs.length < r.need →
      step s = .next { s with
        host := rest, decPort := { done := false, waiting := some { r with data := r.data ++ bs } } }) ∧
    (∀ bs, s.host = .decData bs :: rest → s.dec.work = none → s.decPort.waiting = some r →
      r.need ≤ r.data.length + bs.length →
      step s = settleOutcome .dec (exec (DecReq.instr { r with data := (r.data ++ bs).take r.need })
        { s with host := rest, decPort := { s.decPort with waiting := none } })) ∧
    (∀ bs, s.host = .decData bs :: rest → s.dec.work = none → s.decPort.waiting = none →
      step s = .next { s with host := rest }) ∧
    (∀ bs t, s.host = .decData bs :: rest → s.dec.work ≠ none → step { s with host := rest } = .next t →
      step s = .next { t with host := .decData bs :: t.host }))

/-- Both granularities of 00 R16 agree: the finer steps of a command in progress reach the state the command reaches as one
step, with done raised. -/
def Obligations.GranularitiesAgree : Prop :=
  (∀ (s : State) (fb : Byte) (payload : List Byte), s.Inv → s.enc.work = none → s.dec.work = none →
    s.dec.faulted = false → s.host = [] →
    ∃ n t, exec (.decompress fb payload) s = .next t ∧
      steps n { s with dec := s.dec.begin fb payload } = .next { t with decPort := { t.decPort with done := true } }) ∧
  (∀ (s : State) (maxOut : BitVec 16) (input : List Byte), s.Inv → s.enc.work = none → s.dec.work = none → s.host = [] →
    input ≠ [] → input.length ≤ 65535 →
    ∃ n t, exec (.compress maxOut input) s = .next t ∧
      steps n { s with enc := s.enc.begin maxOut input } = .next { t with encPort := { t.encPort with done := true } })

/-! ## The invariant (10 R48, R49) -/

/-- Every step keeps the invariant: both histories and the table in canonical form; flagsHold legal; ENC.opb within OPB_CAP
(20 R62) and holding the staged result; the history below the
offset and below the validity mark holding values; the cursor not above the mark; the view and the fault code consistent; a
COMPRESS in progress replaying the part of its chunk consumed so far. -/
def Obligations.StepKeepsTheInvariant : Prop :=
  ∀ s t : State, s.Inv → step s = .next t → t.Inv

/-- From a state that meets the invariant a step always has a next state: no read meets a history byte that holds no value
(10 R48), the compressor never fails (42 R202), every fault of the decompressor is taken (60 R286). -/
def Obligations.StepNeverStops : Prop :=
  ∀ s : State, s.Inv → ∃ t, step s = .next t

/-- Every well-formed command keeps the invariant at the command boundary (10 R49). -/
def Obligations.CommandsKeepTheInvariant : Prop :=
  ∀ (i : Instr) (s : State), s.Inv → s.enc.work = none → s.dec.work = none → i.wellFormed = true →
    (engineOf i = .enc ∨ i = .decNop ∨ (∃ fb payload, i = .decompress fb payload) ∨ i = .decReset ∨
      ∃ image, i = .decLoadState image) →
    ∃ t, exec i s = .next t ∧ t.Inv ∧ t.enc.work = none ∧ t.dec.work = none

/-! ## The pair of engines (10 R20, 43 R239, 70 R330, R331) -/

/-- The engines share no state (10 R20): an instruction of one changes nothing of the other, nor of the ports, and its outcome
on its own engine depends on that engine alone. -/
def Obligations.EnginesAreIndependent : Prop :=
  ∀ (i : Instr) (s s' : State),
    (engineOf i = .enc → s.enc = s'.enc → ∀ t, exec i s = .next t →
      t = { s with enc := t.enc } ∧ ∃ t', exec i s' = .next t' ∧ t' = { s' with enc := t.enc }) ∧
    (engineOf i = .dec → s.dec = s'.dec → ∀ t, exec i s = .next t →
      t = { s with dec := t.dec } ∧ ∃ t', exec i s' = .next t' ∧ t' = { s' with dec := t.dec })

/-- One chunk through the pair (43 R239): from a synced pair the decompressor does not fault and returns exactly the input,
and the pair mirrors afterwards; for the empty chunk, if it did before. -/
def Obligations.OneChunkRoundTrip : Prop :=
  ∀ (s r : State) (maxOut : BitVec 16) (input : List Byte), s.enc.Inv → r.dec.Inv → Synced s.enc r.dec →
    input.length ≤ 65535 →
    ∃ t u, exchange maxOut input s r = some (t, u, input) ∧ Synced t.enc u.dec ∧ t.enc.Inv ∧ u.dec.Inv ∧
      (input ≠ [] ∨ Mirror s.enc r.dec → Mirror t.enc u.dec)

/-- The same for every `HASH` and every table content (41 R167, 42 R193): what COMPRESS emits with any hash function decodes
to the input. -/
def Obligations.RoundTripForEveryHash : Prop :=
  ∀ (H : HashFn) (e : Enc) (d : Dec) (maxOut : BitVec 16) (input : List Byte), e.Inv → d.Inv → Synced e d →
    input ≠ [] → input.length ≤ 65535 →
    ∃ e' d', e.compress H maxOut input = some e' ∧ d.decompress e'.flags e'.output = .ok d' ∧
      d'.output = some input ∧ Mirror e' d'

/-- The round trip of a session (70 R330): whatever chunks, bounds and commands between them, from a synced pair no DECOMPRESS
faults, the views are the chunks, and the pair mirrors after every non-empty chunk, so at the end wherever it did at the
start. -/
def Obligations.SessionRoundTrip : Prop :=
  ∀ (acts : List SessionAct) (s r : State), s.enc.Inv → r.dec.Inv → Synced s.enc r.dec →
    (∀ a ∈ acts, a.wellFormed = true) →
    ∃ t u, session acts s r = some (t, u, chunksOf acts) ∧ Synced t.enc u.dec ∧
      (Mirror s.enc r.dec ∨ (∃ c ∈ chunksOf acts, c ≠ []) → Mirror t.enc u.dec)

/-- Flag symmetry (70 R331): the compressed and the raw form of a chunk leave the same decompressor, and the same view, the
input. -/
def Obligations.CompressedAndRawFormsAgree : Prop :=
  ∀ (s r : State) (maxOut : BitVec 16) (input : List Byte), s.enc.Inv → r.dec.Inv → Synced s.enc r.dec → input ≠ [] →
    input.length ≤ 65535 →
    ∃ t u, exec (.compress maxOut input) s = .next t ∧ exec (.decompress t.encFlags t.enc.output) r = .next u ∧
      exec (.decompress (t.encFlags &&& 0xDF) input) r = .next u ∧ u.dec.output = some input

/-! ## DECOMPRESS, its last step (43 R226, R238) -/

/-- The end of the token stream, a step of the machine where no host action is accepted (43 R226, R238; log 2): at a token boundary with fewer than eight bits left,
whatever their values, the view goes from the chunk's start to the cursor, the command is over, dec_done is raised, and nothing
else changes. -/
def Obligations.EndOfStreamPublishesTheView : Prop :=
  ∀ (s : State) (w : DecWork), (∀ a ∈ s.host, s.blocked a = true) → s.enc.work = none → s.dec.work = some w →
    w.phase = .token → w.bitsLeft < 8 →
    step s = .next { s with
      dec := { s.dec with viewStart := w.start, viewLen := s.dec.historyPtr - w.start, work := none }
      decPort := { s.decPort with done := true } }
end

