-- ==== Sys2Proof/Laws/Memory.lean ====
section
/-! SUPPORT. The laws of the memories: reads after writes, canonical forms kept, ranges, load images. -/

namespace Sys2Proof.Machine

/-! ## History buffers -/

@[simp] theorem Memory.read_nil (a : Nat) : Memory.read [] a = none := rfl

theorem Memory.read_write (m : Memory) (a : Nat) (b : Byte) (c : Nat) :
    (Memory.write m a b).read c = if c = a then some b else Memory.read m c := by
  induction m with
  | nil => simp [Memory.write, Memory.read, eq_comm]
  | cons x m ih =>
    obtain ⟨k, v⟩ := x
    simp only [Memory.write]
    split
    · simp [Memory.read, eq_comm]
    · split
      · subst_vars
        by_cases h : c = k <;> simp [Memory.read, h, eq_comm]
      · simp only [Memory.read, ih]
        by_cases h : c = a <;> grind

@[simp] theorem Memory.read_write_same (m : Memory) (a : Nat) (b : Byte) : (Memory.write m a b).read a = some b := by
  simp [Memory.read_write]

theorem Memory.read_write_other (m : Memory) (a : Nat) (b : Byte) {c : Nat} (h : c ≠ a) :
    (Memory.write m a b).read c = Memory.read m c := by
  simp [Memory.read_write, h]

theorem Memory.mem_write {m : Memory} {a : Nat} {b : Byte} {x : Host.Cell} (h : x ∈ Memory.write m a b) :
    x = (a, b) ∨ x ∈ m := by
  induction m with
  | nil => simpa [Memory.write] using h
  | cons y m ih =>
    simp only [Memory.write] at h
    split at h
    · simpa using h
    · split at h <;> simp only [List.mem_cons] at h ⊢ <;> tauto

/-- A write inside the buffer keeps the canonical form. -/
theorem Memory.write_wf {m : Memory} {a : Nat} (b : Byte) (ha : a < 65536) (h : Memory.wf m) :
    Memory.wf (Memory.write m a b) := by
  refine ⟨?_, fun x hx => ?_⟩
  · obtain ⟨h, -⟩ := h
    induction m with
    | nil => simp [Memory.write]
    | cons y m ih =>
      obtain ⟨k, v⟩ := y
      rw [List.pairwise_cons] at h
      simp only [Memory.write]
      split
      · refine List.pairwise_cons.2 ⟨fun z hz => ?_, List.pairwise_cons.2 h⟩
        rcases List.mem_cons.1 hz with rfl | hz
        · assumption
        · exact lt_trans ‹a < k› (h.1 z hz)
      · split
        · subst_vars; exact List.pairwise_cons.2 ⟨h.1, h.2⟩
        · refine List.pairwise_cons.2 ⟨fun z hz => ?_, ih h.2⟩
          rcases Memory.mem_write hz with rfl | hz
          · show k < a; omega
          · exact h.1 z hz
  · rcases Memory.mem_write hx with rfl | hx
    · exact ha
    · exact h.2 x hx

theorem Memory.nil_wf : Memory.wf [] := by simp [Memory.wf]

theorem Memory.read_writeRange (m : Memory) (base : Nat) (bs : List Byte) (a : Nat) :
    (Memory.writeRange m base bs).read a =
      if base ≤ a ∧ a < base + bs.length then bs[a - base]? else Memory.read m a := by
  induction bs generalizing m base with
  | nil =>
    simp [Memory.writeRange]
  | cons b bs ih =>
    rw [Memory.writeRange, ih, Memory.read_write]
    simp only [List.length_cons]
    by_cases h1 : base + 1 ≤ a ∧ a < base + 1 + bs.length
    · have h2 : base ≤ a ∧ a < base + (bs.length + 1) := by omega
      have h3 : a - base = (a - (base + 1)) + 1 := by omega
      rw [if_pos h1, if_pos h2, h3, List.getElem?_cons_succ]
    · rw [if_neg h1]
      by_cases h2 : a = base
      · subst h2; simp
      · have : ¬ (base ≤ a ∧ a < base + (bs.length + 1)) := by omega
        rw [if_neg h2, if_neg this]

theorem Memory.writeRange_wf {m : Memory} {base : Nat} {bs : List Byte} (hb : base + bs.length ≤ 65536)
    (h : Memory.wf m) : Memory.wf (Memory.writeRange m base bs) := by
  induction bs generalizing m base with
  | nil => exact h
  | cons b bs ih =>
    simp only [List.length_cons] at hb
    exact ih (by omega) (Memory.write_wf b (by omega) h)

theorem Memory.read_ofBytes (a : Nat) (bs : List Byte) (c : Nat) :
    (Memory.ofBytes a bs).read c = if a ≤ c then bs[c - a]? else none := by
  induction bs generalizing a with
  | nil => simp [Memory.ofBytes]
  | cons b bs ih =>
    simp only [Memory.ofBytes, Memory.read, ih]
    by_cases h : a = c
    · subst h; simp
    · by_cases h2 : a ≤ c
      · have h3 : c - a = (c - (a + 1)) + 1 := by omega
        simp [h, h2, h3, show a + 1 ≤ c by omega]
      · simp [h, h2, show ¬ a + 1 ≤ c by omega]

theorem Memory.mem_ofBytes {a : Nat} {bs : List Byte} {x : Host.Cell} (h : x ∈ Memory.ofBytes a bs) :
    a ≤ x.1 ∧ x.1 < a + bs.length := by
  induction bs generalizing a with
  | nil => simp [Memory.ofBytes] at h
  | cons b bs ih =>
    simp only [Memory.ofBytes, List.mem_cons] at h
    rcases h with rfl | h
    · simp
    · have := ih h; simp only [List.length_cons]; omega

theorem Memory.ofBytes_wf {a : Nat} {bs : List Byte} (h : a + bs.length ≤ 65536) : Memory.wf (Memory.ofBytes a bs) := by
  refine ⟨?_, fun x hx => ?_⟩
  · clear h
    induction bs generalizing a with
    | nil => simp [Memory.ofBytes]
    | cons b bs ih =>
      refine List.pairwise_cons.2 ⟨fun z hz => ?_, ih⟩
      have := Memory.mem_ofBytes hz
      show a < z.1
      omega
  · have := Memory.mem_ofBytes hx
    show x.1 < 65536
    omega

theorem Memory.mem_ofFn {f : Nat → Option Byte} {n a : Nat} {x : Host.Cell} (h : x ∈ Memory.ofFn f n a) :
    a ≤ x.1 ∧ x.1 < a + n := by
  induction n generalizing a with
  | zero => simp [Memory.ofFn] at h
  | succ n ih =>
    simp only [Memory.ofFn] at h
    split at h
    · rcases List.mem_cons.1 h with rfl | h
      · simp
      · have := ih h; omega
    · have := ih h; omega

/-- Free contents are in canonical form, whatever they are. -/
theorem Memory.ofFn_wf (f : Nat → Option Byte) {n a : Nat} (h : a + n ≤ 65536) : Memory.wf (Memory.ofFn f n a) := by
  refine ⟨?_, fun x hx => ?_⟩
  · clear h
    induction n generalizing a with
    | zero => simp [Memory.ofFn]
    | succ n ih =>
      simp only [Memory.ofFn]
      split
      · refine List.pairwise_cons.2 ⟨fun z hz => ?_, ih⟩
        have := Memory.mem_ofFn hz
        show a < z.1
        omega
      · exact ih
  · have := Memory.mem_ofFn hx
    show x.1 < 65536
    omega

/-- A range that reads, byte by byte. -/
theorem Memory.readRange_eq_some {m : Memory} {a n : Nat} {bs : List Byte} :
    m.readRange a n = some bs ↔ bs.length = n ∧ ∀ k, k < n → m.read (a + k) = bs[k]? := by
  induction n generalizing a bs with
  | zero => simp [Memory.readRange, List.length_eq_zero_iff, @eq_comm _ []]
  | succ n ih =>
    simp only [Memory.readRange]
    cases h : m.read a with
    | none =>
      simp only [reduceCtorEq, false_iff, not_and]
      intro hl hk
      have := hk 0 (by omega)
      rw [Nat.add_zero, h] at this
      rw [eq_comm, List.getElem?_eq_none_iff] at this
      omega
    | some b =>
      simp only [Option.map_eq_some_iff, ih]
      constructor
      · rintro ⟨bs, ⟨hl, hk⟩, rfl⟩
        refine ⟨by simp [hl], fun k hkn => ?_⟩
        cases k with
        | zero => simpa using h
        | succ k => simpa [Nat.add_assoc, Nat.add_comm 1] using hk k (by omega)
      · rintro ⟨hl, hk⟩
        cases bs with
        | nil => simp at hl
        | cons c bs =>
          refine ⟨bs, ⟨by simpa using hl, fun k hkn => ?_⟩, ?_⟩
          · simpa [Nat.add_assoc, Nat.add_comm 1] using hk (k + 1) (by omega)
          · have := hk 0 (by omega)
            rw [Nat.add_zero, h] at this
            simp at this
            rw [this]

/-- A range of a filled buffer reads. -/
theorem Memory.readRange_of_filled {m : Memory} {n : Nat} (h : m.filled n) {a k : Nat} (hk : a + k ≤ n) :
    ∃ bs, m.readRange a k = some bs := by
  induction k generalizing a with
  | zero => exact ⟨[], rfl⟩
  | succ k ih =>
    obtain ⟨bs, hbs⟩ := ih (a := a + 1) (by omega)
    obtain ⟨b, hb⟩ := Option.isSome_iff_exists.1 (h a (by omega))
    exact ⟨b :: bs, by simp [Memory.readRange, hb, hbs]⟩

theorem Memory.filled_mono {m : Memory} {n k : Nat} (h : m.filled n) (hk : k ≤ n) : m.filled k :=
  fun a ha => h a (by omega)

theorem Memory.filled_zero (m : Memory) : m.filled 0 := fun _ h => absurd h (by omega)

/-- Writing the byte at the end of a filled part fills one more. -/
theorem Memory.filled_write {m : Memory} {n : Nat} (a : Nat) (b : Byte) (h : m.filled n) :
    (m.write a b).filled n := fun c hc => by
  rw [Memory.read_write]
  split
  · rfl
  · exact h c hc

theorem Memory.filled_write_succ {m : Memory} {n : Nat} (b : Byte) (h : m.filled n) :
    (m.write n b).filled (n + 1) := fun c hc => by
  rw [Memory.read_write]
  split
  · rfl
  · exact h c (by omega)

theorem Memory.read_none_of_lt {m : Memory} {a : Nat} (h : ∀ c ∈ m, a < c.1) : m.read a = none := by
  induction m with
  | nil => rfl
  | cons c m ih =>
    rw [Memory.read, if_neg (by have := h c (by simp); omega)]
    exact ih fun d hd => h d (by simp [hd])

/-- Memories in canonical form that read the same are the same data. -/
theorem Memory.ext_read {m m' : Memory} (h : m.Pairwise (fun c d => c.1 < d.1)) (h' : m'.Pairwise (fun c d => c.1 < d.1))
    (he : ∀ a, m.read a = m'.read a) : m = m' := by
  induction m generalizing m' with
  | nil =>
    cases m' with
    | nil => rfl
    | cons c m' => have := he c.1; simp [Memory.read] at this
  | cons c m ih =>
    cases m' with
    | nil => have := he c.1; simp [Memory.read] at this
    | cons c' m' =>
      rw [List.pairwise_cons] at h h'
      have hk : c.1 = c'.1 := by
        rcases Nat.lt_trichotomy c.1 c'.1 with hl | hl | hl
        · have := he c.1
          rw [Memory.read_none_of_lt (m := c' :: m') (fun x hx => by
            rw [List.mem_cons] at hx
            rcases hx with rfl | hx
            · exact hl
            · have := h'.1 x hx; omega)] at this
          simp [Memory.read] at this
        · exact hl
        · have := he c'.1
          rw [Memory.read_none_of_lt (m := c :: m) (fun x hx => by
            rw [List.mem_cons] at hx
            rcases hx with rfl | hx
            · exact hl
            · have := h.1 x hx; omega)] at this
          simp [Memory.read] at this
      have hv : c.2 = c'.2 := by
        have := he c.1
        simpa [Memory.read, hk] using this
      have hc : c = c' := Prod.ext hk hv
      subst hc
      rw [ih h.2 h'.2 fun a => ?_]
      by_cases ha : a = c.1
      · subst ha
        rw [Memory.read_none_of_lt h.1, Memory.read_none_of_lt h'.1]
      · have := he a
        rwa [Memory.read, Memory.read, if_neg (by omega), if_neg (by omega)] at this

/-! ## The hash table -/

@[simp] theorem Table.read_nil (i : Nat) : Table.read [] i = 0 := rfl

@[simp] theorem Table.read_cleared (i : Nat) : Table.read Table.cleared i = 0 := rfl

theorem Table.read_insert (t : Table) (i : Nat) (v : BitVec 16) (j : Nat) :
    (Table.insert t i v).read j = if j = i then v else Table.read t j := by
  induction t with
  | nil => simp [Table.insert, Table.read, eq_comm]
  | cons x t ih =>
    obtain ⟨k, u⟩ := x
    simp only [Table.insert]
    split
    · simp [Table.read, eq_comm]
    · split
      · subst_vars
        by_cases h : j = k <;> simp [Table.read, h, eq_comm]
      · simp only [Table.read, ih]
        by_cases h : j = i <;> grind

theorem Table.read_eq_zero {t : Table} {i : Nat} (h : ∀ x ∈ t, i < x.1) : t.read i = 0 := by
  induction t with
  | nil => rfl
  | cons x t ih =>
    obtain ⟨k, u⟩ := x
    have hk : i < k := h (k, u) (by simp)
    simp only [Table.read]
    rw [if_neg (by omega)]
    exact ih fun y hy => h y (by simp [hy])

theorem Table.read_erase {t : Table} (h : t.Pairwise (fun c d => c.1 < d.1)) (i j : Nat) :
    (Table.erase t i).read j = if j = i then 0 else Table.read t j := by
  induction t with
  | nil => simp [Table.erase]
  | cons x t ih =>
    obtain ⟨k, u⟩ := x
    rw [List.pairwise_cons] at h
    simp only [Table.erase]
    split
    · subst_vars
      by_cases hj : j = k
      · subst hj; simpa using Table.read_eq_zero h.1
      · simp [Table.read, hj, Ne.symm hj]
    · simp only [Table.read, ih h.2]
      by_cases hj : j = i <;> grind

/-- A read after a write of the table (41 R166). -/
theorem Table.read_write {t : Table} (h : Table.wf t) (i : Nat) (v : BitVec 16) (j : Nat) :
    (Table.write t i v).read j = if j = i then v else Table.read t j := by
  unfold Table.write
  split
  · subst_vars; exact Table.read_erase h.1 i j
  · exact Table.read_insert t i v j

theorem Table.mem_insert {t : Table} {i : Nat} {v : BitVec 16} {x : Nat × BitVec 16} (h : x ∈ Table.insert t i v) :
    x = (i, v) ∨ x ∈ t := by
  induction t with
  | nil => simpa [Table.insert] using h
  | cons y t ih =>
    simp only [Table.insert] at h
    split at h
    · simpa using h
    · split at h <;> simp only [List.mem_cons] at h ⊢ <;> tauto

theorem Table.mem_erase {t : Table} {i : Nat} {x : Nat × BitVec 16} (h : x ∈ Table.erase t i) : x ∈ t := by
  induction t with
  | nil => simp [Table.erase] at h
  | cons y t ih =>
    simp only [Table.erase] at h
    split at h <;> simp only [List.mem_cons] at h ⊢ <;> tauto

theorem Table.pairwise_insert {t : Table} (i : Nat) (v : BitVec 16) (h : t.Pairwise (fun c d => c.1 < d.1)) :
    (Table.insert t i v).Pairwise (fun c d => c.1 < d.1) := by
  induction t with
  | nil => simp [Table.insert]
  | cons y t ih =>
    obtain ⟨k, u⟩ := y
    rw [List.pairwise_cons] at h
    simp only [Table.insert]
    split
    · refine List.pairwise_cons.2 ⟨fun z hz => ?_, List.pairwise_cons.2 h⟩
      rcases List.mem_cons.1 hz with rfl | hz
      · assumption
      · exact lt_trans ‹i < k› (h.1 z hz)
    · split
      · subst_vars; exact List.pairwise_cons.2 ⟨h.1, h.2⟩
      · refine List.pairwise_cons.2 ⟨fun z hz => ?_, ih h.2⟩
        rcases Table.mem_insert hz with rfl | hz
        · show k < i; omega
        · exact h.1 z hz

theorem Table.pairwise_erase {t : Table} (i : Nat) (h : t.Pairwise (fun c d => c.1 < d.1)) :
    (Table.erase t i).Pairwise (fun c d => c.1 < d.1) := by
  induction t with
  | nil => simp [Table.erase]
  | cons y t ih =>
    rw [List.pairwise_cons] at h
    simp only [Table.erase]
    split
    · exact h.2
    · exact List.pairwise_cons.2 ⟨fun z hz => h.1 z (Table.mem_erase hz), ih h.2⟩

/-- A write of the table keeps its canonical form. -/
theorem Table.write_wf {t : Table} {i : Nat} (v : BitVec 16) (hi : i < 65536) (h : Table.wf t) :
    Table.wf (Table.write t i v) := by
  unfold Table.write
  split
  · exact ⟨Table.pairwise_erase i h.1, fun x hx => h.2 x (Table.mem_erase hx)⟩
  · refine ⟨Table.pairwise_insert i v h.1, fun x hx => ?_⟩
    rcases Table.mem_insert hx with rfl | hx
    · exact ⟨hi, by assumption⟩
    · exact h.2 x hx

theorem Table.cleared_wf : Table.wf Table.cleared := by simp [Table.wf, Table.cleared]

/-! ## Load images -/

theorem mem_hashImage {i : Nat} {bs : List Byte} {x : Nat × BitVec 16} (h : x ∈ hashImage i bs) :
    i ≤ x.1 ∧ 2 * (x.1 - i) + 1 < bs.length ∧ x.2 ≠ 0 := by
  induction i, bs using hashImage.induct with
  | case1 i lo hi rest hz ih =>
    simp only [hashImage, hz, if_true] at h
    have := ih h
    simp only [List.length_cons]
    refine ⟨by omega, by omega, this.2.2⟩
  | case2 i lo hi rest hz ih =>
    simp only [hashImage, hz, if_false, List.mem_cons] at h
    rcases h with rfl | h
    · exact ⟨le_rfl, by simp, hz⟩
    · have := ih h
      simp only [List.length_cons]
      refine ⟨by omega, by omega, this.2.2⟩
  | case3 i bs hbs => simp [hashImage] at h

/-- A loaded table is in canonical form (30 R123). -/
theorem hashImage_wf {i : Nat} {bs : List Byte} (h : 2 * i + bs.length ≤ 131072) : Table.wf (hashImage i bs) := by
  refine ⟨?_, fun x hx => ?_⟩
  · clear h
    induction i, bs using hashImage.induct with
    | case1 i lo hi rest hz ih => simpa only [hashImage, hz, if_true] using ih
    | case2 i lo hi rest hz ih =>
      simp only [hashImage, hz, if_false]
      refine List.pairwise_cons.2 ⟨fun z hz => ?_, ih⟩
      have := mem_hashImage hz
      show i < z.1
      omega
    | case3 i bs hbs => simp [hashImage]
  · have := mem_hashImage hx
    refine ⟨?_, this.2.2⟩
    show x.1 < 65536
    omega

theorem read_hashImage (i : Nat) (bs : List Byte) (j : Nat) (hij : i ≤ j) :
    (hashImage i bs).read j =
      if 2 * (j - i) + 1 < bs.length then le16 (bs.getD (2 * (j - i)) 0) (bs.getD (2 * (j - i) + 1) 0) else 0 := by
  induction i, bs using hashImage.induct with
  | case1 i lo hi rest hz ih =>
    simp only [hashImage, hz, if_true]
    by_cases h : i = j
    · subst h
      rw [Table.read_eq_zero fun x hx => by have := mem_hashImage hx; omega]
      simp [hz]
    · have e : 2 * (j - i) = 2 * (j - (i + 1)) + 2 := by omega
      rw [ih (by omega), e]
      simp [List.getD, show ∀ a b : Nat, a + 2 < b + 1 ↔ a + 1 < b from fun a b => by omega]
  | case2 i lo hi rest hz ih =>
    simp only [hashImage, hz, if_false, Table.read]
    by_cases h : i = j
    · subst h; simp
    · have e : 2 * (j - i) = 2 * (j - (i + 1)) + 2 := by omega
      rw [if_neg h, ih (by omega), e]
      simp [List.getD, show ∀ a b : Nat, a + 2 < b + 1 ↔ a + 1 < b from fun a b => by omega]
  | case3 bs i hbs =>
    have : ¬ 2 * (j - i) + 1 < bs.length := by
      rcases bs with _ | ⟨a, _ | ⟨b, l⟩⟩
      · simp
      · simp
      · exact absurd rfl (hbs a b l)
    simp only [hashImage]
    rw [if_neg this]
    rfl

end Sys2Proof.Machine
end

