-- ==== Sys2Proof/Laws/State.lean ====
section
/-! SUPPORT. One lemma per field per update of the state, true by unfolding the update once. -/

namespace Sys2Proof.Machine

/-! ## Dec.setWork -/

@[simp] theorem Dec.setWork_hist (f : DecWork → DecWork) (d : Dec) : (d.setWork f).hist = d.hist := rfl
@[simp] theorem Dec.setWork_historyPtr (f : DecWork → DecWork) (d : Dec) : (d.setWork f).historyPtr = d.historyPtr := rfl
@[simp] theorem Dec.setWork_validHi (f : DecWork → DecWork) (d : Dec) : (d.setWork f).validHi = d.validHi := rfl
@[simp] theorem Dec.setWork_faulted (f : DecWork → DecWork) (d : Dec) : (d.setWork f).faulted = d.faulted := rfl
@[simp] theorem Dec.setWork_faultCode (f : DecWork → DecWork) (d : Dec) : (d.setWork f).faultCode = d.faultCode := rfl
@[simp] theorem Dec.setWork_viewStart (f : DecWork → DecWork) (d : Dec) : (d.setWork f).viewStart = d.viewStart := rfl
@[simp] theorem Dec.setWork_viewLen (f : DecWork → DecWork) (d : Dec) : (d.setWork f).viewLen = d.viewLen := rfl
@[simp] theorem Dec.setWork_work (f : DecWork → DecWork) (d : Dec) : (d.setWork f).work = d.work.map f := rfl
@[simp] theorem Dec.setWork_freeCtr (f : DecWork → DecWork) (d : Dec) : (d.setWork f).freeCtr = d.freeCtr := rfl

/-! ## Dec.begin -/

@[simp] theorem Dec.begin_hist (b : Byte) (p : List Byte) (d : Dec) : (d.begin b p).hist = d.hist := rfl
@[simp] theorem Dec.begin_historyPtr (b : Byte) (p : List Byte) (d : Dec) : (d.begin b p).historyPtr = d.historyPtr := rfl
@[simp] theorem Dec.begin_validHi (b : Byte) (p : List Byte) (d : Dec) : (d.begin b p).validHi = d.validHi := rfl
@[simp] theorem Dec.begin_faulted (b : Byte) (p : List Byte) (d : Dec) : (d.begin b p).faulted = d.faulted := rfl
@[simp] theorem Dec.begin_faultCode (b : Byte) (p : List Byte) (d : Dec) : (d.begin b p).faultCode = d.faultCode := rfl
@[simp] theorem Dec.begin_viewStart (b : Byte) (p : List Byte) (d : Dec) : (d.begin b p).viewStart = d.viewStart := rfl
@[simp] theorem Dec.begin_viewLen (b : Byte) (p : List Byte) (d : Dec) : (d.begin b p).viewLen = d.viewLen := rfl
@[simp] theorem Dec.begin_freeCtr (b : Byte) (p : List Byte) (d : Dec) : (d.begin b p).freeCtr = d.freeCtr := rfl

/-! ## Dec.finish -/

@[simp] theorem Dec.finish_hist (w : DecWork) (d : Dec) : (d.finish w).hist = d.hist := rfl
@[simp] theorem Dec.finish_historyPtr (w : DecWork) (d : Dec) : (d.finish w).historyPtr = d.historyPtr := rfl
@[simp] theorem Dec.finish_validHi (w : DecWork) (d : Dec) : (d.finish w).validHi = d.validHi := rfl
@[simp] theorem Dec.finish_faulted (w : DecWork) (d : Dec) : (d.finish w).faulted = d.faulted := rfl
@[simp] theorem Dec.finish_faultCode (w : DecWork) (d : Dec) : (d.finish w).faultCode = d.faultCode := rfl
@[simp] theorem Dec.finish_viewStart (w : DecWork) (d : Dec) : (d.finish w).viewStart = w.start := rfl
@[simp] theorem Dec.finish_viewLen (w : DecWork) (d : Dec) : (d.finish w).viewLen = d.historyPtr - w.start := rfl
@[simp] theorem Dec.finish_work (w : DecWork) (d : Dec) : (d.finish w).work = none := rfl
@[simp] theorem Dec.finish_freeCtr (w : DecWork) (d : Dec) : (d.finish w).freeCtr = d.freeCtr := rfl

/-! ## Dec.forget -/

@[simp] theorem Dec.forget_faulted (d : Dec) : (d.forget).faulted = d.faulted := rfl
@[simp] theorem Dec.forget_faultCode (d : Dec) : (d.forget).faultCode = d.faultCode := rfl
@[simp] theorem Dec.forget_viewLen (d : Dec) : (d.forget).viewLen = d.viewLen := rfl
@[simp] theorem Dec.forget_work (d : Dec) : (d.forget).work = d.work := rfl
@[simp] theorem Dec.forget_freeCtr (d : Dec) : (d.forget).freeCtr = d.freeCtr + 3 := rfl

/-! ## Dec.applyFlags -/

@[simp] theorem Dec.applyFlags_hist (f a : Bool) (d : Dec) : (d.applyFlags f a).hist = d.hist := rfl
@[simp] theorem Dec.applyFlags_historyPtr (f a : Bool) (d : Dec) : (d.applyFlags f a).historyPtr = if f ∨ a then 0 else d.historyPtr := rfl
@[simp] theorem Dec.applyFlags_validHi (f a : Bool) (d : Dec) : (d.applyFlags f a).validHi = if f then 0 else d.validHi := rfl
@[simp] theorem Dec.applyFlags_faulted (f a : Bool) (d : Dec) : (d.applyFlags f a).faulted = d.faulted := rfl
@[simp] theorem Dec.applyFlags_faultCode (f a : Bool) (d : Dec) : (d.applyFlags f a).faultCode = d.faultCode := rfl
@[simp] theorem Dec.applyFlags_viewStart (f a : Bool) (d : Dec) : (d.applyFlags f a).viewStart = d.viewStart := rfl
@[simp] theorem Dec.applyFlags_viewLen (f a : Bool) (d : Dec) : (d.applyFlags f a).viewLen = d.viewLen := rfl
@[simp] theorem Dec.applyFlags_work (f a : Bool) (d : Dec) : (d.applyFlags f a).work = d.work := rfl
@[simp] theorem Dec.applyFlags_freeCtr (f a : Bool) (d : Dec) : (d.applyFlags f a).freeCtr = d.freeCtr := rfl

/-! ## Dec.toReset -/

@[simp] theorem Dec.toReset_hist (d : Dec) : (d.toReset).hist = [] := rfl
@[simp] theorem Dec.toReset_historyPtr (d : Dec) : (d.toReset).historyPtr = 0 := rfl
@[simp] theorem Dec.toReset_validHi (d : Dec) : (d.toReset).validHi = 0 := rfl
@[simp] theorem Dec.toReset_faulted (d : Dec) : (d.toReset).faulted = false := rfl
@[simp] theorem Dec.toReset_faultCode (d : Dec) : (d.toReset).faultCode = 0 := rfl
@[simp] theorem Dec.toReset_viewStart (d : Dec) : (d.toReset).viewStart = 0 := rfl
@[simp] theorem Dec.toReset_viewLen (d : Dec) : (d.toReset).viewLen = 0 := rfl
@[simp] theorem Dec.toReset_work (d : Dec) : (d.toReset).work = none := rfl
@[simp] theorem Dec.toReset_freeCtr (d : Dec) : (d.toReset).freeCtr = d.freeCtr := rfl

/-! ## Dec.loadState -/

@[simp] theorem Dec.loadState_hist (im : List Byte) (d : Dec) : (d.loadState im).hist = imageHist im := rfl
@[simp] theorem Dec.loadState_historyPtr (im : List Byte) (d : Dec) : (d.loadState im).historyPtr = imageField im 0 := rfl
@[simp] theorem Dec.loadState_validHi (im : List Byte) (d : Dec) : (d.loadState im).validHi = maxPos (imageField im 1) (imageField im 0) := rfl
@[simp] theorem Dec.loadState_faulted (im : List Byte) (d : Dec) : (d.loadState im).faulted = false := rfl
@[simp] theorem Dec.loadState_faultCode (im : List Byte) (d : Dec) : (d.loadState im).faultCode = 0 := rfl
@[simp] theorem Dec.loadState_viewStart (im : List Byte) (d : Dec) : (d.loadState im).viewStart = imageField im 0 := rfl
@[simp] theorem Dec.loadState_viewLen (im : List Byte) (d : Dec) : (d.loadState im).viewLen = 0 := rfl
@[simp] theorem Dec.loadState_work (im : List Byte) (d : Dec) : (d.loadState im).work = d.work := rfl
@[simp] theorem Dec.loadState_freeCtr (im : List Byte) (d : Dec) : (d.loadState im).freeCtr = d.freeCtr := rfl

/-! ## Dec.faultEntry -/

@[simp] theorem Dec.faultEntry_faulted (c : Cause) (d : Dec) : (d.faultEntry c).faulted = true := by
  unfold Dec.faultEntry; dsimp only; split <;> rfl
@[simp] theorem Dec.faultEntry_faultCode (c : Cause) (d : Dec) : (d.faultEntry c).faultCode = c.code := by
  unfold Dec.faultEntry; dsimp only; split <;> rfl
@[simp] theorem Dec.faultEntry_viewLen (c : Cause) (d : Dec) : (d.faultEntry c).viewLen = 0 := by
  unfold Dec.faultEntry; dsimp only; split <;> rfl
@[simp] theorem Dec.faultEntry_work (c : Cause) (d : Dec) : (d.faultEntry c).work = none := by
  unfold Dec.faultEntry; dsimp only; split <;> rfl

/-- BadFlags changes the status registers only (60 R287). -/
theorem Dec.faultEntry_badFlags (d : Dec) :
    d.faultEntry .badFlags = { d with faulted := true, faultCode := 1, viewLen := 0, work := none } := rfl

/-! ## Enc.writeHold -/

@[simp] theorem Enc.writeHold_hist (v : Byte) (e : Enc) : (e.writeHold v).hist = e.hist := rfl
@[simp] theorem Enc.writeHold_historyOffset (v : Byte) (e : Enc) : (e.writeHold v).historyOffset = e.historyOffset := rfl
@[simp] theorem Enc.writeHold_hash (v : Byte) (e : Enc) : (e.writeHold v).hash = e.hash := rfl
@[simp] theorem Enc.writeHold_flags (v : Byte) (e : Enc) : (e.writeHold v).flags = e.flags := rfl
@[simp] theorem Enc.writeHold_flagsHold (v : Byte) (e : Enc) : (e.writeHold v).flagsHold = v &&& holdMask := rfl
@[simp] theorem Enc.writeHold_firstPkt (v : Byte) (e : Enc) : (e.writeHold v).firstPkt = e.firstPkt := rfl
@[simp] theorem Enc.writeHold_opb (v : Byte) (e : Enc) : (e.writeHold v).opb = e.opb := rfl
@[simp] theorem Enc.writeHold_bytesInOpb (v : Byte) (e : Enc) : (e.writeHold v).bytesInOpb = e.bytesInOpb := rfl
@[simp] theorem Enc.writeHold_work (v : Byte) (e : Enc) : (e.writeHold v).work = e.work := rfl

/-! ## Enc.rewind -/

@[simp] theorem Enc.rewind_hist (e : Enc) : (e.rewind).hist = e.hist := rfl
@[simp] theorem Enc.rewind_historyOffset (e : Enc) : (e.rewind).historyOffset = 0 := rfl
@[simp] theorem Enc.rewind_hash (e : Enc) : (e.rewind).hash = Table.cleared := rfl
@[simp] theorem Enc.rewind_flags (e : Enc) : (e.rewind).flags = e.flags := rfl
@[simp] theorem Enc.rewind_flagsHold (e : Enc) : (e.rewind).flagsHold = e.flagsHold := rfl
@[simp] theorem Enc.rewind_firstPkt (e : Enc) : (e.rewind).firstPkt = e.firstPkt := rfl
@[simp] theorem Enc.rewind_opb (e : Enc) : (e.rewind).opb = e.opb := rfl
@[simp] theorem Enc.rewind_bytesInOpb (e : Enc) : (e.rewind).bytesInOpb = e.bytesInOpb := rfl
@[simp] theorem Enc.rewind_work (e : Enc) : (e.rewind).work = e.work := rfl

/-! ## Enc.fallback -/

@[simp] theorem Enc.fallback_hist (w : EncWork) (e : Enc) : (e.fallback w).hist = e.hist := rfl
@[simp] theorem Enc.fallback_historyOffset (w : EncWork) (e : Enc) : (e.fallback w).historyOffset = e.historyOffset := rfl
@[simp] theorem Enc.fallback_hash (w : EncWork) (e : Enc) : (e.fallback w).hash = e.hash := rfl
@[simp] theorem Enc.fallback_flags (w : EncWork) (e : Enc) : (e.fallback w).flags = rawFlags w.hold := rfl
@[simp] theorem Enc.fallback_flagsHold (w : EncWork) (e : Enc) : (e.fallback w).flagsHold = e.flagsHold := rfl
@[simp] theorem Enc.fallback_firstPkt (w : EncWork) (e : Enc) : (e.fallback w).firstPkt = e.firstPkt := rfl
@[simp] theorem Enc.fallback_opb (w : EncWork) (e : Enc) : (e.fallback w).opb = w.input := rfl
@[simp] theorem Enc.fallback_bytesInOpb (w : EncWork) (e : Enc) : (e.fallback w).bytesInOpb = BitVec.ofNat 16 w.input.length := rfl
@[simp] theorem Enc.fallback_work (w : EncWork) (e : Enc) : (e.fallback w).work = e.work := rfl

/-! ## Enc.emitCompressed -/

@[simp] theorem Enc.emitCompressed_hist (w : EncWork) (e : Enc) : (e.emitCompressed w).hist = e.hist := rfl
@[simp] theorem Enc.emitCompressed_historyOffset (w : EncWork) (e : Enc) : (e.emitCompressed w).historyOffset = e.historyOffset := rfl
@[simp] theorem Enc.emitCompressed_hash (w : EncWork) (e : Enc) : (e.emitCompressed w).hash = e.hash := rfl
@[simp] theorem Enc.emitCompressed_flags (w : EncWork) (e : Enc) : (e.emitCompressed w).flags = compressedFlags w.hold := rfl
@[simp] theorem Enc.emitCompressed_flagsHold (w : EncWork) (e : Enc) : (e.emitCompressed w).flagsHold = e.flagsHold := rfl
@[simp] theorem Enc.emitCompressed_firstPkt (w : EncWork) (e : Enc) : (e.emitCompressed w).firstPkt = e.firstPkt := rfl
@[simp] theorem Enc.emitCompressed_opb (w : EncWork) (e : Enc) : (e.emitCompressed w).opb = assemble w.toks := rfl
@[simp] theorem Enc.emitCompressed_bytesInOpb (w : EncWork) (e : Enc) : (e.emitCompressed w).bytesInOpb = BitVec.ofNat 16 (ceil8 w.nbits) := rfl
@[simp] theorem Enc.emitCompressed_work (w : EncWork) (e : Enc) : (e.emitCompressed w).work = e.work := rfl

/-! ## Enc.loadState -/

@[simp] theorem Enc.loadState_hist (im : List Byte) (e : Enc) : (e.loadState im).hist = imageHist im := rfl
@[simp] theorem Enc.loadState_historyOffset (im : List Byte) (e : Enc) : (e.loadState im).historyOffset = imageField im 0 := rfl
@[simp] theorem Enc.loadState_hash (im : List Byte) (e : Enc) : (e.loadState im).hash = e.hash := rfl
@[simp] theorem Enc.loadState_flags (im : List Byte) (e : Enc) : (e.loadState im).flags = e.flags := rfl
@[simp] theorem Enc.loadState_flagsHold (im : List Byte) (e : Enc) : (e.loadState im).flagsHold = loadedHold (im.getD 3 0) &&& holdMask := rfl
@[simp] theorem Enc.loadState_firstPkt (im : List Byte) (e : Enc) : (e.loadState im).firstPkt = (im.getD 2 0).getLsbD 0 := rfl
@[simp] theorem Enc.loadState_opb (im : List Byte) (e : Enc) : (e.loadState im).opb = e.opb := rfl
@[simp] theorem Enc.loadState_bytesInOpb (im : List Byte) (e : Enc) : (e.loadState im).bytesInOpb = e.bytesInOpb := rfl
@[simp] theorem Enc.loadState_work (im : List Byte) (e : Enc) : (e.loadState im).work = e.work := rfl

/-! ## EncWork.examine -/

@[simp] theorem EncWork.examine_p (w : EncWork) : w.examine.p = w.base + w.ctr := rfl
@[simp] theorem EncWork.examine_input (w : EncWork) : w.examine.input = w.input := rfl
@[simp] theorem EncWork.examine_maxOut (w : EncWork) : w.examine.maxOut = w.maxOut := rfl
@[simp] theorem EncWork.examine_base (w : EncWork) : w.examine.base = w.base := rfl
@[simp] theorem EncWork.examine_ctr (w : EncWork) : w.examine.ctr = w.ctr := rfl
@[simp] theorem EncWork.examine_hold (w : EncWork) : w.examine.hold = w.hold := rfl
@[simp] theorem EncWork.examine_toks (w : EncWork) : w.examine.toks = w.toks := rfl
@[simp] theorem EncWork.examine_q (w : EncWork) : w.examine.q = w.q := rfl
@[simp] theorem EncWork.examine_L (w : EncWork) : w.examine.L = w.L := rfl
@[simp] theorem EncWork.examine_hv (w : EncWork) : w.examine.hv = w.hv := rfl

/-! ## EncWork.emit -/

@[simp] theorem EncWork.emit_input (t : Token) (n : Nat) (w : EncWork) : (w.emit t n).input = w.input := rfl
@[simp] theorem EncWork.emit_maxOut (t : Token) (n : Nat) (w : EncWork) : (w.emit t n).maxOut = w.maxOut := rfl
@[simp] theorem EncWork.emit_base (t : Token) (n : Nat) (w : EncWork) : (w.emit t n).base = w.base := rfl
@[simp] theorem EncWork.emit_ctr (t : Token) (n : Nat) (w : EncWork) : (w.emit t n).ctr = w.ctr + n := rfl
@[simp] theorem EncWork.emit_hold (t : Token) (n : Nat) (w : EncWork) : (w.emit t n).hold = w.hold := rfl
@[simp] theorem EncWork.emit_toks (t : Token) (n : Nat) (w : EncWork) : (w.emit t n).toks = w.toks ++ [t] := rfl
@[simp] theorem EncWork.emit_p (t : Token) (n : Nat) (w : EncWork) : (w.emit t n).p = w.p := rfl
@[simp] theorem EncWork.emit_q (t : Token) (n : Nat) (w : EncWork) : (w.emit t n).q = w.q := rfl
@[simp] theorem EncWork.emit_L (t : Token) (n : Nat) (w : EncWork) : (w.emit t n).L = w.L := rfl
@[simp] theorem EncWork.emit_hv (t : Token) (n : Nat) (w : EncWork) : (w.emit t n).hv = w.hv := rfl

/-! ## DecWork.setOffset -/

@[simp] theorem DecWork.setOffset_payload (o : Nat) (w : DecWork) : (w.setOffset o).payload = w.payload := rfl
@[simp] theorem DecWork.setOffset_flags (o : Nat) (w : DecWork) : (w.setOffset o).flags = w.flags := rfl
@[simp] theorem DecWork.setOffset_phase (o : Nat) (w : DecWork) : (w.setOffset o).phase = .length := rfl
@[simp] theorem DecWork.setOffset_start (o : Nat) (w : DecWork) : (w.setOffset o).start = w.start := rfl
@[simp] theorem DecWork.setOffset_bitpos (o : Nat) (w : DecWork) : (w.setOffset o).bitpos = w.bitpos := rfl
@[simp] theorem DecWork.setOffset_off (o : Nat) (w : DecWork) : (w.setOffset o).off = o := rfl
@[simp] theorem DecWork.setOffset_mlen (o : Nat) (w : DecWork) : (w.setOffset o).mlen = w.mlen := rfl
@[simp] theorem DecWork.setOffset_src (o : Nat) (w : DecWork) : (w.setOffset o).src = w.src := rfl
@[simp] theorem DecWork.setOffset_ones (o : Nat) (w : DecWork) : (w.setOffset o).ones = w.ones := rfl

/-! ## DecWork.setLength -/

@[simp] theorem DecWork.setLength_payload (o l : Nat) (w : DecWork) : (w.setLength o l).payload = w.payload := rfl
@[simp] theorem DecWork.setLength_flags (o l : Nat) (w : DecWork) : (w.setLength o l).flags = w.flags := rfl
@[simp] theorem DecWork.setLength_phase (o l : Nat) (w : DecWork) : (w.setLength o l).phase = .token := rfl
@[simp] theorem DecWork.setLength_start (o l : Nat) (w : DecWork) : (w.setLength o l).start = w.start := rfl
@[simp] theorem DecWork.setLength_bitpos (o l : Nat) (w : DecWork) : (w.setLength o l).bitpos = w.bitpos := rfl
@[simp] theorem DecWork.setLength_off (o l : Nat) (w : DecWork) : (w.setLength o l).off = w.off := rfl
@[simp] theorem DecWork.setLength_mlen (o l : Nat) (w : DecWork) : (w.setLength o l).mlen = lengthValue o l := rfl
@[simp] theorem DecWork.setLength_src (o l : Nat) (w : DecWork) : (w.setLength o l).src = w.src := rfl
@[simp] theorem DecWork.setLength_ones (o l : Nat) (w : DecWork) : (w.setLength o l).ones = o := rfl

/-! ## Enc.resetPolicy, Enc.finish -/

theorem Enc.resetPolicy_historyOffset (n : Nat) (e : Enc) :
    (e.resetPolicy n).historyOffset = if e.chunkHold n ≠ 0 then 0 else e.historyOffset := by
  unfold Enc.resetPolicy; dsimp only; split <;> rfl
theorem Enc.resetPolicy_hash (n : Nat) (e : Enc) :
    (e.resetPolicy n).hash = if e.chunkHold n ≠ 0 then Table.cleared else e.hash := by
  unfold Enc.resetPolicy; dsimp only; split <;> rfl
@[simp] theorem Enc.resetPolicy_hist (n : Nat) (e : Enc) : (e.resetPolicy n).hist = e.hist := by
  unfold Enc.resetPolicy; dsimp only; split <;> rfl
@[simp] theorem Enc.resetPolicy_flags (n : Nat) (e : Enc) : (e.resetPolicy n).flags = e.flags := by
  unfold Enc.resetPolicy; dsimp only; split <;> rfl
@[simp] theorem Enc.resetPolicy_flagsHold (n : Nat) (e : Enc) : (e.resetPolicy n).flagsHold = 0 := by
  unfold Enc.resetPolicy; dsimp only; split <;> rfl
@[simp] theorem Enc.resetPolicy_firstPkt (n : Nat) (e : Enc) : (e.resetPolicy n).firstPkt = false := by
  unfold Enc.resetPolicy; dsimp only; split <;> rfl
@[simp] theorem Enc.resetPolicy_opb (n : Nat) (e : Enc) : (e.resetPolicy n).opb = e.opb := by
  unfold Enc.resetPolicy; dsimp only; split <;> rfl
@[simp] theorem Enc.resetPolicy_bytesInOpb (n : Nat) (e : Enc) : (e.resetPolicy n).bytesInOpb = e.bytesInOpb := by
  unfold Enc.resetPolicy; dsimp only; split <;> rfl
@[simp] theorem Enc.resetPolicy_work (n : Nat) (e : Enc) : (e.resetPolicy n).work = e.work := by
  unfold Enc.resetPolicy; dsimp only; split <;> rfl
@[simp] theorem Enc.finish_hist (w : EncWork) (e : Enc) : (e.finish w).hist = e.hist := by
  unfold Enc.finish; dsimp only; split <;> rfl
@[simp] theorem Enc.finish_historyOffset (w : EncWork) (e : Enc) : (e.finish w).historyOffset = BitVec.ofNat 16 w.fin := by
  unfold Enc.finish; dsimp only; split <;> rfl
@[simp] theorem Enc.finish_hash (w : EncWork) (e : Enc) : (e.finish w).hash = e.hash := by
  unfold Enc.finish; dsimp only; split <;> rfl
@[simp] theorem Enc.finish_flagsHold (w : EncWork) (e : Enc) : (e.finish w).flagsHold = e.flagsHold := by
  unfold Enc.finish; dsimp only; split <;> rfl
@[simp] theorem Enc.finish_firstPkt (w : EncWork) (e : Enc) : (e.finish w).firstPkt = e.firstPkt := by
  unfold Enc.finish; dsimp only; split <;> rfl
@[simp] theorem Enc.finish_work (w : EncWork) (e : Enc) : (e.finish w).work = none := by
  unfold Enc.finish; dsimp only; split <;> rfl

/-! ## The machine -/

@[simp] theorem State.settleEnc_enc (s : State) : s.settleEnc.enc = s.enc := rfl
@[simp] theorem State.settleDec_enc (s : State) : s.settleDec.enc = s.enc := rfl
@[simp] theorem State.settle_enc (g : Engine) (s : State) : (s.settle g).enc = s.enc := by cases g <;> rfl
@[simp] theorem State.settleEnc_dec (s : State) : s.settleEnc.dec = s.dec := rfl
@[simp] theorem State.settleDec_dec (s : State) : s.settleDec.dec = s.dec := rfl
@[simp] theorem State.settle_dec (g : Engine) (s : State) : (s.settle g).dec = s.dec := by cases g <;> rfl
@[simp] theorem State.settleEnc_host (s : State) : s.settleEnc.host = s.host := rfl
@[simp] theorem State.settleDec_host (s : State) : s.settleDec.host = s.host := rfl
@[simp] theorem State.settle_host (g : Engine) (s : State) : (s.settle g).host = s.host := by cases g <;> rfl
@[simp] theorem State.settleEnc_decPort (s : State) : s.settleEnc.decPort = s.decPort := rfl
@[simp] theorem State.settleDec_encPort (s : State) : s.settleDec.encPort = s.encPort := rfl
@[simp] theorem State.settle_encWaiting (g : Engine) (s : State) : (s.settle g).encPort.waiting = s.encPort.waiting := by
  cases g <;> rfl
@[simp] theorem State.settle_decWaiting (g : Engine) (s : State) : (s.settle g).decPort.waiting = s.decPort.waiting := by
  cases g <;> rfl
@[simp] theorem State.withDec_ok (s : State) (d : Dec) : s.withDec (.ok d) = .next { s with dec := d } := rfl
@[simp] theorem State.withDec_error (s : State) (f : Fault) : s.withDec (.error f) = .fault f := rfl
@[simp] theorem State.withEnc_some (s : State) (e : Enc) : s.withEnc (some e) = .next { s with enc := e } := rfl
@[simp] theorem State.withEnc_none (s : State) : s.withEnc none = .fault .unwrittenByte := rfl

/-- A decompressor operation that answers a next state changes the decompressor only. -/
theorem State.withDec_next {s t : State} {x : Except Fault Dec} (h : s.withDec x = .next t) :
    ∃ d, x = .ok d ∧ t = { s with dec := d } := by
  cases x with
  | ok d => exact ⟨d, rfl, by simpa using h.symm⟩
  | error f => simp at h

/-- A compressor operation that answers a next state changes the compressor only. -/
theorem State.withEnc_next {s t : State} {x : Option Enc} (h : s.withEnc x = .next t) :
    ∃ e, x = some e ∧ t = { s with enc := e } := by
  cases x with
  | some e => exact ⟨e, rfl, by simpa using h.symm⟩
  | none => simp at h

end Sys2Proof.Machine
end

