-- ==== Sys2Proof/Laws/Decoder.lean ====
section
/-! SUPPORT. What the decompressor's shared operations do: one lemma says everything an operation can do, and callers cite
it. -/

namespace Sys2Proof.Machine

@[simp] theorem maxPos_toNat (a b : Pos) : (maxPos a b).toNat = max a.toNat b.toNat := by
  unfold maxPos; split <;> omega

theorem Pos.succ_toNat {p : Pos} (h : p.toNat < 65535) : (p + 1).toNat = p.toNat + 1 := by
  rw [BitVec.toNat_add]; simp; omega

/-! ## WriteByte (43 R237) -/

/-- The state after a byte is written at the cursor. -/
def Dec.wrote (b : Byte) (d : Dec) : Dec :=
  { d with hist := d.hist.write d.historyPtr.toNat b, historyPtr := d.historyPtr + 1,
           validHi := maxPos d.validHi (d.historyPtr + 1) }

theorem Dec.writeByte_ok {b : Byte} {d : Dec} (h : d.historyPtr.toNat < 65535) : d.writeByte b = .ok (d.wrote b) := by
  unfold Dec.writeByte
  rw [if_neg (by simp; omega)]
  rfl

theorem Dec.writeByte_full {b : Byte} {d : Dec} (h : 65535 ≤ d.historyPtr.toNat) :
    d.writeByte b = .error (.raise .historyOverflow) := by
  unfold Dec.writeByte
  rw [if_pos (by simpa using h)]

theorem Dec.wrote_historyPtr {b : Byte} {d : Dec} (h : d.historyPtr.toNat < 65535) :
    (d.wrote b).historyPtr.toNat = d.historyPtr.toNat + 1 := Pos.succ_toNat h

theorem Dec.wrote_validHi {b : Byte} {d : Dec} (h : d.historyPtr.toNat < 65535) :
    (d.wrote b).validHi.toNat = max d.validHi.toNat (d.historyPtr.toNat + 1) := by
  unfold Dec.wrote; rw [maxPos_toNat, Pos.succ_toNat h]

theorem Dec.wrote_read {b : Byte} {d : Dec} (a : Nat) :
    (d.wrote b).hist.read a = if a = d.historyPtr.toNat then some b else d.hist.read a := Memory.read_write ..

/-- Writing a byte keeps the part of the history below the validity mark filled. -/
theorem Dec.wrote_filled {b : Byte} {d : Dec} (h : d.historyPtr.toNat < 65535)
    (hc : d.historyPtr.toNat ≤ d.validHi.toNat) (hf : d.hist.filled d.validHi.toNat) :
    (d.wrote b).hist.filled (d.wrote b).validHi.toNat := by
  intro a ha
  rw [Dec.wrote_validHi h] at ha
  rw [Dec.wrote_read]
  split
  · rfl
  · exact hf a (by omega)

theorem Dec.wrote_wf {b : Byte} {d : Dec} (h : Memory.wf d.hist) : Memory.wf (d.wrote b).hist :=
  Memory.write_wf b d.historyPtr.isLt h

/-! ## RawAppend (43 R227) -/

/-- What appending `n` bytes at the cursor does to everything but the bytes themselves. -/
structure Dec.Grew (d d' : Dec) (n : Nat) : Prop where
  ptr   : d'.historyPtr.toNat = d.historyPtr.toNat + n
  valid : d'.validHi.toNat = max d.validHi.toNat (d.historyPtr.toNat + n)
  fill  : d.hist.filled d.validHi.toNat → d'.hist.filled d'.validHi.toNat
  wf    : Memory.wf d.hist → Memory.wf d'.hist
  same  : ∀ a, a < d.historyPtr.toNat ∨ d.historyPtr.toNat + n ≤ a → d'.hist.read a = d.hist.read a
  rest  : { d' with hist := d.hist, historyPtr := d.historyPtr, validHi := d.validHi, work := d.work } = d

theorem Dec.Grew.zero {d : Dec} (hc : d.historyPtr.toNat ≤ d.validHi.toNat) : d.Grew d 0 :=
  ⟨rfl, by omega, id, id, fun _ _ => rfl, rfl⟩

theorem Dec.Grew.wrote {b : Byte} {d : Dec} (h : d.historyPtr.toNat < 65535)
    (hc : d.historyPtr.toNat ≤ d.validHi.toNat) : d.Grew (d.wrote b) 1 :=
  ⟨Dec.wrote_historyPtr h, Dec.wrote_validHi h, Dec.wrote_filled h hc, Dec.wrote_wf,
    fun a ha => by rw [Dec.wrote_read, if_neg (by omega)], rfl⟩

theorem Dec.Grew.cursor {d d' : Dec} {n : Nat} (h : d.Grew d' n) : d'.historyPtr.toNat ≤ d'.validHi.toNat := by
  rw [h.ptr, h.valid]; omega

theorem Dec.Grew.trans {d d' d'' : Dec} {m n : Nat} (h : d.Grew d' m) (h' : d'.Grew d'' n) : d.Grew d'' (m + n) where
  ptr := by rw [h'.ptr, h.ptr]; omega
  valid := by rw [h'.valid, h.ptr, h.valid]; omega
  fill := fun hf => h'.fill (h.fill hf)
  wf := fun hw => h'.wf (h.wf hw)
  same := fun a ha => by
    rw [h'.same a (by rw [h.ptr]; omega), h.same a (by omega)]
  rest := by
    have h1 := h.rest
    have h2 := h'.rest
    cases d; cases d'; cases d''; simp at h1 h2 ⊢; grind

/-- Changing the transient registers only. -/
theorem Dec.Grew.setWork {d : Dec} (f : DecWork → DecWork) (hc : d.historyPtr.toNat ≤ d.validHi.toNat) :
    d.Grew (d.setWork f) 0 :=
  ⟨rfl, by simp; omega, id, id, fun _ _ => rfl, rfl⟩

theorem Dec.rawAppend_ok {bs : List Byte} {d : Dec} (hc : d.historyPtr.toNat ≤ d.validHi.toNat)
    (h : d.historyPtr.toNat + bs.length ≤ 65535) :
    ∃ d', d.rawAppend bs = .ok d' ∧ d.Grew d' bs.length ∧ d'.work = d.work ∧
      ∀ k, k < bs.length → d'.hist.read (d.historyPtr.toNat + k) = bs[k]? := by
  induction bs generalizing d with
  | nil => exact ⟨d, rfl, Dec.Grew.zero hc, rfl, fun k hk => absurd hk (by simp)⟩
  | cons b bs ih =>
    simp only [List.length_cons] at h
    have hp : d.historyPtr.toNat < 65535 := by omega
    have hg := Dec.Grew.wrote (b := b) hp hc
    obtain ⟨d', he, hg', hw, hr⟩ := ih hg.cursor (by rw [hg.ptr]; omega)
    refine ⟨d', by rw [Dec.rawAppend, Dec.writeByte_ok hp]; exact he, ?_, hw, fun k hk => ?_⟩
    · rw [List.length_cons, Nat.add_comm]; exact hg.trans hg'
    · cases k with
      | zero =>
        rw [hg'.same _ (by rw [hg.ptr]; omega), Nat.add_zero, Dec.wrote_read, if_pos rfl]
        rfl
      | succ k =>
        have := hr k (by simpa using hk)
        rw [hg.ptr] at this
        rw [List.getElem?_cons_succ, ← this]
        congr 1
        omega

theorem Dec.rawAppend_overflow {bs : List Byte} {d : Dec} (h : 65535 < d.historyPtr.toNat + bs.length) :
    d.rawAppend bs = .error (.raise .historyOverflow) := by
  induction bs generalizing d with
  | nil => have := d.historyPtr.isLt; simp at h; omega
  | cons b bs ih =>
    simp only [List.length_cons] at h
    rw [Dec.rawAppend]
    by_cases hp : d.historyPtr.toNat < 65535
    · rw [Dec.writeByte_ok hp]
      exact ih (by rw [Dec.wrote_historyPtr hp]; omega)
    · rw [Dec.writeByte_full (by omega)]

/-! ## The match copy (43 R235, R236) -/

/-- The source position as a number (43 R235). -/
theorem Dec.source_toNat {off : Nat} {d : Dec} (h : off ≤ 65535) :
    (d.source off).toNat = (d.historyPtr.toNat + 65536 - off) % 65536 := by
  unfold Dec.source
  have := d.historyPtr.isLt
  rw [BitVec.toNat_sub, BitVec.toNat_ofNat]
  omega

theorem Dec.copyByte_ok {off : Nat} {b : Byte} {d : Dec} (hs : (d.source off).toNat < d.validHi.toNat)
    (hb : d.hist.read (d.source off).toNat = some b) (hp : d.historyPtr.toNat < 65535) :
    d.copyByte off = .ok ((d.setWork fun w => { w with src := d.source off }).wrote b) := by
  unfold Dec.copyByte
  dsimp only
  rw [if_neg (by omega), hb]
  exact Dec.writeByte_ok hp

theorem Dec.copyByte_outside {off : Nat} {d : Dec} (hs : d.validHi.toNat ≤ (d.source off).toNat) :
    d.copyByte off = .error (.raise .offsetOutOfWindow) := by
  unfold Dec.copyByte
  dsimp only
  rw [if_pos hs]

theorem Dec.copyByte_full {off : Nat} {d : Dec} (hs : (d.source off).toNat < d.validHi.toNat)
    (hf : d.hist.filled d.validHi.toNat) (hp : 65535 ≤ d.historyPtr.toNat) :
    d.copyByte off = .error (.raise .historyOverflow) := by
  obtain ⟨b, hb⟩ := Option.isSome_iff_exists.1 (hf _ hs)
  unfold Dec.copyByte
  dsimp only
  rw [if_neg (by omega), hb]
  exact Dec.writeByte_full hp

/-- The match copy where every source position is valid (43 R235, 70 R333): byte k is the history byte `off` behind the
cursor for `k < off`, and the copy's own byte `k - off` after that. -/
theorem Dec.copyBytes_ok {off n : Nat} {d : Dec} (h1 : 1 ≤ off) (h2 : off ≤ 65535)
    (hc : d.historyPtr.toNat ≤ d.validHi.toNat) (hf : d.hist.filled d.validHi.toNat)
    (hp : d.historyPtr.toNat + n ≤ 65535)
    (hs : ∀ k, k < n → k < off → (d.historyPtr.toNat + 65536 - off + k) % 65536 < d.validHi.toNat) :
    ∃ d', d.copyBytes off n = .ok d' ∧ d.Grew d' n ∧
      (∃ g : DecWork → Pos, d'.work = d.work.map fun w => { w with src := g w }) ∧
      ∀ k, k < n → d'.hist.read (d.historyPtr.toNat + k) =
        if k < off then d.hist.read ((d.historyPtr.toNat + 65536 - off + k) % 65536)
        else d'.hist.read (d.historyPtr.toNat + k - off) := by
  induction n generalizing d with
  | zero =>
    exact ⟨d, rfl, Dec.Grew.zero hc, ⟨fun w => w.src, by simp⟩, fun k hk => absurd hk (by omega)⟩
  | succ n ih =>
    have hlt := d.historyPtr.isLt
    have hsrc := Dec.source_toNat (d := d) h2
    have hv : (d.source off).toNat < d.validHi.toNat := by
      have := hs 0 (by omega) (by omega); rw [hsrc]; simpa using this
    obtain ⟨b, hb⟩ := Option.isSome_iff_exists.1 (hf _ hv)
    have hp1 : d.historyPtr.toNat < 65535 := by omega
    have hg : d.Grew ((d.setWork fun w => { w with src := d.source off }).wrote b) 1 := by
      have := (Dec.Grew.setWork (d := d) (fun w => { w with src := d.source off }) hc).trans
        (Dec.Grew.wrote (b := b) (d := d.setWork fun w => { w with src := d.source off }) hp1 hc)
      simpa using this
    have hread := Dec.wrote_read (b := b) (d := d.setWork fun w => { w with src := d.source off })
    obtain ⟨d', he, hg', ⟨g, hw⟩, hr⟩ := ih hg.cursor (hg.fill hf) (by rw [hg.ptr]; omega) (by
      intro k hk hko
      rw [hg.ptr, hg.valid]
      by_cases h : k + 1 < off
      · have := hs (k + 1) (by omega) h
        rw [show d.historyPtr.toNat + 1 + 65536 - off + k = d.historyPtr.toNat + 65536 - off + (k + 1) by omega]
        omega
      · rw [show d.historyPtr.toNat + 1 + 65536 - off + k = d.historyPtr.toNat + 65536 by omega]
        omega)
    rw [hg.ptr] at hr
    refine ⟨d', by rw [Dec.copyBytes, Dec.copyByte_ok hv hb hp1]; exact he, ?_,
      ⟨fun w => g { w with src := d.source off }, ?_⟩, fun k hk => ?_⟩
    · rw [Nat.add_comm]; exact hg.trans hg'
    · rw [hw]
      show Option.map _ (Option.map _ d.work) = _
      rw [Option.map_map]; rfl
    · cases k with
      | zero =>
        rw [hg'.same _ (by rw [hg.ptr]; omega), Nat.add_zero, hread, if_pos (by simp), if_pos (by omega), ← hb, hsrc]
        simp
      | succ k =>
        have := hr k (by omega)
        rw [show d.historyPtr.toNat + (k + 1) = d.historyPtr.toNat + 1 + k by omega, this]
        by_cases h : k + 1 < off
        · rw [if_pos (by omega), if_pos h, hread, Dec.setWork_historyPtr, if_neg (by omega), Dec.setWork_hist]
          congr 2
          omega
        · by_cases h' : k < off
          · have hk1 : k + 1 = off := by omega
            rw [if_pos h', if_neg h, hread, if_pos (by simp; omega)]
            rw [show d.historyPtr.toNat + 1 + k - off = d.historyPtr.toNat by omega,
              hg'.same _ (by rw [hg.ptr]; omega), hread, if_pos (by simp)]
          · rw [if_neg h', if_neg h]

/-- A match copy agrees with the replay of the match (42 R193): where the replay is defined from the history below the
cursor, the copy runs and leaves the replayed history. -/
theorem Dec.copyBytes_replay {off n : Nat} {d : Dec} {out out' : List Byte} (h2 : off ≤ 65535)
    (hc : d.historyPtr.toNat ≤ d.validHi.toNat) (hp : d.historyPtr.toNat + n ≤ 65535)
    (ho : d.hist.readRange 0 d.historyPtr.toNat = some out) (hr : replayMatch off n out = some out') :
    ∃ d', d.copyBytes off n = .ok d' ∧ d.Grew d' n ∧
      (∃ g : DecWork → Pos, d'.work = d.work.map fun w => { w with src := g w }) ∧
      d'.hist.readRange 0 d'.historyPtr.toNat = some out' := by
  induction n generalizing d out with
  | zero =>
    simp only [replayMatch, Option.some.injEq] at hr
    subst hr
    exact ⟨d, rfl, Dec.Grew.zero hc, ⟨fun w => w.src, by simp⟩, ho⟩
  | succ n ih =>
    have hlt := d.historyPtr.isLt
    obtain ⟨hl, hk⟩ := Memory.readRange_eq_some.1 ho
    simp only [replayMatch] at hr
    split at hr
    · simp at hr
    rename_i hoff
    rw [not_or, Nat.not_lt] at hoff
    split at hr
    · rename_i b hb
      have hsrc := Dec.source_toNat (d := d) h2
      have hsrc' : (d.source off).toNat = d.historyPtr.toNat - off := by rw [hsrc]; omega
      have hp1 : d.historyPtr.toNat < 65535 := by omega
      have hb' : d.hist.read (d.source off).toNat = some b := by
        have := hk (d.historyPtr.toNat - off) (by omega)
        rw [hsrc', ← hb, hl, ← this, Nat.zero_add]
      have hv : (d.source off).toNat < d.validHi.toNat := by omega
      have hg : d.Grew ((d.setWork fun w => { w with src := d.source off }).wrote b) 1 := by
        have := (Dec.Grew.setWork (d := d) (fun w => { w with src := d.source off }) hc).trans
          (Dec.Grew.wrote (b := b) (d := d.setWork fun w => { w with src := d.source off }) hp1 hc)
        simpa using this
      have hread := Dec.wrote_read (b := b) (d := d.setWork fun w => { w with src := d.source off })
      have ho' : ((d.setWork fun w => { w with src := d.source off }).wrote b).hist.readRange 0
          ((d.setWork fun w => { w with src := d.source off }).wrote b).historyPtr.toNat = some (out ++ [b]) := by
        rw [hg.ptr]
        refine Memory.readRange_eq_some.2 ⟨by simp [hl], fun k hkn => ?_⟩
        rw [hread, Nat.zero_add, Dec.setWork_historyPtr, Dec.setWork_hist]
        by_cases he : k = d.historyPtr.toNat
        · rw [if_pos he, he, ← hl]; simp
        · rw [if_neg he, List.getElem?_append_left (by omega)]
          have := hk k (by omega)
          rwa [Nat.zero_add] at this
      obtain ⟨d', he, hg', ⟨g, hw⟩, hr'⟩ := ih hg.cursor (by rw [hg.ptr]; omega) ho' hr
      refine ⟨d', by rw [Dec.copyBytes, Dec.copyByte_ok hv hb' hp1]; exact he, ?_,
        ⟨fun w => g { w with src := d.source off }, ?_⟩, hr'⟩
      · rw [Nat.add_comm]; exact hg.trans hg'
      · rw [hw]
        show Option.map _ (Option.map _ d.work) = _
        rw [Option.map_map]; rfl
    · simp at hr

end Sys2Proof.Machine
end

