-- ==== Sys2Proof/Laws/Bits.lean ====
section
/-! SUPPORT. The laws of bit strings (spec 00 R10): lengths, numbers and their bits, bytes and their bits, padding, and the
value field of a code. -/

namespace Sys2Proof

@[simp] theorem natToBits_length (k v : Nat) : (natToBits k v).length = k := by
  induction k with
  | zero => rfl
  | succ k ih => simp [natToBits, ih]

theorem bitsToNat_lt (bs : Bits) : bitsToNat bs < 2 ^ bs.length := by
  induction bs with
  | nil => simp [bitsToNat]
  | cons b bs ih =>
    have hb : b.toNat ≤ 1 := Bool.toNat_le b
    have : b.toNat * 2 ^ bs.length ≤ 1 * 2 ^ bs.length := Nat.mul_le_mul_right _ hb
    simp only [bitsToNat, List.length_cons, pow_succ]
    omega

/-- The number of the k bits of a number is the number modulo 2^k. -/
@[simp] theorem bitsToNat_natToBits (k v : Nat) : bitsToNat (natToBits k v) = v % 2 ^ k := by
  induction k with
  | zero => simp [natToBits, bitsToNat, Nat.mod_one]
  | succ k ih =>
    rw [natToBits, bitsToNat, ih, natToBits_length, Nat.mod_pow_succ, Nat.toNat_testBit]
    ring

theorem testBit_bitsToNat_cons (b : Bool) (bs : Bits) : (bitsToNat (b :: bs)).testBit bs.length = b := by
  rw [bitsToNat, Nat.add_comm]
  have h := bitsToNat_lt bs
  cases b
  · simp [Nat.testBit_lt_two_pow h]
  · rw [Bool.toNat_true, Nat.one_mul, Nat.add_comm, Nat.testBit_two_pow_add_eq, Nat.testBit_lt_two_pow h]; rfl

theorem natToBits_mod (k v : Nat) : natToBits k (v % 2 ^ k) = natToBits k v := by
  suffices h : ∀ j, j ≤ k → natToBits j (v % 2 ^ k) = natToBits j v from h k le_rfl
  intro j hj
  induction j with
  | zero => rfl
  | succ j ih => rw [natToBits, natToBits, ih (by omega), Nat.testBit_mod_two_pow]; simp [show j < k by omega]

/-- The bits of the number of a bit string are the bit string. -/
@[simp] theorem natToBits_bitsToNat (bs : Bits) : natToBits bs.length (bitsToNat bs) = bs := by
  induction bs with
  | nil => rfl
  | cons b bs ih =>
    rw [List.length_cons, natToBits, testBit_bitsToNat_cons]
    congr 1
    rw [← natToBits_mod, bitsToNat, Nat.add_comm, Nat.add_mul_mod_self_right, Nat.mod_eq_of_lt (bitsToNat_lt bs), ih]

@[simp] theorem bytesToBits_length (bs : List Byte) : (bytesToBits bs).length = 8 * bs.length := by
  induction bs with
  | nil => rfl
  | cons b bs ih => simp [bytesToBits, ih]; omega

theorem bytesToBits_append (as bs : List Byte) : bytesToBits (as ++ bs) = bytesToBits as ++ bytesToBits bs := by
  induction as with
  | nil => rfl
  | cons a as ih => simp [bytesToBits, ih]

/-- The bits of a padded byte are the bits it was made from, completed with zero bits. -/
theorem natToBits_padByte (bs : Bits) : natToBits 8 (padByte bs).toNat = (bs ++ List.replicate 8 false).take 8 := by
  rw [padByte, BitVec.toNat_ofNat, natToBits_mod]
  have h : ((bs ++ List.replicate 8 false).take 8).length = 8 := by simp
  conv_rhs => rw [← natToBits_bitsToNat ((bs ++ List.replicate 8 false).take 8), h]

/-- `bits_to_bytes` is the inverse of `bytes_to_bits` up to the padding of the last byte with zero bits (00 R10): the zero
bits appended are `(-|s|) mod 8`. -/
theorem bytesToBits_bitsToBytes (bs : Bits) :
    bytesToBits (bitsToBytes bs) = bs ++ List.replicate ((8 - bs.length % 8) % 8) false := by
  induction bs using bitsToBytes.induct with
  | case1 => rfl
  | case2 b7 b6 b5 b4 b3 b2 b1 b0 rest ih =>
    rw [bitsToBytes, bytesToBits, natToBits_padByte, ih]
    simp only [List.length_cons, List.cons_append, List.nil_append, List.take_succ_cons, List.take_zero]
    congr 10
    omega
  | case3 short h0 h8 =>
    rw [bitsToBytes, bytesToBits, natToBits_padByte, bytesToBits, List.append_nil]
    · rcases short with _ | ⟨a, _ | ⟨b, _ | ⟨c, _ | ⟨d, _ | ⟨e, _ | ⟨f, _ | ⟨g, _ | ⟨h, l⟩⟩⟩⟩⟩⟩⟩⟩
      · exact absurd rfl h0
      all_goals first | rfl | exact absurd rfl (h8 _ _ _ _ _ _ _ _ _)
    · exact h0
    · exact h8

theorem bitsToBytes_length (bs : Bits) : (bitsToBytes bs).length = ceil8 bs.length := by
  have h := congrArg List.length (bytesToBits_bitsToBytes bs)
  simp only [bytesToBits_length, List.length_append, List.length_replicate] at h
  unfold ceil8
  omega

/-- The value field of a code, written and read back, with anything after it. -/
theorem field_natToBits (k : Nat) (mk : BitVec k → Instr) (pre v : Nat) (rest : Bits) :
    field k mk pre (natToBits k v ++ rest) = .ok (mk (BitVec.ofNat k v), pre + k) := by
  have h : (natToBits k v ++ rest).take k = natToBits k v := by
    rw [List.take_append_of_le_length (by simp), List.take_of_length_le (by simp)]
  rw [field, if_pos (by simp), h, bitsToNat_natToBits]
  congr 3
  apply BitVec.eq_of_toNat_eq
  simp

/-- A value field that reads is the bits of the value, and the code ends with it. -/
theorem field_eq_ok {k : Nat} {mk : BitVec k → Instr} {pre : Nat} {bits : Bits} {i : Instr} {n : Nat}
    (h : field k mk pre bits = .ok (i, n)) :
    ∃ v, i = mk v ∧ n = pre + k ∧ k ≤ bits.length ∧ bits.take k = natToBits k v.toNat := by
  unfold field at h
  split at h
  · rename_i hk
    simp only [Except.ok.injEq, Prod.mk.injEq] at h
    refine ⟨_, h.1.symm, h.2.symm, hk, ?_⟩
    rw [BitVec.toNat_ofNat, natToBits_mod]
    have hl : (bits.take k).length = k := by simp [hk]
    conv_lhs => rw [← natToBits_bitsToNat (bits.take k), hl]
  · simp at h

/-- A field that does not read rejects as `truncatedToken`. -/
theorem field_eq_error {k : Nat} {mk : BitVec k → Instr} {pre : Nat} {bits : Bits} {r : Reject}
    (h : field k mk pre bits = .error r) : r = .truncatedToken ∧ bits.length < k := by
  unfold field at h
  split at h
  · simp at h
  · simp only [Except.error.injEq] at h
    exact ⟨h.symm, by omega⟩

/-- A run of one-bits and a zero bit lead to the length class (43 R234). -/
theorem decodeLengthFrom_ones (ones n : Nat) (r : Bits) (h : ones + n < 15) :
    decodeLengthFrom ones (List.replicate n true ++ false :: r) = lengthClass (ones + n) r := by
  induction n generalizing ones with
  | zero => rfl
  | succ n ih =>
    rw [List.replicate_succ, List.cons_append, decodeLengthFrom, if_neg (by omega), ih _ (by omega)]
    congr 1
    omega

end Sys2Proof
end

