-- ==== Sys2Proof/Laws/PerInstr.lean ====
section
/-! SUPPORT. Families of statements about every instruction as syntax, one lemma per constructor. -/

namespace Sys2Proof.Laws.Width

/-- The bits an instruction has in the token stream number the width the opcode table gives its row (spec 30 R112); a
command and the flags byte have none there and 2, 3 or 8 on their ports. -/
def Statement (i : Instr) : Prop := i.bits.length = i.width ∨ (i.bits = [] ∧ i.width ∈ [2, 3, 8])

theorem lit7 (v : BitVec 7) : Statement (.lit7 v) := .inl (by simp [Instr.bits, Instr.width])
theorem lit8 (v : BitVec 7) : Statement (.lit8 v) := .inl (by simp [Instr.bits, Instr.width])
theorem matchO6 (o : BitVec 6) : Statement (.matchO6 o) := .inl (by simp [Instr.bits, Instr.width])
theorem matchO8 (o : BitVec 8) : Statement (.matchO8 o) := .inl (by simp [Instr.bits, Instr.width])
theorem matchO11 (o : BitVec 11) : Statement (.matchO11 o) := .inl (by simp [Instr.bits, Instr.width])
theorem matchO16 (o : BitVec 16) : Statement (.matchO16 o) := .inl (by simp [Instr.bits, Instr.width])
theorem lenL3 : Statement (.lenL3) := .inl (by simp [Instr.bits, Instr.width, lengthBits])
theorem lenL4 (l : BitVec 2) : Statement (.lenL4 l) := .inl (by simp [Instr.bits, Instr.width, lengthBits])
theorem lenL8 (l : BitVec 3) : Statement (.lenL8 l) := .inl (by simp [Instr.bits, Instr.width, lengthBits])
theorem lenL16 (l : BitVec 4) : Statement (.lenL16 l) := .inl (by simp [Instr.bits, Instr.width, lengthBits])
theorem lenL32 (l : BitVec 5) : Statement (.lenL32 l) := .inl (by simp [Instr.bits, Instr.width, lengthBits])
theorem lenL64 (l : BitVec 6) : Statement (.lenL64 l) := .inl (by simp [Instr.bits, Instr.width, lengthBits])
theorem lenL128 (l : BitVec 7) : Statement (.lenL128 l) := .inl (by simp [Instr.bits, Instr.width, lengthBits])
theorem lenL256 (l : BitVec 8) : Statement (.lenL256 l) := .inl (by simp [Instr.bits, Instr.width, lengthBits])
theorem lenL512 (l : BitVec 9) : Statement (.lenL512 l) := .inl (by simp [Instr.bits, Instr.width, lengthBits])
theorem lenL1024 (l : BitVec 10) : Statement (.lenL1024 l) := .inl (by simp [Instr.bits, Instr.width, lengthBits])
theorem lenL2048 (l : BitVec 11) : Statement (.lenL2048 l) := .inl (by simp [Instr.bits, Instr.width, lengthBits])
theorem lenL4096 (l : BitVec 12) : Statement (.lenL4096 l) := .inl (by simp [Instr.bits, Instr.width, lengthBits])
theorem lenL8192 (l : BitVec 13) : Statement (.lenL8192 l) := .inl (by simp [Instr.bits, Instr.width, lengthBits])
theorem lenL16384 (l : BitVec 14) : Statement (.lenL16384 l) := .inl (by simp [Instr.bits, Instr.width, lengthBits])
theorem lenL32768 (l : BitVec 15) : Statement (.lenL32768 l) := .inl (by simp [Instr.bits, Instr.width, lengthBits])
theorem lenReserved : Statement (.lenReserved) := .inl (by simp [Instr.bits, Instr.width])
theorem flags (f a c : Bool) : Statement (.flags f a c) := .inr ⟨rfl, by simp [Instr.width]⟩
theorem encNop : Statement (.encNop) := .inr ⟨rfl, by decide⟩
theorem compress (maxOut : BitVec 16) (input : List Byte) : Statement (.compress maxOut input) := .inr ⟨rfl, by simp [Instr.width]⟩
theorem encReset : Statement (.encReset) := .inr ⟨rfl, by decide⟩
theorem encReqFront : Statement (.encReqFront) := .inr ⟨rfl, by decide⟩
theorem encReqFlush : Statement (.encReqFlush) := .inr ⟨rfl, by decide⟩
theorem encLoadHash (table : List Byte) : Statement (.encLoadHash table) := .inr ⟨rfl, by simp [Instr.width]⟩
theorem encLoadState (image : List Byte) : Statement (.encLoadState image) := .inr ⟨rfl, by simp [Instr.width]⟩
theorem encReserved7 : Statement (.encReserved7) := .inr ⟨rfl, by decide⟩
theorem decNop : Statement (.decNop) := .inr ⟨rfl, by decide⟩
theorem decompress (flagsByte : Byte) (payload : List Byte) : Statement (.decompress flagsByte payload) := .inr ⟨rfl, by simp [Instr.width]⟩
theorem decReset : Statement (.decReset) := .inr ⟨rfl, by decide⟩
theorem decLoadState (image : List Byte) : Statement (.decLoadState image) := .inr ⟨rfl, by simp [Instr.width]⟩

end Sys2Proof.Laws.Width
end

