-- ==== Sys2Proof/Laws/Stream.lean ====
section
/-! SUPPORT. The token stream's codes, written and read back with anything after them (spec 30 R105, R109, R111). -/

namespace Sys2Proof

theorem field_bits {k : Nat} (mk : BitVec k → Instr) (pre : Nat) (v : BitVec k) (rest : Bits) :
    field k mk pre (natToBits k v.toNat ++ rest) = .ok (mk v, pre + k) := by
  rw [field_natToBits, BitVec.ofNat_toNat, BitVec.setWidth_eq]

/-- A literal or an offset code at a token boundary (30 R111). -/
theorem decodeToken_bits {i : Instr} (h : i.literal?.isSome ∨ i.offset?.isSome) (rest : Bits) :
    decodeToken (i.bits ++ rest) = .ok (i, i.width) := by
  cases i <;> simp [Instr.literal?, Instr.offset?] at h <;>
    simp only [Instr.bits, List.cons_append, List.nil_append, decodeToken, field_bits, Instr.width]

/-- A length code of at most fourteen one-bits leads to its class (43 R234). -/
theorem decodeLength_code {ones : Nat} (k l : Nat) (rest : Bits) (h : ones < 15) :
    decodeLength (lengthBits ones k l ++ rest) = lengthClass ones (natToBits k l ++ rest) := by
  rw [decodeLength, lengthBits, List.append_assoc, List.cons_append, decodeLengthFrom_ones _ _ _ (by omega), Nat.zero_add]

/-- A length code (30 R109). -/
theorem decodeLength_bits {i : Instr} (h : i.lengthCode?.isSome = true) (rest : Bits) :
    decodeLength (i.bits ++ rest) = .ok (i, i.width) := by
  cases i
  case lenL3 => exact decodeLength_code 0 0 rest (by omega)
  case lenL4 l => exact (decodeLength_code 2 l.toNat rest (by omega)).trans (field_bits .lenL4 2 l rest)
  case lenL8 l => exact (decodeLength_code 3 l.toNat rest (by omega)).trans (field_bits .lenL8 3 l rest)
  case lenL16 l => exact (decodeLength_code 4 l.toNat rest (by omega)).trans (field_bits .lenL16 4 l rest)
  case lenL32 l => exact (decodeLength_code 5 l.toNat rest (by omega)).trans (field_bits .lenL32 5 l rest)
  case lenL64 l => exact (decodeLength_code 6 l.toNat rest (by omega)).trans (field_bits .lenL64 6 l rest)
  case lenL128 l => exact (decodeLength_code 7 l.toNat rest (by omega)).trans (field_bits .lenL128 7 l rest)
  case lenL256 l => exact (decodeLength_code 8 l.toNat rest (by omega)).trans (field_bits .lenL256 8 l rest)
  case lenL512 l => exact (decodeLength_code 9 l.toNat rest (by omega)).trans (field_bits .lenL512 9 l rest)
  case lenL1024 l => exact (decodeLength_code 10 l.toNat rest (by omega)).trans (field_bits .lenL1024 10 l rest)
  case lenL2048 l => exact (decodeLength_code 11 l.toNat rest (by omega)).trans (field_bits .lenL2048 11 l rest)
  case lenL4096 l => exact (decodeLength_code 12 l.toNat rest (by omega)).trans (field_bits .lenL4096 12 l rest)
  case lenL8192 l => exact (decodeLength_code 13 l.toNat rest (by omega)).trans (field_bits .lenL8192 13 l rest)
  case lenL16384 l => exact (decodeLength_code 14 l.toNat rest (by omega)).trans (field_bits .lenL16384 14 l rest)
  case lenL32768 l => exact (decodeLength_code 15 l.toNat rest (by omega)).trans (field_bits .lenL32768 15 l rest)
  all_goals exact absurd h (show ¬(false = true) by simp)

/-- The reserved length prefix, whatever follows (30 R110). -/
theorem decodeLength_reserved (rest : Bits) : decodeLength (Instr.lenReserved.bits ++ rest) = .ok (.lenReserved, 15) := rfl

/-! ## The classes of offsets and lengths (30 R104, R108) -/

/-- The literal token of a byte stands for the byte (30 R101, R102). -/
theorem literalInstr_literal (b : Byte) : (literalInstr b).literal? = some b := by
  have h : ∀ n : Fin 256, (literalInstr (BitVec.ofFin n)).literal? = some (BitVec.ofFin n) := by decide +kernel
  exact h b.toFin

/-- A property of both branches of a condition. -/
theorem ite_induct {α : Type} (P : α → Prop) {c : Prop} [Decidable c] {a b : α} (h1 : c → P a) (h2 : ¬c → P b) :
    P (if c then a else b) := by
  by_cases h : c
  · rw [if_pos h]; exact h1 h
  · rw [if_neg h]; exact h2 h

/-- The offset code of `d` is one of the four classes (30 R105). -/
theorem offsetInstr_cases {d : Nat} (h : d ≤ 67903) :
    (∃ o : BitVec 6, offsetInstr d = .matchO6 o ∧ d = offsetO6 o) ∨
    (∃ o : BitVec 8, offsetInstr d = .matchO8 o ∧ d = offsetO8 o) ∨
    (∃ o : BitVec 11, offsetInstr d = .matchO11 o ∧ d = offsetO11 o) ∨
    (∃ o : BitVec 16, offsetInstr d = .matchO16 o ∧ d = offsetO16 o) := by
  have hn : ∀ (k v : Nat), v < 2 ^ k → (BitVec.ofNat k v).toNat = v := fun k v hv => by
    rw [BitVec.toNat_ofNat, Nat.mod_eq_of_lt hv]
  unfold offsetInstr
  split
  · exact .inl ⟨_, rfl, by rw [offsetO6, hn _ _ (by omega)]⟩
  split
  · exact .inr (.inl ⟨_, rfl, by rw [offsetO8, hn _ _ (by omega)]; omega⟩)
  split
  · exact .inr (.inr (.inl ⟨_, rfl, by rw [offsetO11, hn _ _ (by omega)]; omega⟩))
  · exact .inr (.inr (.inr ⟨_, rfl, by rw [offsetO16, hn _ _ (by omega)]; omega⟩))

theorem offsetInstr_offset {d : Nat} (h : d ≤ 67903) : (offsetInstr d).offset? = some d := by
  obtain ⟨o, h1, h2⟩ | ⟨o, h1, h2⟩ | ⟨o, h1, h2⟩ | ⟨o, h1, h2⟩ := offsetInstr_cases h <;> rw [h1, h2] <;> rfl

/-- The value of a length class above L3, rebuilt from the bits below the highest set bit. -/
theorem lengthValue_sub {ones n : Nat} (h0 : ones ≠ 0) (h1 : 2 ^ (ones + 1) ≤ n) (h2 : n < 2 ^ (ones + 1) + 2 ^ (ones + 1)) :
    lengthValue ones (BitVec.ofNat (ones + 1) (n - 2 ^ (ones + 1))).toNat = n := by
  rw [lengthValue, if_neg h0, BitVec.toNat_ofNat, Nat.mod_eq_of_lt (by omega)]
  omega

theorem lengthInstr_length {n : Nat} (h3 : 3 ≤ n) (h : n ≤ 65535) : (lengthInstr n).length? = some n := by
  have step := @ite_induct Instr (fun i => i.length? = some n)
  unfold lengthInstr
  refine step (fun _ => congrArg some (by show 3 = n; omega)) fun _ => ?_
  refine step (fun _ => congrArg some (lengthValue_sub (ones := 1) (by omega) (by omega) (by omega))) fun _ => ?_
  refine step (fun _ => congrArg some (lengthValue_sub (ones := 2) (by omega) (by omega) (by omega))) fun _ => ?_
  refine step (fun _ => congrArg some (lengthValue_sub (ones := 3) (by omega) (by omega) (by omega))) fun _ => ?_
  refine step (fun _ => congrArg some (lengthValue_sub (ones := 4) (by omega) (by omega) (by omega))) fun _ => ?_
  refine step (fun _ => congrArg some (lengthValue_sub (ones := 5) (by omega) (by omega) (by omega))) fun _ => ?_
  refine step (fun _ => congrArg some (lengthValue_sub (ones := 6) (by omega) (by omega) (by omega))) fun _ => ?_
  refine step (fun _ => congrArg some (lengthValue_sub (ones := 7) (by omega) (by omega) (by omega))) fun _ => ?_
  refine step (fun _ => congrArg some (lengthValue_sub (ones := 8) (by omega) (by omega) (by omega))) fun _ => ?_
  refine step (fun _ => congrArg some (lengthValue_sub (ones := 9) (by omega) (by omega) (by omega))) fun _ => ?_
  refine step (fun _ => congrArg some (lengthValue_sub (ones := 10) (by omega) (by omega) (by omega))) fun _ => ?_
  refine step (fun _ => congrArg some (lengthValue_sub (ones := 11) (by omega) (by omega) (by omega))) fun _ => ?_
  refine step (fun _ => congrArg some (lengthValue_sub (ones := 12) (by omega) (by omega) (by omega))) fun _ => ?_
  refine step (fun _ => congrArg some (lengthValue_sub (ones := 13) (by omega) (by omega) (by omega))) fun _ => ?_
  exact congrArg some (lengthValue_sub (ones := 14) (by omega) (by omega) (by omega))

theorem literalInstr_isSome (b : Byte) : (literalInstr b).literal?.isSome = true := by rw [literalInstr_literal]; rfl

/-- An offset code of any `d` (30 R104): an offset and no literal, 11 to 19 bits wide. -/
theorem offsetInstr_shape (d : Nat) :
    (offsetInstr d).offset?.isSome = true ∧ (offsetInstr d).literal? = none ∧
      11 ≤ (offsetInstr d).width ∧ (offsetInstr d).width ≤ 19 := by
  have step := @ite_induct Instr fun i => i.offset?.isSome = true ∧ i.literal? = none ∧ 11 ≤ i.width ∧ i.width ≤ 19
  unfold offsetInstr
  refine step (fun _ => ⟨rfl, rfl, ?_, ?_⟩) fun _ => ?_ <;> (try simp only [Instr.width]) <;> try omega
  refine step (fun _ => ⟨rfl, rfl, ?_, ?_⟩) fun _ => ?_ <;> (try simp only [Instr.width]) <;> try omega
  refine step (fun _ => ⟨rfl, rfl, ?_, ?_⟩) fun _ => ⟨rfl, rfl, ?_, ?_⟩ <;> simp only [Instr.width] <;> omega

/-- A length code of any `n` is a length code (30 R108). -/
theorem lengthInstr_isSome (n : Nat) : (lengthInstr n).lengthCode?.isSome = true := by
  have step := @ite_induct Instr fun i => i.lengthCode?.isSome = true
  unfold lengthInstr
  refine step (fun _ => rfl) fun _ => ?_
  refine step (fun _ => rfl) fun _ => ?_
  refine step (fun _ => rfl) fun _ => ?_
  refine step (fun _ => rfl) fun _ => ?_
  refine step (fun _ => rfl) fun _ => ?_
  refine step (fun _ => rfl) fun _ => ?_
  refine step (fun _ => rfl) fun _ => ?_
  refine step (fun _ => rfl) fun _ => ?_
  refine step (fun _ => rfl) fun _ => ?_
  refine step (fun _ => rfl) fun _ => ?_
  refine step (fun _ => rfl) fun _ => ?_
  refine step (fun _ => rfl) fun _ => ?_
  refine step (fun _ => rfl) fun _ => ?_
  exact step (fun _ => rfl) fun _ => rfl

/-- A length code is 1 to 30 bits wide (30 R112). -/
theorem lengthCode_width {i : Instr} (h : i.lengthCode?.isSome = true) : 1 ≤ i.width ∧ i.width ≤ 30 := by
  cases i
  all_goals first
    | (revert h; exact fun h => nomatch (h : false = true))
    | (simp only [Instr.width]; omega)

/-- The bits of a row of the stream number its width. -/
theorem Instr.bits_length {i : Instr} (h : i.literal?.isSome ∨ i.offset?.isSome ∨ i.lengthCode?.isSome) :
    i.bits.length = i.width := by
  cases i
  all_goals first
    | exact absurd h (show ¬(false = true ∨ false = true ∨ false = true) by simp)
    | simp [Instr.bits, Instr.width, lengthBits]

/-- Every token has at least 8 bits and at most 49 (30 R112). -/
theorem encodeToken_length (t : Token) : 8 ≤ (encodeToken t).length ∧ (encodeToken t).length ≤ 49 := by
  cases t with
  | lit b =>
    simp only [encodeToken, Token.instrs, List.flatMap_cons, List.flatMap_nil, List.append_nil]
    rw [Instr.bits_length (.inl (literalInstr_isSome b))]
    unfold literalInstr; split <;> exact ⟨by simp [Instr.width], by simp [Instr.width]⟩
  | mtch off len =>
    simp only [encodeToken, Token.instrs, List.flatMap_cons, List.flatMap_nil, List.append_nil, List.length_append]
    rw [Instr.bits_length (.inr (.inl (offsetInstr_shape off).1)),
      Instr.bits_length (.inr (.inr (lengthInstr_isSome len)))]
    have h1 := (offsetInstr_shape off).2.2
    have h2 := lengthCode_width (lengthInstr_isSome len)
    omega

theorem encodeTokens_cons (t : Token) (ts : List Token) : encodeTokens (t :: ts) = encodeToken t ++ encodeTokens ts := rfl

theorem encodeTokens_append (ts us : List Token) : encodeTokens (ts ++ us) = encodeTokens ts ++ encodeTokens us := by
  simp [encodeTokens]

theorem encodeTokens_length (ts : List Token) : 8 * ts.length ≤ (encodeTokens ts).length := by
  induction ts with
  | nil => simp
  | cons t ts ih =>
    have := (encodeToken_length t).1
    rw [encodeTokens_cons, List.length_append, List.length_cons]
    omega

end Sys2Proof
end

