-- ==== Sys2Proof/Laws/Run.lean ====
section
/-! SUPPORT. A DECOMPRESS run to its end (spec 43 R220 to R238): one finer step per row of the stream, and the run of a
packed token list, which replays it. -/

namespace Sys2Proof.Machine

/-! ## What a row of the stream does (43 R228 to R235) -/

theorem Dec.streamOp_literal {i : Instr} {b : Byte} (h : i.literal? = some b) (d : Dec) :
    Dec.streamOp i d = d.literal b := by
  cases i
  case lit7 v => rw [← Option.some.inj h]; rfl
  case lit8 v => rw [← Option.some.inj h]; rfl
  all_goals exact nomatch h

theorem Dec.streamOp_offset {i : Instr} {off : Nat} (h : i.offset? = some off) (d : Dec) :
    Dec.streamOp i d = d.matchOffset off := by
  cases i
  case matchO6 o => rw [← Option.some.inj h]; rfl
  case matchO8 o => rw [← Option.some.inj h]; rfl
  case matchO11 o => rw [← Option.some.inj h]; rfl
  case matchO16 o => rw [← Option.some.inj h]; rfl
  all_goals exact nomatch h

theorem Dec.streamOp_length {i : Instr} {c : Nat × Nat} (h : i.lengthCode? = some c) (d : Dec) :
    Dec.streamOp i d = d.matchLength c.1 c.2 := by
  cases i
  case lenL3 => rw [← Option.some.inj h]; rfl
  case lenL4 => rw [← Option.some.inj h]; rfl
  case lenL8 => rw [← Option.some.inj h]; rfl
  case lenL16 => rw [← Option.some.inj h]; rfl
  case lenL32 => rw [← Option.some.inj h]; rfl
  case lenL64 => rw [← Option.some.inj h]; rfl
  case lenL128 => rw [← Option.some.inj h]; rfl
  case lenL256 => rw [← Option.some.inj h]; rfl
  case lenL512 => rw [← Option.some.inj h]; rfl
  case lenL1024 => rw [← Option.some.inj h]; rfl
  case lenL2048 => rw [← Option.some.inj h]; rfl
  case lenL4096 => rw [← Option.some.inj h]; rfl
  case lenL8192 => rw [← Option.some.inj h]; rfl
  case lenL16384 => rw [← Option.some.inj h]; rfl
  case lenL32768 => rw [← Option.some.inj h]; rfl
  all_goals exact nomatch h

/-! ## The bit cursor (43 R226) -/

theorem DecWork.bits_length (w : DecWork) : w.bits.length = w.bitsLeft := by
  simp [DecWork.bits, DecWork.bitsLeft]

/-- Moving the cursor past the first `n` bits. -/
theorem DecWork.bits_advance (w : DecWork) (n : Nat) :
    ({ w with bitpos := w.bitpos + n } : DecWork).bits = w.bits.drop n := by
  simp [DecWork.bits]

/-! ## Finer steps -/

/-- The next finer step of a run. -/
theorem Dec.runCommand_succ {n : Nat} {d d' : Dec} (hw : d.work.isSome = true) (h : d.microStep = .ok d') :
    Dec.runCommand (n + 1) d = Dec.runCommand n d' := by
  have : d.work.isNone = false := by rw [Option.isNone_eq_false_iff]; exact hw
  rw [Dec.runCommand, this, h]; rfl

theorem Dec.runCommand_done {n : Nat} {d : Dec} (hw : d.work = none) : Dec.runCommand n d = .ok d := by
  cases n with
  | zero => rfl
  | succ n => rw [Dec.runCommand, hw]; rfl

/-- The finer step that reads a row of the stream. -/
theorem Dec.microStep_run {d : Dec} {w : DecWork} {i : Instr} {n : Nat} (hw : d.work = some w)
    (hf : d.fetch w = .run i (d.setWork fun w => { w with bitpos := w.bitpos + n })) :
    d.microStep = Dec.streamOp i { d with work := some { w with bitpos := w.bitpos + n } } := by
  unfold Dec.microStep
  simp only [hw, hf, Dec.setWork, Option.map_some]

/-- At a token boundary with the bits of a literal or an offset code ahead. -/
theorem Dec.microStep_token {d : Dec} {w : DecWork} {i : Instr} {rest : Bits} (hw : d.work = some w)
    (hp : w.phase = .token) (hb : w.bits = i.bits ++ rest) (hi : i.literal?.isSome ∨ i.offset?.isSome) :
    d.microStep = Dec.streamOp i { d with work := some { w with bitpos := w.bitpos + i.width } } := by
  have hl : i.bits.length = i.width := Instr.bits_length (hi.imp id .inl)
  have h8 : 8 ≤ i.width := by
    cases i
    all_goals first
      | exact absurd hi (show ¬(false = true ∨ false = true) by simp)
      | (simp only [Instr.width]; omega)
  apply Dec.microStep_run hw
  have hn : ¬ w.bitsLeft < 8 := by rw [← DecWork.bits_length, hb, List.length_append, hl]; omega
  unfold Dec.fetch
  simp only [hp, if_neg hn, Dec.fetchAt, decode, hb, decodeToken_bits hi rest]

/-- After an offset code with the bits of a length code ahead. -/
theorem Dec.microStep_length {d : Dec} {w : DecWork} {i : Instr} {rest : Bits} (hw : d.work = some w)
    (hp : w.phase = .length) (hb : w.bits = i.bits ++ rest) (hi : i.lengthCode?.isSome = true) :
    d.microStep = Dec.streamOp i { d with work := some { w with bitpos := w.bitpos + i.width } } := by
  apply Dec.microStep_run hw
  unfold Dec.fetch
  simp only [hp, Dec.fetchAt, decode, hb, decodeLength_bits hi rest]

/-- At a token boundary with less than eight bits ahead the command is complete (43 R226, R238). -/
theorem Dec.microStep_end {d : Dec} {w : DecWork} (hw : d.work = some w) (hp : w.phase = .token)
    (hb : w.bits.length < 8) : d.microStep = .ok (d.finish w) := by
  rw [DecWork.bits_length] at hb
  unfold Dec.microStep Dec.fetch
  simp only [hw, hp, if_pos hb]

/-! ## Replay (42 R193) -/

theorem replayMatch_length {off n : Nat} {out out' : List Byte} (h : replayMatch off n out = some out') :
    out'.length = out.length + n := by
  induction n generalizing out with
  | zero => simp only [replayMatch, Option.some.injEq] at h; simp [← h]
  | succ n ih =>
    rw [replayMatch] at h
    split at h
    · exact nomatch h
    · split at h
      · rw [ih h]; simp; omega
      · exact nomatch h

theorem replay_length_le {ts : List Token} {out out' : List Byte} (h : replay ts out = some out') :
    out.length ≤ out'.length := by
  induction ts generalizing out with
  | nil => simp only [replay, Option.some.injEq] at h; simp [← h]
  | cons t ts ih =>
    cases t with
    | lit b => have := ih h; simp at this; omega
    | mtch off len =>
      rw [replay] at h
      split at h
      · rename_i o ho
        have h1 := ih h
        have h2 := replayMatch_length ho
        omega
      · exact nomatch h

theorem replay_append (ts us : List Token) (out : List Byte) :
    replay (ts ++ us) out = (replay ts out).bind (replay us) := by
  induction ts generalizing out with
  | nil => rfl
  | cons t ts ih =>
    cases t with
    | lit b => exact ih _
    | mtch off len =>
      rw [List.cons_append, replay, replay]
      split
      · exact ih _
      · rfl

/-! ## The run of a packed token list -/

/-- A literal token (43 R228, R229) at a token boundary. -/
theorem Dec.run_literal {d : Dec} {w : DecWork} {b : Byte} {rest : Bits} (hw : d.work = some w) (hp : w.phase = .token)
    (hb : w.bits = encodeToken (.lit b) ++ rest) (hptr : d.historyPtr.toNat < 65535) (n : Nat) :
    Dec.runCommand (n + 1) d = Dec.runCommand n
      (Dec.wrote b { d with work := some { w with bitpos := w.bitpos + (encodeToken (.lit b)).length } }) := by
  have hbits : encodeToken (.lit b) = (literalInstr b).bits := by simp [encodeToken, Token.instrs]
  have hlen : (encodeToken (.lit b)).length = (literalInstr b).width := by
    rw [hbits, Instr.bits_length (.inl (literalInstr_isSome b))]
  rw [hbits] at hb
  refine Dec.runCommand_succ (by rw [hw]; rfl) ?_
  rw [Dec.microStep_token hw hp hb (.inl (literalInstr_isSome b)), Dec.streamOp_literal (literalInstr_literal b), hlen]
  unfold Dec.literal Dec.inCommand
  dsimp only
  rw [Dec.writeByte_ok (by exact hptr)]
  rfl

/-- A match token at a token boundary: its offset code, its length code, the copy (43 R230 to R235). -/
theorem Dec.run_match {d d' : Dec} {w : DecWork} {off len : Nat} {rest : Bits} (hw : d.work = some w)
    (hp : w.phase = .token) (hb : w.bits = encodeToken (.mtch off len) ++ rest) (h1 : 1 ≤ off) (h2 : off ≤ 65535)
    (h3 : 3 ≤ len) (h4 : len ≤ 65535) {c : Nat × Nat} (hc : (lengthInstr len).lengthCode? = some c)
    (hcopy : Dec.copyBytes off len { d with work := some { w with
      bitpos := w.bitpos + (encodeToken (.mtch off len)).length, off := off, mlen := len, ones := c.1,
      phase := .token } } = .ok d') (n : Nat) :
    Dec.runCommand (n + 2) d = Dec.runCommand n d' := by
  have hbits : encodeToken (.mtch off len) = (offsetInstr off).bits ++ (lengthInstr len).bits := by
    simp [encodeToken, Token.instrs]
  obtain ⟨ho1, ho2, -⟩ := offsetInstr_shape off
  have hlo := Instr.bits_length (.inr (.inl ho1))
  have hll := Instr.bits_length (.inr (.inr (lengthInstr_isSome len)))
  have hoff := offsetInstr_offset (d := off) (by omega)
  have hlen : lengthValue c.1 c.2 = len := by
    have := lengthInstr_length h3 h4
    rw [Instr.length?, hc] at this
    exact Option.some.inj this
  rw [hbits, List.append_assoc] at hb
  rw [Dec.runCommand_succ (by rw [hw]; rfl) ((Dec.microStep_token hw hp hb (.inr ho1)).trans
    ((Dec.streamOp_offset hoff _).trans rfl))]
  refine Dec.runCommand_succ rfl ?_
  rw [Dec.microStep_length (w := ({ w with bitpos := w.bitpos + (offsetInstr off).width } : DecWork).setOffset off)
    (i := lengthInstr len) (rest := rest) rfl rfl ?_ (lengthInstr_isSome len), Dec.streamOp_length hc]
  · unfold Dec.matchLength Dec.inCommand
    dsimp only
    unfold Dec.copyMatch
    rw [hlen, if_neg (by simp [DecWork.offset]; omega), if_neg (by simp [DecWork.offset]; omega)]
    have : (encodeToken (.mtch off len)).length = (offsetInstr off).width + (lengthInstr len).width := by
      rw [hbits, List.length_append, hlo, hll]
    rw [this, ← Nat.add_assoc] at hcopy
    have hs : ({ d with work := some (({ w with bitpos := w.bitpos + (offsetInstr off).width } : DecWork).setOffset off) } : Dec)
      = { d with work := some (({ w with bitpos := w.bitpos + (offsetInstr off).width } : DecWork).setOffset off) } := rfl
    unfold Dec.setWork DecWork.setLength
    simp only [Option.map_some, hlen]
    exact congrArg (Dec.take _) hcopy
  · show ({ w with bitpos := w.bitpos + (offsetInstr off).width } : DecWork).bits = _
    rw [DecWork.bits_advance, hb, ← hlo, List.drop_left]

/-- A packed token list, run from a token boundary (43 R226): its replay (42 R193) is appended to the history, and the
command is complete. -/
theorem Dec.run_tokens {ts : List Token} {d : Dec} {w : DecWork} {pad : Bits} {out out' : List Byte} {n : Nat}
    (hw : d.work = some w) (hp : w.phase = .token) (hb : w.bits = encodeTokens ts ++ pad) (hpad : pad.length < 8)
    (hts : ∀ t ∈ ts, t.wellFormed = true) (hc : d.historyPtr.toNat ≤ d.validHi.toNat)
    (ho : d.hist.readRange 0 d.historyPtr.toNat = some out) (hr : replay ts out = some out') (hmax : out'.length ≤ 65535)
    (hn : 2 * ts.length < n) :
    ∃ d' w', Dec.runCommand n d = .ok (d'.finish w') ∧ w'.start = w.start ∧ d.Grew d' (out'.length - out.length) ∧
      d'.hist.readRange 0 d'.historyPtr.toNat = some out' := by
  induction ts generalizing d w out n with
  | nil =>
    simp only [replay, Option.some.injEq] at hr
    subst hr
    obtain ⟨m, rfl⟩ : ∃ m, n = m + 1 := ⟨n - 1, by simp at hn; omega⟩
    refine ⟨d, w, ?_, rfl, by rw [Nat.sub_self]; exact Dec.Grew.zero hc, ho⟩
    rw [Dec.runCommand_succ (by rw [hw]; rfl) (Dec.microStep_end hw hp (by rw [hb]; exact hpad)), Dec.runCommand_done rfl]
  | cons t ts ih =>
    simp only [List.mem_cons, forall_eq_or_imp] at hts
    simp only [List.length_cons] at hn
    rw [encodeTokens_cons, List.append_assoc] at hb
    have hol := (Memory.readRange_eq_some.1 ho).1
    have hmono := replay_length_le hr
    have hadv : ({ w with bitpos := w.bitpos + (encodeToken t).length } : DecWork).bits = encodeTokens ts ++ pad := by
      rw [DecWork.bits_advance, hb, List.drop_left]
    cases t with
    | lit b =>
      rw [replay] at hr
      have hle := replay_length_le hr
      rw [List.length_append, List.length_singleton] at hle
      obtain ⟨m, rfl⟩ : ∃ m, n = m + 1 := ⟨n - 1, by omega⟩
      have hp1 : d.historyPtr.toNat < 65535 := by omega
      rw [Dec.run_literal hw hp hb hp1]
      have hg : d.Grew (Dec.wrote b { d with work := some { w with bitpos := w.bitpos + (encodeToken (.lit b)).length } }) 1 :=
        ⟨Dec.wrote_historyPtr (d := { d with work := _ }) hp1, Dec.wrote_validHi (d := { d with work := _ }) hp1,
          Dec.wrote_filled (d := { d with work := _ }) hp1 hc, Dec.wrote_wf (d := { d with work := _ }),
          fun a ha => by rw [Dec.wrote_read]; exact if_neg (by show ¬ a = d.historyPtr.toNat; omega), rfl⟩
      obtain ⟨d', w', he, hs, hg', ho'⟩ := ih (d := Dec.wrote b _) (w := { w with bitpos := w.bitpos + (encodeToken (.lit b)).length }) (out := out ++ [b]) (n := m)
        rfl hp hadv hts.2 hg.cursor (by
          rw [hg.ptr]
          obtain ⟨-, hk⟩ := Memory.readRange_eq_some.1 ho
          refine Memory.readRange_eq_some.2 ⟨by simp [hol], fun k hkn => ?_⟩
          rw [Dec.wrote_read, Nat.zero_add]
          show (if k = d.historyPtr.toNat then some b else d.hist.read k) = _
          by_cases hkp : k = d.historyPtr.toNat
          · rw [if_pos hkp, hkp, ← hol]; simp
          · rw [if_neg hkp, List.getElem?_append_left (by omega)]
            have := hk k (by omega)
            rwa [Nat.zero_add] at this) hr (by omega)
      refine ⟨d', w', he, hs, ?_, ho'⟩
      have := hg.trans hg'
      rw [List.length_append, List.length_singleton] at this
      rwa [show out'.length - out.length = 1 + (out'.length - (out.length + 1)) by omega]
    | mtch off len =>
      rw [replay] at hr
      split at hr
      · rename_i o hro
        have hwf := hts.1
        simp only [Token.wellFormed, decide_eq_true_eq, Config.minMatch, Config.maxMatch, Config.maxOffset] at hwf
        obtain ⟨c, hcode⟩ := Option.isSome_iff_exists.1 (lengthInstr_isSome len)
        have hle := replay_length_le hr
        have hlo := replayMatch_length hro
        obtain ⟨d₁, hcopy, hg, ⟨g, hwork⟩, ho₁⟩ := Dec.copyBytes_replay (d := { d with work := some { w with
          bitpos := w.bitpos + (encodeToken (.mtch off len)).length, off := off, mlen := len, ones := c.1,
          phase := .token } }) (off := off) (n := len) (out := out) (out' := o) (by omega) hc
          (by show d.historyPtr.toNat + len ≤ 65535; omega) ho hro
        have hg0 : d.Grew d₁ len := ⟨hg.ptr, hg.valid, hg.fill, hg.wf, hg.same, by
          exact congrArg (fun x : Dec => { x with work := d.work }) hg.rest⟩
        obtain ⟨m, rfl⟩ : ∃ m, n = m + 2 := ⟨n - 2, by omega⟩
        rw [Dec.run_match hw hp hb (by omega) (by omega) (by omega) (by omega) hcode hcopy]
        obtain ⟨d', w', he, hs, hg', ho'⟩ := ih (n := m) hwork rfl hadv hts.2 hg0.cursor ho₁ hr (by omega)
        refine ⟨d', w', he, hs, ?_, ho'⟩
        have := hg0.trans hg'
        rwa [show out'.length - out.length = len + (out'.length - o.length) by omega]
      · exact nomatch hr

end Sys2Proof.Machine
end

