-- ==== Sys2Proof/Laws/Encoder.lean ====
section
/-! SUPPORT. The scan of COMPRESS (spec 41, 42): the match finder never stops and finds true matches whatever HASH and the
table are (41 R167), every scan step keeps the replay of the tokens emitted so far (42 R193), and COMPRESS completes. -/

namespace Sys2Proof.Machine

/-- A history buffer that holds `F` from position 0 on. -/
def Holds (h : Memory) (F : List Byte) : Prop := ∀ a, a < F.length → h.read a = F[a]?

theorem holds_iff {h : Memory} {F : List Byte} : Holds h F ↔ h.readRange 0 F.length = some F := by
  rw [Memory.readRange_eq_some]
  simp [Holds]

theorem Holds.some {h : Memory} {F : List Byte} (hh : Holds h F) {a : Nat} (ha : a < F.length) :
    h.read a = some F[a] := by rw [hh a ha]; simp [ha]

/-! ## The match finder (41) -/

theorem hashAt_some {H : HashFn} {h : Memory} {F : List Byte} (hh : Holds h F) {p : Nat} (hp : p + 2 < F.length) :
    ∃ v, hashAt H h p = some v ∧ v < 65536 := by
  refine ⟨(H F[p] F[p + 1] F[p + 2]).toNat, ?_, BitVec.isLt _⟩
  unfold hashAt
  rw [hh.some (by omega), hh.some (by omega), hh.some hp]

theorem sameByte_some {h : Memory} {F : List Byte} (hh : Holds h F) {a b : Nat} (ha : a < F.length) (hb : b < F.length) :
    sameByte h a b = some (F[a] == F[b]) := by
  unfold sameByte
  rw [hh.some ha, hh.some hb]

/-- Acceptance (41 R163): the candidate is below the position and the three bytes agree. -/
theorem accept_some {h : Memory} {F : List Byte} (hh : Holds h F) {q p : Nat} (hp : p + 2 < F.length) :
    ∃ b, accept h q p = some b ∧ (b = true → q < p ∧ ∀ k, k < 3 → F[q + k]? = F[p + k]?) := by
  unfold accept
  by_cases hq : q < p
  · rw [if_pos hq, sameByte_some hh (by omega) (by omega), sameByte_some hh (by omega) (by omega),
      sameByte_some hh (by omega) (by omega)]
    refine ⟨_, rfl, fun hb => ⟨hq, fun k hk => ?_⟩⟩
    simp only [Bool.and_eq_true, beq_iff_eq] at hb
    obtain ⟨⟨h0, h1⟩, h2⟩ := hb
    obtain rfl | rfl | rfl : k = 0 ∨ k = 1 ∨ k = 2 := by omega
    · simpa [show q < F.length by omega, show p < F.length by omega] using h0
    · simpa [show q + 1 < F.length by omega, show p + 1 < F.length by omega] using h1
    · simpa [show q + 2 < F.length by omega, show p + 2 < F.length by omega] using h2
  · rw [if_neg hq]
    exact ⟨false, rfl, fun hb => nomatch hb⟩

/-- Extension (41 R165): the match found is at least as long as at the start, inside the chunk, and a true match. -/
theorem extend_some {h : Memory} {F : List Byte} (hh : Holds h F) {q p : Nat} (hq : q < p) (n L : Nat)
    (hL : p + L ≤ F.length) (he : ∀ k, k < L → F[q + k]? = F[p + k]?) :
    ∃ L', extend h q p F.length n L = some L' ∧ L ≤ L' ∧ p + L' ≤ F.length ∧ ∀ k, k < L' → F[q + k]? = F[p + k]? := by
  induction n generalizing L with
  | zero => exact ⟨L, rfl, Nat.le_refl _, hL, he⟩
  | succ n ih =>
    rw [extend]
    by_cases hc : p + L < F.length ∧ L < Config.maxMatch
    · rw [if_pos hc, sameByte_some hh (by omega) hc.1]
      cases hb : (F[q + L]'(by omega) == F[p + L]'hc.1) with
      | false => exact ⟨L, rfl, Nat.le_refl _, hL, he⟩
      | true =>
        obtain ⟨L', h1, h2, h3, h4⟩ := ih (L + 1) (by omega) fun k hk => by
          by_cases hkl : k = L
          · subst hkl
            rw [beq_iff_eq] at hb
            simpa [show q + k < F.length by omega, hc.1] using hb
          · exact he k (by omega)
        exact ⟨L', h1, by omega, h3, h4⟩
    · rw [if_neg hc]
      exact ⟨L, rfl, Nat.le_refl _, hL, he⟩

theorem insertInterior_some {H : HashFn} {h : Memory} {F : List Byte} (hh : Holds h F) (n a : Nat) {t : Table}
    (ht : Table.wf t) : ∃ t', insertInterior H h F.length n a t = some t' ∧ Table.wf t' := by
  induction n generalizing a t with
  | zero => exact ⟨t, rfl, ht⟩
  | succ n ih =>
    rw [insertInterior]
    by_cases ha : a + 2 < F.length
    · obtain ⟨v, hv, hlt⟩ := hashAt_some (H := H) hh ha
      rw [if_pos ha, insertAt, hv]
      exact ih _ (Table.write_wf _ hlt ht)
    · rw [if_neg ha]
      exact ih _ ht

/-! ## True matches replay (42 R193) -/

theorem replayMatch_take {F : List Byte} {off : Nat} (n p : Nat) (h1 : 1 ≤ off) (h2 : off ≤ p) (hp : p + n ≤ F.length)
    (he : ∀ k, k < n → F[p + k - off]? = F[p + k]?) : replayMatch off n (F.take p) = some (F.take (p + n)) := by
  induction n generalizing p with
  | zero => rfl
  | succ n ih =>
    have hl : (F.take p).length = p := by simp; omega
    rw [replayMatch, hl, if_neg (by omega)]
    have hb : (F.take p)[p - off]? = some F[p] := by
      rw [List.getElem?_take_of_lt (by omega)]
      have := he 0 (by omega)
      rw [Nat.add_zero] at this
      rw [this]
      simp
    rw [hb]
    dsimp only
    rw [show F.take p ++ [F[p]] = F.take (p + 1) from (List.take_succ_eq_append_getElem (by omega)).symm]
    rw [ih (p + 1) (by omega) (by omega) fun k hk => by
      have := he (k + 1) (by omega)
      rwa [show p + (k + 1) = p + 1 + k by omega] at this]
    congr 2
    omega

/-! ## The scan (42 R188) -/

/-- A scan in progress: the chunk is stored, the tokens emitted so far replay the part of the chunk consumed so far, and
every one of them can be encoded. -/
structure Enc.Scan (e : Enc) (w : EncWork) (F : List Byte) : Prop where
  nonempty : w.input ≠ []
  fits     : w.fin ≤ 65535
  cursor   : w.ctr ≤ w.input.length
  length   : F.length = w.fin
  holds    : Holds e.hist F
  chunk    : F.drop w.base = w.input
  hashWf   : Table.wf e.hash
  replays  : replay w.toks (F.take w.base) = some (F.take (w.base + w.ctr))
  legal    : ∀ t ∈ w.toks, t.wellFormed = true

/-- What a scan step leaves alone: everything but the hash table and the transient registers, and of those the operands,
`base` and `hold`. -/
structure Enc.ScanFrame (e : Enc) (w : EncWork) (e' : Enc) (w' : EncWork) : Prop where
  same   : { e' with hash := e.hash, work := e.work } = e
  work   : e'.work = some w'
  input  : w'.input = w.input
  maxOut : w'.maxOut = w.maxOut
  base   : w'.base = w.base
  hold   : w'.hold = w.hold

theorem Enc.emitLiteral_some {e : Enc} {w : EncWork} {F : List Byte} (h : e.Scan w F) (hc : w.ctr < w.input.length)
    (hwp : w.p = w.base + w.ctr) :
    ∃ e' w', e.emitLiteral w = some e' ∧ e'.Scan w' F ∧ w'.ctr = w.ctr + 1 ∧ e.ScanFrame w e' w' := by
  have hp : w.base + w.ctr < F.length := by rw [h.length, EncWork.fin]; omega
  refine ⟨{ e with work := some (w.emit (.lit F[w.base + w.ctr]) 1) }, w.emit (.lit F[w.base + w.ctr]) 1, ?_, ?_, rfl,
    ⟨rfl, rfl, rfl, rfl, rfl, rfl⟩⟩
  · unfold Enc.emitLiteral
    rw [hwp, h.holds.some hp, Option.map_some]
  · exact {
      nonempty := h.nonempty, fits := h.fits, cursor := hc, length := h.length, holds := h.holds, chunk := h.chunk,
      hashWf := h.hashWf
      replays := by
        rw [EncWork.emit_toks, EncWork.emit_base, EncWork.emit_ctr, replay_append, h.replays]
        show some (F.take (w.base + w.ctr) ++ [F[w.base + w.ctr]]) = _
        rw [← List.take_succ_eq_append_getElem hp]; rfl
      legal := fun t ht => by
        rw [EncWork.emit_toks, List.mem_append, List.mem_singleton] at ht
        rcases ht with ht | rfl
        · exact h.legal t ht
        · rfl }

/-- A scan step inside the chunk never stops, keeps the scan's invariant and advances the cursor. -/
theorem Enc.scanStep_some (H : HashFn) {e : Enc} {w : EncWork} {F : List Byte} (hw : e.work = some w) (h : e.Scan w F)
    (hc : w.ctr < w.input.length) :
    ∃ e' w', e.scanStep H = some e' ∧ e'.Scan w' F ∧ w.ctr < w'.ctr ∧ e.ScanFrame w e' w' := by
  unfold Enc.scanStep
  rw [hw]
  dsimp only
  rw [if_pos hc]
  have hfin : w.fin = F.length := h.length.symm
  have hfd : w.fin = w.base + w.input.length := rfl
  by_cases h3 : Config.minMatch ≤ w.input.length - w.ctr
  · rw [if_pos h3]
    have hp : w.base + w.ctr + 2 < F.length := by rw [← hfin, hfd]; simp only [Config.minMatch] at h3; omega
    obtain ⟨v, hv, hvlt⟩ := hashAt_some (H := H) h.holds hp
    unfold Enc.scanHashed Enc.lookup EncWork.examine
    rw [hv, Option.map_some]
    dsimp only
    obtain ⟨b, hb, hacc⟩ := accept_some h.holds (q := (e.hash.read v).toNat) hp
    rw [hb]
    have hs : ∀ q, Enc.Scan { e with hash := e.hash.write v (BitVec.ofNat 16 (w.base + w.ctr)) }
        { w with p := w.base + w.ctr, hv := v, q := q } F := fun q =>
      { nonempty := h.nonempty, fits := h.fits, cursor := h.cursor, length := h.length, holds := h.holds,
        chunk := h.chunk, hashWf := Table.write_wf _ hvlt h.hashWf, replays := h.replays, legal := h.legal }
    cases b with
    | false =>
      dsimp only
      obtain ⟨e', w', h1, h2, h3, h4⟩ := Enc.emitLiteral_some (hs (e.hash.read v).toNat) hc rfl
      exact ⟨e', w', h1, h2, by rw [h3]; exact Nat.lt_succ_self _,
        ⟨congrArg (fun x : Enc => { x with hash := e.hash }) h4.same, h4.work, h4.input, h4.maxOut, h4.base, h4.hold⟩⟩
    | true =>
      obtain ⟨hq, heq⟩ := hacc rfl
      dsimp only
      unfold Enc.emitMatch
      dsimp only
      obtain ⟨L, hL, hL3, hLfin, hLeq⟩ := extend_some h.holds hq (F.length - (w.base + w.ctr)) Config.minMatch
        (by show w.base + w.ctr + 3 ≤ F.length; omega) heq
      have hfin' : ∀ q, EncWork.fin { w with p := w.base + w.ctr, hv := v, q := q } = F.length := fun q => hfin
      rw [hfin', hL]
      dsimp only
      obtain ⟨t', ht, htw⟩ := insertInterior_some (H := H) h.holds (L - 1) (w.base + w.ctr + 1)
        (Table.write_wf (BitVec.ofNat 16 (w.base + w.ctr)) hvlt h.hashWf)
      rw [ht, Option.map_some]
      have h65 := h.fits
      rw [hfin] at h65
      simp only [Config.minMatch] at hL3
      refine ⟨_, _, rfl, ?_, ?_, ⟨rfl, rfl, rfl, rfl, rfl, rfl⟩⟩
      · exact {
          nonempty := h.nonempty, fits := h.fits
          cursor := by show w.ctr + L ≤ w.input.length; rw [← hfin, hfd] at hLfin; omega
          length := h.length, holds := h.holds, chunk := h.chunk, hashWf := htw
          replays := by
            show replay (w.toks ++ [_]) (F.take w.base) = some (F.take (w.base + (w.ctr + L)))
            rw [replay_append, h.replays]
            show replay [Token.mtch _ L] (F.take (w.base + w.ctr)) = _
            rw [replay, replayMatch_take (F := F) L (w.base + w.ctr) (by omega) (by omega) hLfin fun k hk => by
              rw [← hLeq k hk]; congr 1; omega]
            rw [← Nat.add_assoc]
            rfl
          legal := fun t ht => by
            have ht : t ∈ w.toks ++ [Token.mtch (w.base + w.ctr - (e.hash.read v).toNat) L] := ht
            rw [List.mem_append, List.mem_singleton] at ht
            rcases ht with ht | rfl
            · exact h.legal t ht
            · simp only [Token.wellFormed, Config.minMatch, Config.maxMatch, Config.maxOffset, decide_eq_true_eq]
              omega }
      · show w.ctr < w.ctr + L; omega
  · rw [if_neg h3]
    obtain ⟨e', w', h1, h2, h3, h4⟩ := Enc.emitLiteral_some (w := w.examine)
      ⟨h.nonempty, h.fits, h.cursor, h.length, h.holds, h.chunk, h.hashWf, h.replays, h.legal⟩ hc rfl
    exact ⟨e', w', h1, h2, by rw [h3]; exact Nat.lt_succ_self _, ⟨h4.same, h4.work, h4.input, h4.maxOut, h4.base, h4.hold⟩⟩

/-- The last scan step (42 R199 to R201). -/
theorem Enc.scanStep_end (H : HashFn) {e : Enc} {w : EncWork} (hw : e.work = some w) (hc : w.input.length ≤ w.ctr) :
    e.scanStep H = some (e.finish w) := by
  unfold Enc.scanStep
  rw [hw]
  dsimp only
  rw [if_neg (by omega)]

theorem Enc.runCommand_succ (H : HashFn) {n : Nat} {e e' : Enc} {w : EncWork} (hw : e.work = some w)
    (h : e.scanStep H = some e') : Enc.runCommand H (n + 1) e = Enc.runCommand H n e' := by
  rw [Enc.runCommand, hw, h]; rfl

theorem Enc.runCommand_done (H : HashFn) {n : Nat} {e : Enc} (hw : e.work = none) : Enc.runCommand H n e = some e := by
  cases n with
  | zero => rfl
  | succ n => rw [Enc.runCommand, hw]; rfl

theorem Enc.ScanFrame.trans {e e' e'' : Enc} {w w' w'' : EncWork} (h : e.ScanFrame w e' w') (h' : e'.ScanFrame w' e'' w'') :
    e.ScanFrame w e'' w'' where
  same := by
    have h1 := h.same
    have h2 := h'.same
    cases e; cases e'; cases e''; simp at h1 h2 ⊢; grind
  work := h'.work
  input := h'.input.trans h.input
  maxOut := h'.maxOut.trans h.maxOut
  base := h'.base.trans h.base
  hold := h'.hold.trans h.hold

/-- The run of a scan in progress completes: it ends in `finish` with the whole chunk consumed, a state it reaches. -/
theorem Enc.runCommand_some (H : HashFn) {n : Nat} {e : Enc} {w : EncWork} {F : List Byte} (hw : e.work = some w)
    (h : e.Scan w F) (hn : w.input.length - w.ctr < n) :
    ∃ e' w', e.runCommand H n = some (e'.finish w') ∧ e'.Scan w' F ∧ w'.ctr = w'.input.length ∧ e.ScanFrame w e' w' ∧
      ∃ m, e.runCommand H m = some e' := by
  induction n generalizing e w with
  | zero => omega
  | succ n ih =>
    by_cases hc : w.ctr < w.input.length
    · obtain ⟨e₁, w₁, hs, h1, hlt, hfr⟩ := Enc.scanStep_some H hw h hc
      rw [Enc.runCommand_succ H hw hs]
      obtain ⟨e', w', he, h2, hend, hfr', m, hm⟩ := ih hfr.work h1 (by rw [hfr.input]; omega)
      exact ⟨e', w', he, h2, hend, hfr.trans hfr', m + 1, by rw [Enc.runCommand_succ H hw hs, hm]⟩
    · rw [Enc.runCommand_succ H hw (Enc.scanStep_end H hw (by omega)), Enc.runCommand_done H (Enc.finish_work _ _)]
      exact ⟨e, w, rfl, h, by have := h.cursor; omega, ⟨rfl, hw, rfl, rfl, rfl, rfl⟩, 0, rfl⟩

end Sys2Proof.Machine
end

