-- ==== Sys2Proof/Laws/Compress.lean ====
section
/-! SUPPORT. COMPRESS as a whole (spec 42 R180 to R203): the reset policy, the chunk store, the completed command. -/

namespace Sys2Proof.Machine

/-! ## The reset policy (42 R183, R184) -/

theorem legalHold_mask {b : Byte} (h : legalHold b) : b &&& holdMask = b := by
  rcases h with rfl | rfl | rfl <;> decide

theorem Enc.chunkHold_legal {e : Enc} (n : Nat) (h : legalHold e.flagsHold) : legalHold (e.chunkHold n) := by
  unfold Enc.chunkHold Enc.readHold
  rw [legalHold_mask h]
  rcases h with h | h | h <;> rw [h] <;> cases e.firstPkt <;> dsimp only <;> split <;> decide

/-- The base of a chunk: 0 after a rewind, else the old offset (42 R203). -/
def Enc.chunkBase (n : Nat) (e : Enc) : Nat := if e.chunkHold n ≠ 0 then 0 else e.historyOffset.toNat

theorem Enc.resetPolicy_base (n : Nat) (e : Enc) : (e.resetPolicy n).historyOffset.toNat = e.chunkBase n := by
  rw [Enc.resetPolicy_historyOffset, Enc.chunkBase]
  split <;> rfl

/-- No room is a front reset, so the chunk fits (42 R184). -/
theorem Enc.chunkBase_fits {e : Enc} {n : Nat} (h : legalHold e.flagsHold) (hn : n ≤ 65535) : e.chunkBase n + n ≤ 65535 := by
  unfold Enc.chunkBase
  split
  · omega
  · rename_i h0
    rw [Decidable.not_not] at h0
    have : ¬ Config.histCap ≤ e.historyOffset.toNat + n := by
      intro hc
      unfold Enc.chunkHold at h0
      dsimp only at h0
      rw [if_pos hc] at h0
      unfold Enc.readHold at h0
      rw [legalHold_mask h] at h0
      revert h0
      rcases h with h | h | h <;> rw [h] <;> cases e.firstPkt <;> decide
    simp only [Config.histCap] at this
    omega

theorem Enc.chunkBase_le (e : Enc) (n : Nat) : e.chunkBase n ≤ e.historyOffset.toNat := by
  unfold Enc.chunkBase
  split <;> omega

/-- The reset flags are those of the table (30 R92, 42 R183). -/
theorem Enc.chunkHold_eq {e : Enc} (n : Nat) (h : legalHold e.flagsHold) : e.chunkHold n = e.resetFlags n := by
  unfold Enc.chunkHold Enc.readHold Enc.resetFlags Enc.rewinds
  rw [legalHold_mask h]
  by_cases hc : 65536 ≤ e.historyOffset.toNat + n
  · rw [if_pos (by exact hc)]
    rcases h with h | h | h <;> rw [h] <;> cases e.firstPkt <;> simp [hc] <;> rfl
  · rw [if_neg (by exact hc)]
    rcases h with h | h | h <;> rw [h] <;> cases e.firstPkt <;> simp [hc] <;> rfl

/-- The base is the one of 42 R203. -/
theorem Enc.chunkBase_eq {e : Enc} (n : Nat) (h : legalHold e.flagsHold) : e.chunkBase n = e.baseOf n := by
  unfold Enc.chunkBase Enc.baseOf
  rw [Enc.chunkHold_eq n h]
  unfold Enc.resetFlags Enc.rewinds
  by_cases hc : 65536 ≤ e.historyOffset.toNat + n
  · rcases h with h | h | h <;> rw [h] <;> cases e.firstPkt <;> simp [hc]
  · rcases h with h | h | h <;> rw [h] <;> cases e.firstPkt <;> simp [hc]

/-! ## The accepted command (42 R183 to R186) -/

@[simp] theorem Enc.begin_hist (m : BitVec 16) (bs : List Byte) (e : Enc) :
    (e.begin m bs).hist = e.hist.writeRange (e.chunkBase bs.length) bs := by
  unfold Enc.begin
  dsimp only
  rw [Enc.resetPolicy_base, Enc.resetPolicy_hist]

@[simp] theorem Enc.begin_hash (m : BitVec 16) (bs : List Byte) (e : Enc) :
    (e.begin m bs).hash = if e.chunkHold bs.length ≠ 0 then Table.cleared else e.hash := by
  unfold Enc.begin
  dsimp only
  rw [Enc.resetPolicy_hash]

@[simp] theorem Enc.begin_flagsHold (m : BitVec 16) (bs : List Byte) (e : Enc) : (e.begin m bs).flagsHold = 0 := by
  simp [Enc.begin]
@[simp] theorem Enc.begin_firstPkt (m : BitVec 16) (bs : List Byte) (e : Enc) : (e.begin m bs).firstPkt = false := by
  simp [Enc.begin]
@[simp] theorem Enc.begin_flags (m : BitVec 16) (bs : List Byte) (e : Enc) : (e.begin m bs).flags = e.flags := by
  simp [Enc.begin]
@[simp] theorem Enc.begin_opb (m : BitVec 16) (bs : List Byte) (e : Enc) : (e.begin m bs).opb = e.opb := by
  simp [Enc.begin]
@[simp] theorem Enc.begin_bytesInOpb (m : BitVec 16) (bs : List Byte) (e : Enc) :
    (e.begin m bs).bytesInOpb = e.bytesInOpb := by
  simp [Enc.begin]

/-- The transient registers of an accepted command. -/
theorem Enc.begin_work (m : BitVec 16) (bs : List Byte) (e : Enc) :
    (e.begin m bs).work = some (
      { input := bs, maxOut := m, base := e.chunkBase bs.length, ctr := 0, hold := e.chunkHold bs.length, toks := [],
        p := 0, q := 0, L := 0, hv := 0 } : EncWork) := by
  unfold Enc.begin
  dsimp only
  rw [Enc.resetPolicy_base]

/-- An accepted command starts a scan: the chunk is stored behind what the history held below `base`. -/
theorem Enc.begin_scan {e : Enc} {bs : List Byte} (m : BitVec 16) (h : e.Inv) (hn : bs ≠ []) (hl : bs.length ≤ 65535) :
    ∃ w F, (e.begin m bs).work = some w ∧ (e.begin m bs).Scan w F ∧ w.ctr = 0 ∧ w.input = bs ∧ w.maxOut = m ∧
      w.base = e.chunkBase bs.length ∧ w.hold = e.chunkHold bs.length ∧ w.toks = [] ∧
      e.hist.readRange 0 w.base = some (F.take w.base) := by
  have hfits := Enc.chunkBase_fits h.hold hl
  obtain ⟨P, hP⟩ := Memory.readRange_of_filled (Memory.filled_mono h.filled (Enc.chunkBase_le e bs.length))
    (a := 0) (k := e.chunkBase bs.length) (by omega)
  obtain ⟨hPl, hPk⟩ := Memory.readRange_eq_some.1 hP
  refine ⟨_, P ++ bs, Enc.begin_work m bs e, ?_, rfl, rfl, rfl, rfl, rfl, rfl, ?_⟩
  · exact {
      nonempty := hn
      fits := hfits
      cursor := Nat.zero_le _
      length := by rw [List.length_append, hPl]; rfl
      holds := fun a ha => by
        rw [Enc.begin_hist, Memory.read_writeRange]
        rw [List.length_append, hPl] at ha
        by_cases hb : a < e.chunkBase bs.length
        · rw [if_neg (by omega), List.getElem?_append_left (by omega), ← hPk a hb, Nat.zero_add]
        · rw [if_pos (by omega), List.getElem?_append_right (by omega), hPl]
      chunk := by
        show (P ++ bs).drop (e.chunkBase bs.length) = bs
        rw [← hPl, List.drop_left]
      hashWf := by
        rw [Enc.begin_hash]
        split
        · exact Table.cleared_wf
        · exact h.hashWf
      replays := rfl
      legal := fun t ht => nomatch ht }
  · show e.hist.readRange 0 (e.chunkBase bs.length) = some ((P ++ bs).take (e.chunkBase bs.length))
    rw [hP, ← hPl, List.take_left]

/-! ## The completed command (42 R203) -/

/-- The result of the scan `w` in the state `e` after `finish` (42 R200, R201). -/
theorem Enc.finish_eq (w : EncWork) (e : Enc) :
    e.finish w = if min w.input.length w.maxOut.toNat < ceil8 w.nbits then
      Enc.fallback w { e with historyOffset := BitVec.ofNat 16 w.fin, work := none }
    else Enc.emitCompressed w { e with historyOffset := BitVec.ofNat 16 w.fin, work := none } := rfl

theorem rawFlags_emitted {b : Byte} (h : legalHold b) : rawFlags b ∈ emittedFlags := by
  rcases h with rfl | rfl | rfl <;> decide
theorem compressedFlags_emitted {b : Byte} (h : legalHold b) : compressedFlags b ∈ emittedFlags := by
  rcases h with rfl | rfl | rfl <;> decide

/-- What a completed COMPRESS of a non-empty chunk leaves (42 R203), with the token list it emitted and the history `F`
below the new offset: the tokens replay the chunk from the history below `base` (42 R193). -/
structure Enc.Compressed (e : Enc) (m : BitVec 16) (bs : List Byte) (e' : Enc) (toks : List Token) (F : List Byte) : Prop where
  length   : F.length = e.chunkBase bs.length + bs.length
  fits     : F.length ≤ 65535
  old      : e.hist.readRange 0 (e.chunkBase bs.length) = some (F.take (e.chunkBase bs.length))
  chunk    : F.drop (e.chunkBase bs.length) = bs
  replays  : replay toks (F.take (e.chunkBase bs.length)) = some F
  legal    : ∀ t ∈ toks, t.wellFormed = true
  hist     : e'.hist = e.hist.writeRange (e.chunkBase bs.length) bs
  holds    : Holds e'.hist F
  offset   : e'.historyOffset.toNat = F.length
  hashWf   : Table.wf e'.hash
  hold     : e'.flagsHold = 0
  firstPkt : e'.firstPkt = false
  work     : e'.work = none
  raw      : min bs.length m.toNat < ceil8 (encodeTokens toks).length →
    e'.flags = rawFlags (e.chunkHold bs.length) ∧ e'.opb = bs ∧ e'.bytesInOpb.toNat = bs.length
  packed   : ceil8 (encodeTokens toks).length ≤ min bs.length m.toNat →
    e'.flags = compressedFlags (e.chunkHold bs.length) ∧ e'.opb = assemble toks ∧
      e'.bytesInOpb.toNat = ceil8 (encodeTokens toks).length

/-- COMPRESS of a non-empty chunk completes, for every `HASH` and every table (42 R202, R203; 41 R167), with the tokens its
scan emits and the table it leaves. -/
theorem Enc.compress_scanned (H : HashFn) {e : Enc} {bs : List Byte} (m : BitVec 16) (h : e.Inv) (hn : bs ≠ [])
    (hl : bs.length ≤ 65535) :
    ∃ e' toks F, e.compress H m bs = some e' ∧ e.Compressed m bs e' toks F ∧ e.Scanned H m bs toks e'.hash := by
  obtain ⟨w, F, hw, hs, hctr, hin, hm, hbase, hhold, -, hold⟩ := Enc.begin_scan m h hn hl
  obtain ⟨e₁, w₁, he, hs₁, hend, hfr, n₁, hn₁⟩ := Enc.runCommand_some H (n := bs.length + 1) hw hs (by rw [hin]; omega)
  have hin₁ : w₁.input = bs := hfr.input.trans hin
  have hbase₁ : w₁.base = e.chunkBase bs.length := hfr.base.trans hbase
  have hfin : w₁.fin = F.length := hs₁.length.symm
  have hFl : F.length = e.chunkBase bs.length + bs.length := by rw [hs₁.length, EncWork.fin, hbase₁, hin₁]
  have hsame := hfr.same
  have hhist : e₁.hist = e.hist.writeRange (e.chunkBase bs.length) bs := by
    have := congrArg Enc.hist hsame
    rw [Enc.begin_hist] at this
    exact this
  refine ⟨e₁.finish w₁, w₁.toks, F, ?_, ?_, n₁, e₁, w₁, hn₁, hfr.work, hend, rfl, (Enc.finish_hash _ _).symm⟩
  · unfold Enc.compress
    rw [if_neg hn, he]
  · exact {
      length := hFl
      fits := hs₁.length ▸ hs₁.fits
      old := by rw [← hbase]; exact hold
      chunk := by rw [← hbase₁, hs₁.chunk, hin₁]
      replays := by
        have := hs₁.replays
        rw [hbase₁, hend, hin₁, ← hFl, List.take_length] at this
        exact this
      legal := hs₁.legal
      hist := by rw [Enc.finish_hist, hhist]
      holds := by rw [Enc.finish_hist]; exact hs₁.holds
      offset := by
        rw [Enc.finish_historyOffset, BitVec.toNat_ofNat, hfin]
        have := hs₁.fits
        omega
      hashWf := by rw [Enc.finish_hash]; exact hs₁.hashWf
      hold := by
        rw [Enc.finish_flagsHold]
        have := congrArg Enc.flagsHold hsame
        rw [Enc.begin_flagsHold] at this
        exact this
      firstPkt := by
        rw [Enc.finish_firstPkt]
        have := congrArg Enc.firstPkt hsame
        rw [Enc.begin_firstPkt] at this
        exact this
      work := Enc.finish_work _ _
      raw := fun hc => by
        rw [Enc.finish_eq, if_pos (by rw [hin₁, hfr.maxOut, hm]; exact hc)]
        refine ⟨by rw [← hhold, ← hfr.hold]; rfl, by rw [← hin₁]; rfl, ?_⟩
        show (BitVec.ofNat 16 w₁.input.length).toNat = _
        rw [hin₁, BitVec.toNat_ofNat]
        omega
      packed := fun hc => by
        rw [Enc.finish_eq, if_neg (by rw [hin₁, hfr.maxOut, hm]; exact Nat.not_lt.2 hc)]
        refine ⟨by rw [← hhold, ← hfr.hold]; rfl, rfl, ?_⟩
        show (BitVec.ofNat 16 (ceil8 (encodeTokens w₁.toks).length)).toNat = _
        rw [BitVec.toNat_ofNat]
        omega }

/-- COMPRESS of a non-empty chunk completes. -/
theorem Enc.compress_spec (H : HashFn) {e : Enc} {bs : List Byte} (m : BitVec 16) (h : e.Inv) (hn : bs ≠ [])
    (hl : bs.length ≤ 65535) : ∃ e' toks F, e.compress H m bs = some e' ∧ e.Compressed m bs e' toks F :=
  let ⟨e', toks, F, he, hc, _⟩ := Enc.compress_scanned H m h hn hl
  ⟨e', toks, F, he, hc⟩

theorem Enc.Compressed.output_raw {e e' : Enc} {m : BitVec 16} {bs F : List Byte} {toks : List Token}
    (h : e.Compressed m bs e' toks F) (hc : min bs.length m.toNat < ceil8 (encodeTokens toks).length) : e'.output = bs := by
  obtain ⟨-, h1, h2⟩ := h.raw hc
  rw [Enc.output, h1, h2, List.take_length]

theorem Enc.Compressed.output_packed {e e' : Enc} {m : BitVec 16} {bs F : List Byte} {toks : List Token}
    (h : e.Compressed m bs e' toks F) (hc : ceil8 (encodeTokens toks).length ≤ min bs.length m.toNat) :
    e'.output = assemble toks := by
  obtain ⟨-, h1, h2⟩ := h.packed hc
  rw [Enc.output, h1, h2, assemble, ← bitsToBytes_length, List.take_length]

/-- A completed COMPRESS keeps the compressor's invariant. -/
theorem Enc.Compressed.inv {e e' : Enc} {m : BitVec 16} {bs F : List Byte} {toks : List Token}
    (hi : e.Inv) (h : e.Compressed m bs e' toks F) : e'.Inv where
  histWf := by
    rw [h.hist]
    exact Memory.writeRange_wf (by have := h.length; have := h.fits; omega) hi.histWf
  hashWf := h.hashWf
  hold := .inl h.hold
  flags := by
    have hl := Enc.chunkHold_legal bs.length hi.hold
    by_cases hc : min bs.length m.toNat < ceil8 (encodeTokens toks).length
    · rw [(h.raw hc).1]; exact .inr (rawFlags_emitted hl)
    · rw [(h.packed (Nat.le_of_not_lt hc)).1]; exact .inr (compressedFlags_emitted hl)
  staged := by
    by_cases hc : min bs.length m.toNat < ceil8 (encodeTokens toks).length
    · obtain ⟨-, h1, h2⟩ := h.raw hc
      rw [h1, h2]
    · obtain ⟨-, h1, h2⟩ := h.packed (Nat.le_of_not_lt hc)
      rw [h1, h2, assemble, bitsToBytes_length]
  capacity := by
    have hb : bs.length ≤ 65535 := by have := h.length; have := h.fits; omega
    by_cases hc : min bs.length m.toNat < ceil8 (encodeTokens toks).length
    · rw [(h.raw hc).2.1]; exact Nat.le_add_right_of_le hb
    · rw [(h.packed (Nat.le_of_not_lt hc)).2.1, assemble, bitsToBytes_length]
      exact Nat.le_add_right_of_le (Nat.le_trans (Nat.le_of_not_lt hc) (Nat.le_trans (Nat.min_le_left _ _) hb))
  filled := fun a ha => by
    rw [h.offset] at ha
    rw [h.holds.some ha]; rfl
  working := fun w hw => by rw [h.work] at hw; exact nomatch hw

end Sys2Proof.Machine
end

