-- ==== Sys2Proof/Laws/Progress.lean ====
section
/-! SUPPORT. A DECOMPRESS always completes (spec 70 R325): what a finer step can do, that it keeps the decompressor's
invariant, and the bound on the number of finer steps. -/

namespace Sys2Proof.Machine

/-! ## Taking a fault -/

theorem Cause.code_ne (c : Cause) : c.code ≠ 0 ∧ c.code ≠ 7 := by cases c <;> decide

theorem Dec.faultEntry_wf {d : Dec} (c : Cause) (h : Memory.wf d.hist) : Memory.wf (d.faultEntry c).hist := by
  unfold Dec.faultEntry
  dsimp only
  split
  · exact h
  · exact Memory.ofFn_wf _ (by simp)

/-- The fault state meets the invariant. -/
theorem Dec.faultEntry_inv {d : Dec} (c : Cause) (h : Memory.wf d.hist) : (d.faultEntry c).Inv where
  histWf := Dec.faultEntry_wf c h
  noCode := by simp
  code := fun _ => by rw [Dec.faultEntry_faultCode]; exact Cause.code_ne c
  noView := by simp
  cursor := by simp
  filled := by simp
  view := by simp
  working := by simp

/-! ## The match copy never stops -/

theorem Dec.copyBytes_total {off n : Nat} {d : Dec} (hc : d.historyPtr.toNat ≤ d.validHi.toNat)
    (hf : d.hist.filled d.validHi.toNat) :
    (∃ d', d.copyBytes off n = .ok d' ∧ d.Grew d' n ∧
      ∃ g : DecWork → Pos, d'.work = d.work.map fun w => { w with src := g w }) ∨
    ∃ c, d.copyBytes off n = .error (.raise c) := by
  induction n generalizing d with
  | zero => exact .inl ⟨d, rfl, Dec.Grew.zero hc, fun w => w.src, by simp⟩
  | succ n ih =>
    rw [Dec.copyBytes]
    by_cases hs : (d.source off).toNat < d.validHi.toNat
    · by_cases hp : d.historyPtr.toNat < 65535
      · obtain ⟨b, hb⟩ := Option.isSome_iff_exists.1 (hf _ hs)
        rw [Dec.copyByte_ok hs hb hp]
        have hg : d.Grew ((d.setWork fun w => { w with src := d.source off }).wrote b) 1 := by
          have := (Dec.Grew.setWork (d := d) (fun w => { w with src := d.source off }) hc).trans
            (Dec.Grew.wrote (b := b) (d := d.setWork fun w => { w with src := d.source off }) hp hc)
          simpa using this
        obtain ⟨d', he, hg', g, hw⟩ | ⟨c, he⟩ := ih hg.cursor (hg.fill hf)
        · refine .inl ⟨d', he, by rw [Nat.add_comm]; exact hg.trans hg', fun w => g { w with src := d.source off }, ?_⟩
          rw [hw]
          show Option.map _ (Option.map _ d.work) = _
          rw [Option.map_map]; rfl
        · exact .inr ⟨c, he⟩
      · rw [Dec.copyByte_full hs hf (by omega)]; exact .inr ⟨_, rfl⟩
    · rw [Dec.copyByte_outside (by omega)]; exact .inr ⟨_, rfl⟩

theorem Dec.copyMatch_total {off n : Nat} {d : Dec} (hc : d.historyPtr.toNat ≤ d.validHi.toNat)
    (hf : d.hist.filled d.validHi.toNat) :
    (∃ d', d.copyMatch off n = .ok d' ∧ d.Grew d' n ∧
      ∃ g : DecWork → Pos, d'.work = d.work.map fun w => { w with src := g w }) ∨
    ∃ c, d.copyMatch off n = .error (.raise c) := by
  unfold Dec.copyMatch
  split
  · exact .inr ⟨_, rfl⟩
  split
  · exact .inr ⟨_, rfl⟩
  exact Dec.copyBytes_total hc hf

/-! ## What a finer step can do -/

/-- How many finer steps are left at most: two for every eight bits, and the end. -/
def DecWork.left (w : DecWork) : Nat :=
  match w.phase with
  | .flags => 2 * w.payload.length + 2
  | .raw => 1
  | .token => 2 * (w.bitsLeft / 8) + 1
  | .length => 2 * ((w.bitsLeft + 11) / 8)

/-- The finer steps left in a state. -/
def Dec.left (d : Dec) : Nat :=
  match d.work with
  | none => 0
  | some w => w.left

theorem Dec.left_some {d : Dec} {w : DecWork} (h : d.work = some w) : d.left = w.left := by
  unfold Dec.left; rw [h]

theorem Dec.left_none {d : Dec} (h : d.work = none) : d.left = 0 := by
  unfold Dec.left; rw [h]

/-- What a finer step of the command `w` can do: take a fault; grow the history by some bytes and go on or complete;
process the flags byte. -/
inductive Dec.StepTo (d : Dec) (w : DecWork) : Dec → Prop where
  | fault (c : Cause) (w' : Option DecWork) : Dec.StepTo d w ({ d with work := w' }.faultEntry c)
  | grow {d' : Dec} {w' : DecWork} (n : Nat) (hg : d.Grew d' n) (hw : d'.work = some w') (hs : w'.start = w.start)
      (hl : w'.left < w.left) (hp : w'.phase ≠ .flags) : Dec.StepTo d w d'
  | done {d' : Dec} {w' : DecWork} (n : Nat) (hg : d.Grew d' n) (hs : w'.start = w.start) :
      Dec.StepTo d w (d'.finish w')
  | flags {w' : DecWork} (f a : Bool) (hs : w'.start = (d.applyFlags f a).historyPtr) (hl : w'.left < w.left)
      (hp : w.phase = .flags) : Dec.StepTo d w { d.applyFlags f a with work := some w' }

/-- A row read from the stream advances the cursor by the row's width, at least. -/
theorem decodeToken_ok {bits : Bits} {i : Instr} {n : Nat} (h : decodeToken bits = .ok (i, n)) :
    (i.literal?.isSome = true ∧ 8 ≤ n ∧ n ≤ bits.length) ∨ (i.offset?.isSome = true ∧ 11 ≤ n ∧ n ≤ bits.length) := by
  unfold decodeToken at h
  split at h
  all_goals first
    | (obtain ⟨v, rfl, rfl, hk, -⟩ := field_eq_ok h
       first
         | exact .inl ⟨rfl, by omega, by simp only [List.length_cons]; omega⟩
         | exact .inr ⟨rfl, by omega, by simp only [List.length_cons]; omega⟩)
    | exact nomatch h

theorem lengthClass_ok {n m : Nat} {r : Bits} {i : Instr} (h : lengthClass n r = .ok (i, m)) :
    (i.lengthCode?.isSome = true ∨ i = .lenReserved) ∧ 1 ≤ m := by
  unfold lengthClass at h
  split at h
  all_goals first
    | (obtain ⟨v, rfl, rfl, -, -⟩ := field_eq_ok h; exact ⟨.inl rfl, by omega⟩)
    | (cases h; exact ⟨.inl rfl, by omega⟩)
    | (cases h; exact ⟨.inr rfl, by omega⟩)

theorem decodeLengthFrom_ok {n m : Nat} {bits : Bits} {i : Instr} (h : decodeLengthFrom n bits = .ok (i, m)) :
    (i.lengthCode?.isSome = true ∨ i = .lenReserved) ∧ 1 ≤ m ∧ 1 ≤ bits.length := by
  induction bits generalizing n with
  | nil => cases n <;> exact nomatch h
  | cons b r ih =>
    cases b with
    | false => exact ⟨(lengthClass_ok h).1, (lengthClass_ok h).2, by simp⟩
    | true =>
      rw [decodeLengthFrom] at h
      split at h
      · cases h; exact ⟨.inr rfl, by omega, by simp⟩
      · exact ⟨(ih h).1, (ih h).2.1, by simp⟩

theorem decodeLength_ok {m : Nat} {bits : Bits} {i : Instr} (h : decodeLength bits = .ok (i, m)) :
    (i.lengthCode?.isSome = true ∨ i = .lenReserved) ∧ 1 ≤ m ∧ 1 ≤ bits.length := decodeLengthFrom_ok h

/-- A finer step of a command in progress never stops, and does one of the four things of `StepTo`. -/
theorem Dec.microStep_spec {d : Dec} {w : DecWork} (hw : d.work = some w)
    (hc : d.historyPtr.toNat ≤ d.validHi.toNat) (hf : d.hist.filled d.validHi.toNat) :
    ∃ d', d.microStep = .ok d' ∧ d.StepTo w d' := by
  have hwork : ∀ r, ({ d with work := r } : Dec).historyPtr.toNat ≤ ({ d with work := r } : Dec).validHi.toNat := fun _ => hc
  have hgw : ∀ {w1 : Option DecWork} {d' : Dec} {n}, ({ d with work := w1 } : Dec).Grew d' n → d.Grew d' n :=
    fun hg => ⟨hg.ptr, hg.valid, hg.fill, hg.wf, hg.same, congrArg (fun x : Dec => { x with work := d.work }) hg.rest⟩
  have hd : { d with work := some w } = d := by rw [← hw]
  unfold Dec.microStep
  rw [hw]
  dsimp only
  unfold Dec.fetch
  cases hp : w.phase with
  | flags =>
    dsimp only [Dec.fetchAt, decode, decodeFlags]
    by_cases hb : w.flags &&& 0x1F = 0x01
    · rw [if_pos hb]
      dsimp only [Dec.setWork]
      rw [hw]
      refine ⟨_, rfl, Dec.StepTo.flags _ _ rfl ?_ hp⟩
      unfold DecWork.left
      rw [hp]
      cases w.flags.getLsbD 5
      · exact (by omega : 1 < 2 * w.payload.length + 2)
      · exact (by omega : 2 * ((8 * w.payload.length - 0) / 8) + 1 < 2 * w.payload.length + 2)
    · rw [if_neg hb]
      exact ⟨_, rfl, by have := Dec.StepTo.fault (d := d) (w := w) .badFlags (some w); rwa [hd] at this⟩
  | raw =>
    dsimp only
    by_cases ho : d.historyPtr.toNat + w.payload.length ≤ 65535
    · obtain ⟨d', he, hg, -⟩ := Dec.rawAppend_ok hc ho
      rw [he]
      exact ⟨_, rfl, .done _ hg rfl⟩
    · rw [Dec.rawAppend_overflow (by omega)]
      exact ⟨_, rfl, by have := Dec.StepTo.fault (d := d) (w := w) .historyOverflow (some w); rwa [hd] at this⟩
  | token =>
    dsimp only
    by_cases h8 : w.bitsLeft < 8
    · rw [if_pos h8]
      exact ⟨_, rfl, .done 0 (Dec.Grew.zero hc) rfl⟩
    · rw [if_neg h8]
      dsimp only [Dec.fetchAt, decode]
      cases hdec : decodeToken w.bits with
      | error r =>
        exact ⟨_, rfl, by have := Dec.StepTo.fault (d := d) (w := w) (rejectCause r) (some w); rwa [hd] at this⟩
      | ok p =>
        obtain ⟨i, n⟩ := p
        dsimp only [Dec.setWork]
        rw [hw, Option.map_some]
        obtain ⟨hi, hn, hnl⟩ | ⟨hi, hn, hnl⟩ := decodeToken_ok hdec
        · obtain ⟨b, hb⟩ := Option.isSome_iff_exists.1 hi
          rw [Dec.streamOp_literal hb]
          unfold Dec.literal Dec.inCommand
          dsimp only
          by_cases hptr : d.historyPtr.toNat < 65535
          · rw [Dec.writeByte_ok (by exact hptr)]
            refine ⟨_, rfl, Dec.StepTo.grow 1 (hgw (Dec.Grew.wrote (by exact hptr) (by exact hc))) rfl rfl ?_
              (by show w.phase ≠ _; rw [hp]; exact nofun)⟩
            unfold DecWork.left
            rw [hp]
            simp only [DecWork.bitsLeft] at h8 ⊢
            omega
          · rw [Dec.writeByte_full (by exact (by omega : 65535 ≤ d.historyPtr.toNat))]
            exact ⟨_, rfl, .fault _ _⟩
        · obtain ⟨off, ho⟩ := Option.isSome_iff_exists.1 hi
          rw [Dec.streamOp_offset ho]
          refine ⟨_, rfl, Dec.StepTo.grow (w' := ({ w with bitpos := w.bitpos + n } : DecWork).setOffset off) 0
            (hgw (Dec.Grew.setWork (d := { d with work := _ }) _ (by exact hc))) rfl rfl ?_ nofun⟩
          rw [DecWork.bits_length] at hnl
          unfold DecWork.left
          rw [hp]
          simp only [DecWork.setOffset_phase, DecWork.bitsLeft, DecWork.setOffset_payload, DecWork.setOffset_bitpos] at h8 hnl ⊢
          omega
  | length =>
    dsimp only [Dec.fetchAt, decode]
    cases hdec : decodeLength w.bits with
    | error r =>
      exact ⟨_, rfl, by have := Dec.StepTo.fault (d := d) (w := w) (rejectCause r) (some w); rwa [hd] at this⟩
    | ok p =>
      obtain ⟨i, n⟩ := p
      dsimp only [Dec.setWork]
      rw [hw, Option.map_some]
      obtain ⟨hi, hn, hl⟩ := decodeLength_ok hdec
      rw [DecWork.bits_length] at hl
      rcases hi with hi | rfl
      · obtain ⟨c, hcode⟩ := Option.isSome_iff_exists.1 hi
        rw [Dec.streamOp_length hcode]
        unfold Dec.matchLength Dec.inCommand
        dsimp only [Dec.setWork, Option.map_some]
        obtain ⟨d', he, hg, g, hw'⟩ | ⟨x, he⟩ := Dec.copyMatch_total (d := { d with work := some (DecWork.setLength c.1 c.2
          { w with bitpos := w.bitpos + n }) }) (off := DecWork.offset { w with bitpos := w.bitpos + n })
          (n := lengthValue c.1 c.2) (by exact hc) (by exact hf)
        · rw [he]
          refine ⟨_, rfl, Dec.StepTo.grow _ (hgw hg) hw' rfl ?_ nofun⟩
          unfold DecWork.left
          rw [hp]
          simp only [DecWork.setLength_phase, DecWork.bitsLeft, DecWork.setLength_payload, DecWork.setLength_bitpos] at hl ⊢
          omega
        · rw [he]
          exact ⟨_, rfl, .fault _ _⟩
      · exact ⟨_, rfl, .fault _ _⟩

/-! ## The invariant -/

theorem Dec.applyFlags_cursor {d : Dec} (f a : Bool) (hc : d.historyPtr.toNat ≤ d.validHi.toNat) :
    (d.applyFlags f a).historyPtr.toNat ≤ (d.applyFlags f a).validHi.toNat := by
  cases f <;> cases a <;> simp [Dec.applyFlags, hc]

theorem Dec.applyFlags_filled {d : Dec} (f a : Bool) (hf : d.hist.filled d.validHi.toNat) :
    (d.applyFlags f a).hist.filled (d.applyFlags f a).validHi.toNat := by
  cases f
  · exact hf
  · exact Memory.filled_zero _

/-- What growing leaves alone. -/
theorem Dec.Grew.faulted {d d' : Dec} {n : Nat} (h : d.Grew d' n) : d'.faulted = d.faulted := by
  have := congrArg Dec.faulted h.rest
  exact this
theorem Dec.Grew.faultCode {d d' : Dec} {n : Nat} (h : d.Grew d' n) : d'.faultCode = d.faultCode := by
  have := congrArg Dec.faultCode h.rest
  exact this
theorem Dec.Grew.viewStart {d d' : Dec} {n : Nat} (h : d.Grew d' n) : d'.viewStart = d.viewStart := by
  have := congrArg Dec.viewStart h.rest
  exact this
theorem Dec.Grew.viewLen {d d' : Dec} {n : Nat} (h : d.Grew d' n) : d'.viewLen = d.viewLen := by
  have := congrArg Dec.viewLen h.rest
  exact this
theorem Dec.Grew.freeCtr {d d' : Dec} {n : Nat} (h : d.Grew d' n) : d'.freeCtr = d.freeCtr := by
  have := congrArg Dec.freeCtr h.rest
  exact this

theorem Dec.stepTo_inv {d d' : Dec} {w : DecWork} (hw : d.work = some w) (h : d.Inv) (hs : d.StepTo w d') : d'.Inv := by
  obtain ⟨hnf, hst⟩ := h.working w hw
  cases hs with
  | fault c w' => exact Dec.faultEntry_inv c h.histWf
  | grow n hg hw' hs hl _ =>
    exact {
      histWf := hg.wf h.histWf
      noCode := fun _ => hg.faultCode.trans (h.noCode hnf)
      code := fun hfa => by rw [hg.faulted, hnf] at hfa; exact nomatch hfa
      noView := fun hfa => by rw [hg.faulted, hnf] at hfa; exact nomatch hfa
      cursor := fun _ => hg.cursor
      filled := fun _ => hg.fill (h.filled hnf)
      view := fun _ hn => by rw [hw'] at hn; exact nomatch hn
      working := fun v hv => by
        rw [hw'] at hv
        cases hv
        exact ⟨hg.faulted.trans hnf, by rw [hs, hg.ptr]; omega⟩ }
  | @done d₁ w' n hg hs =>
    exact {
      histWf := hg.wf h.histWf
      noCode := fun _ => hg.faultCode.trans (h.noCode hnf)
      code := fun hfa => by
        have : d₁.faulted = true := hfa
        rw [hg.faulted, hnf] at this; exact nomatch this
      noView := fun hfa => by
        have : d₁.faulted = true := hfa
        rw [hg.faulted, hnf] at this; exact nomatch this
      cursor := fun _ => hg.cursor
      filled := fun _ => hg.fill (h.filled hnf)
      view := fun _ _ => by
        show w'.start.toNat + (d₁.historyPtr - w'.start).toNat = d₁.historyPtr.toNat
        rw [hs, BitVec.toNat_sub_of_le (by rw [BitVec.le_def, hg.ptr]; omega), hg.ptr]
        omega
      working := fun v hv => nomatch hv }
  | @flags w' f a hs hl _ =>
    exact {
      histWf := h.histWf
      noCode := fun _ => h.noCode hnf
      code := fun hfa => by
        have : d.faulted = true := hfa
        rw [hnf] at this; exact nomatch this
      noView := fun hfa => by
        have : d.faulted = true := hfa
        rw [hnf] at this; exact nomatch this
      cursor := fun _ => Dec.applyFlags_cursor f a (h.cursor hnf)
      filled := fun _ => Dec.applyFlags_filled f a (h.filled hnf)
      view := fun _ hn => nomatch hn
      working := fun v hv => by cases hv; exact ⟨hnf, by rw [hs]⟩ }

/-- A finer step from a state that meets the invariant never stops, keeps it, and brings the end nearer. -/
theorem Dec.microStep_inv {d : Dec} {w : DecWork} (hw : d.work = some w) (h : d.Inv) :
    ∃ d', d.microStep = .ok d' ∧ d'.Inv ∧ d'.left < d.left := by
  obtain ⟨hnf, -⟩ := h.working w hw
  obtain ⟨d', he, hs⟩ := Dec.microStep_spec hw (h.cursor hnf) (h.filled hnf)
  have hleft : 0 < d.left := by
    rw [Dec.left_some hw]
    unfold DecWork.left
    cases w.phase <;> dsimp only <;> omega
  refine ⟨d', he, Dec.stepTo_inv hw h hs, ?_⟩
  cases hs with
  | fault c w' => rw [Dec.left_none (Dec.faultEntry_work _ _)]; exact hleft
  | grow n hg hw' hs hl _ => rw [Dec.left_some hw', Dec.left_some hw]; exact hl
  | done n hg hs => rw [Dec.left_none rfl]; exact hleft
  | flags f a hs hl _ => rw [Dec.left_some rfl, Dec.left_some hw]; exact hl

/-- The run of a command in progress completes (70 R325). -/
theorem Dec.runCommand_completes {n : Nat} {d : Dec} (h : d.Inv) (hn : d.left ≤ n) :
    ∃ d', Dec.runCommand n d = .ok d' ∧ d'.Inv ∧ d'.work = none := by
  induction n generalizing d with
  | zero =>
    refine ⟨d, rfl, h, ?_⟩
    cases hw : d.work with
    | none => rfl
    | some w =>
      rw [Dec.left_some hw] at hn
      unfold DecWork.left at hn
      cases hp : w.phase <;> rw [hp] at hn <;> dsimp only at hn <;> omega
  | succ n ih =>
    cases hw : d.work with
    | none => exact ⟨d, Dec.runCommand_done hw, h, hw⟩
    | some w =>
      obtain ⟨d', he, hi, hl⟩ := Dec.microStep_inv hw h
      rw [Dec.runCommand_succ (by rw [hw]; rfl) he]
      exact ih hi (by omega)

/-- The accepted command in a state that meets the invariant. -/
theorem Dec.begin_inv {d : Dec} (b : Byte) (bs : List Byte) (h : d.Inv) (hf : d.faulted = false) : (d.begin b bs).Inv where
  histWf := h.histWf
  noCode := h.noCode
  code := h.code
  noView := h.noView
  cursor := h.cursor
  filled := h.filled
  view := fun _ hn => nomatch hn
  working := fun v hv => by cases hv; exact ⟨hf, by show (0 : Pos).toNat ≤ _; simp⟩

/-- DECOMPRESS completes from every state that meets the invariant, whatever the flags byte and the payload (43 R220). -/
theorem Dec.decompress_completes {d : Dec} (b : Byte) (bs : List Byte) (h : d.Inv) :
    ∃ d', d.decompress b bs = .ok d' ∧ d'.Inv ∧ (d.work = none → d'.work = none) := by
  unfold Dec.decompress
  by_cases hf : d.faulted = true
  · rw [if_pos hf]; exact ⟨d, rfl, h, id⟩
  · rw [if_neg hf]
    have hf : d.faulted = false := by simpa using hf
    obtain ⟨d', he, hi, hw⟩ := Dec.runCommand_completes (n := commandSteps bs.length) (Dec.begin_inv b bs h hf)
      (Nat.le_refl (2 * bs.length + 2))
    exact ⟨d', he, hi, fun _ => hw⟩

end Sys2Proof.Machine
end

