-- ==== Sys2Proof/Laws/Pair.lean ====
section
/-! SUPPORT. DECOMPRESS of a raw chunk and of a packed token list, and one chunk through a pair of engines (spec 43 R222 to
R239). -/

namespace Sys2Proof.Machine

/-! ## The flags byte (30 R91 to R93) -/

theorem decodeFlags_raw {b : Byte} (h : legalHold b) :
    decodeFlags (rawFlags b) = .ok (.flags (b.getLsbD 7) (b.getLsbD 6) false, 8) := by
  rcases h with rfl | rfl | rfl <;> rfl
theorem decodeFlags_compressed {b : Byte} (h : legalHold b) :
    decodeFlags (compressedFlags b) = .ok (.flags (b.getLsbD 7) (b.getLsbD 6) true, 8) := by
  rcases h with rfl | rfl | rfl <;> rfl

/-! ## The accepted command after its flags byte (43 R223 to R225) -/

/-- The transient registers when the flags byte has been processed. -/
def Dec.openedWork (fb : Byte) (bs : List Byte) (f a c : Bool) (d : Dec) : DecWork :=
  { payload := bs, flags := fb, phase := if c then .token else .raw, start := (d.applyFlags f a).historyPtr, bitpos := 0,
    off := 0, mlen := 0, src := 0, ones := 0 }

/-- The command's state when the flags byte has been processed. -/
def Dec.opened (fb : Byte) (bs : List Byte) (f a c : Bool) (d : Dec) : Dec :=
  { d.applyFlags f a with work := some (d.openedWork fb bs f a c) }

theorem Dec.decompress_flags {d : Dec} {fb : Byte} {bs : List Byte} {f a c : Bool} {n : Nat} (hf : d.faulted = false)
    (hd : decodeFlags fb = .ok (.flags f a c, n)) :
    d.decompress fb bs = (d.opened fb bs f a c).runCommand (2 * bs.length + 1) := by
  unfold Dec.decompress
  rw [if_neg (by simp [hf])]
  refine Dec.runCommand_succ rfl ?_
  unfold Dec.microStep Dec.fetch Dec.fetchAt Dec.begin decode
  dsimp only
  rw [hd]
  rfl

/-- BadFlags (43 R222): the state is not changed but by the fault entry. -/
theorem Dec.decompress_badFlags {d : Dec} {fb : Byte} (bs : List Byte) (hf : d.faulted = false)
    (hd : ¬ fb &&& 0x1F = 0x01) :
    d.decompress fb bs = .ok { d with faulted := true, faultCode := 1, viewLen := 0, work := none } := by
  unfold Dec.decompress
  rw [if_neg (by simp [hf])]
  refine (Dec.runCommand_succ (d' := { d with faulted := true, faultCode := 1, viewLen := 0, work := none }) rfl ?_).trans
    (Dec.runCommand_done rfl)
  unfold Dec.microStep Dec.fetch Dec.fetchAt Dec.begin decode decodeFlags
  dsimp only
  rw [if_neg hd]
  rfl

/-! ## Chunks -/

/-- The finished command's result view is the bytes it appended (43 R238). -/
theorem Dec.finish_output {d₀ d : Dec} {w : DecWork} {n : Nat} {out : List Byte} (hg : d₀.Grew d n)
    (hf : d₀.faulted = false) (hs : w.start = d₀.historyPtr) (ho : d.hist.readRange 0 d.historyPtr.toNat = some out) :
    (d.finish w).output = some (out.drop d₀.historyPtr.toNat) := by
  have hf' : d.faulted = false := hg.faulted.trans hf
  obtain ⟨hl, hk⟩ := Memory.readRange_eq_some.1 ho
  have hptr := hg.ptr
  have hlen : (d.historyPtr - w.start).toNat = n := by
    rw [hs, BitVec.toNat_sub_of_le (by rw [BitVec.le_def, hptr]; omega), hptr]
    omega
  unfold Dec.output
  show (if d.faulted = true then none else d.hist.readRange w.start.toNat (d.historyPtr - w.start).toNat) = _
  rw [hf', if_neg (by simp), hlen, hs]
  refine Memory.readRange_eq_some.2 ⟨by rw [List.length_drop, hl, hptr]; omega, fun k hkn => ?_⟩
  rw [List.getElem?_drop, ← hk _ (by omega), Nat.zero_add]

/-- A raw chunk that fits (43 R227): its bytes are appended behind the chunk's start, and the command is complete. -/
theorem Dec.decompress_raw {d : Dec} {fb : Byte} {bs : List Byte} {f a : Bool} {n : Nat} {P : List Byte}
    (hf : d.faulted = false) (hc : d.historyPtr.toNat ≤ d.validHi.toNat) (hd : decodeFlags fb = .ok (.flags f a false, n))
    (hP : (d.applyFlags f a).hist.readRange 0 (d.applyFlags f a).historyPtr.toNat = some P)
    (hfit : (d.applyFlags f a).historyPtr.toNat + bs.length ≤ 65535) :
    ∃ d₁ w₁, d.decompress fb bs = .ok (d₁.finish w₁) ∧ w₁.start = (d.applyFlags f a).historyPtr ∧
      (d.opened fb bs f a false).Grew d₁ bs.length ∧ d₁.hist.readRange 0 d₁.historyPtr.toNat = some (P ++ bs) := by
  obtain ⟨hPl, hPk⟩ := Memory.readRange_eq_some.1 hP
  obtain ⟨d₁, he, hg, -, hr⟩ := Dec.rawAppend_ok (d := d.opened fb bs f a false) (bs := bs)
    (Dec.applyFlags_cursor f a hc) hfit
  have hptr : d₁.historyPtr.toNat = (d.applyFlags f a).historyPtr.toNat + bs.length := hg.ptr
  refine ⟨d₁, d.openedWork fb bs f a false, ?_, rfl, hg, ?_⟩
  · rw [Dec.decompress_flags hf hd]
    refine (Dec.runCommand_succ rfl ?_).trans (Dec.runCommand_done rfl)
    have hfetch : (d.opened fb bs f a false).fetch (d.openedWork fb bs f a false)
        = .quiet (d₁.finish (d.openedWork fb bs f a false)) := by
      unfold Dec.fetch
      show (match (d.opened fb bs f a false).rawAppend bs with
        | .ok d' => Fetched.quiet (d'.finish (d.openedWork fb bs f a false))
        | .error e => Fetched.ofExcept ((d.opened fb bs f a false).take (.error e))) = _
      rw [he]
    have hw : (d.opened fb bs f a false).work = some (d.openedWork fb bs f a false) := rfl
    unfold Dec.microStep
    simp only [hw, hfetch]
  · have hold : Holds d₁.hist (P ++ bs) := fun k hk => by
      rw [List.length_append, hPl] at hk
      by_cases hkp : k < P.length
      · rw [List.getElem?_append_left hkp, hg.same k (.inl (by rw [hPl] at hkp; exact hkp)), ← hPk k (by omega),
          Nat.zero_add]
        rfl
      · rw [List.getElem?_append_right (by omega), ← hr _ (by omega)]
        congr 1
        show k = (d.applyFlags f a).historyPtr.toNat + (k - P.length)
        omega
    have := holds_iff.1 hold
    rwa [List.length_append, hPl, ← hptr] at this

/-- A raw chunk that does not fit (43 R227): HistoryOverflow. -/
theorem Dec.decompress_raw_overflow {d : Dec} {fb : Byte} {bs : List Byte} {f a : Bool} {n : Nat}
    (hf : d.faulted = false) (hd : decodeFlags fb = .ok (.flags f a false, n))
    (hfit : 65535 < (d.applyFlags f a).historyPtr.toNat + bs.length) :
    d.decompress fb bs = .ok ((d.opened fb bs f a false).faultEntry .historyOverflow) := by
  rw [Dec.decompress_flags hf hd]
  refine (Dec.runCommand_succ rfl ?_).trans (Dec.runCommand_done (Dec.faultEntry_work _ _))
  have hfetch : (d.opened fb bs f a false).fetch (d.openedWork fb bs f a false)
      = .quiet ((d.opened fb bs f a false).faultEntry .historyOverflow) := by
    unfold Dec.fetch
    show (match (d.opened fb bs f a false).rawAppend bs with
      | .ok d' => Fetched.quiet (d'.finish (d.openedWork fb bs f a false))
      | .error e => Fetched.ofExcept ((d.opened fb bs f a false).take (.error e))) = _
    rw [Dec.rawAppend_overflow (by exact hfit)]
    rfl
  have hw : (d.opened fb bs f a false).work = some (d.openedWork fb bs f a false) := rfl
  unfold Dec.microStep
  simp only [hw, hfetch]

/-- A payload that is a packed token list and less than eight bits more (43 R226): where the replay of the tokens fits, it
is the history, and the command is complete. -/
theorem Dec.decompress_packed {d : Dec} {fb : Byte} {bs : List Byte} {ts : List Token} {pad : Bits} {f a : Bool} {n : Nat}
    {P out : List Byte} (hf : d.faulted = false) (hc : d.historyPtr.toNat ≤ d.validHi.toNat)
    (hd : decodeFlags fb = .ok (.flags f a true, n)) (hb : bytesToBits bs = encodeTokens ts ++ pad) (hpad : pad.length < 8)
    (hP : (d.applyFlags f a).hist.readRange 0 (d.applyFlags f a).historyPtr.toNat = some P)
    (hts : ∀ t ∈ ts, t.wellFormed = true) (hr : replay ts P = some out) (hfit : out.length ≤ 65535) :
    ∃ d₁ w₁, d.decompress fb bs = .ok (d₁.finish w₁) ∧ w₁.start = (d.applyFlags f a).historyPtr ∧
      (d.opened fb bs f a true).Grew d₁ (out.length - P.length) ∧ d₁.hist.readRange 0 d₁.historyPtr.toNat = some out := by
  obtain ⟨d₁, w₁, he, hs, hg, ho⟩ := Dec.run_tokens (d := d.opened fb bs f a true) (ts := ts) (n := 2 * bs.length + 1)
    (pad := pad) rfl rfl (by show (bytesToBits bs).drop 0 = _; rw [List.drop_zero]; exact hb) hpad hts
    (Dec.applyFlags_cursor f a hc) hP hr hfit (by
      have := congrArg List.length hb
      rw [bytesToBits_length, List.length_append] at this
      have := encodeTokens_length ts
      omega)
  exact ⟨d₁, w₁, by rw [Dec.decompress_flags hf hd, he], hs, hg, ho⟩

/-! ## One chunk through a pair (43 R239) -/

/-- What the decompressor's history must be before a chunk: the history below the chunk's base (10 R50, 43 R239). -/
theorem Synced.base {e : Enc} {d : Dec} {n : Nat} {P : List Byte} (hi : e.Inv) (h : Synced e d)
    (hP : e.hist.readRange 0 (e.chunkBase n) = some P) :
    (d.applyFlags ((e.chunkHold n).getLsbD 7) ((e.chunkHold n).getLsbD 6)).hist.readRange 0
      (d.applyFlags ((e.chunkHold n).getLsbD 7) ((e.chunkHold n).getLsbD 6)).historyPtr.toNat = some P := by
  by_cases h0 : e.chunkHold n = 0
  · rw [h0]
    have hb : e.chunkBase n = e.historyOffset.toNat := by unfold Enc.chunkBase; rw [if_neg (by simp [h0])]
    rcases h with ⟨-, hp, hm⟩ | ⟨hfl, -⟩
    · show d.hist.readRange 0 d.historyPtr.toNat = some P
      obtain ⟨hl, hk⟩ := Memory.readRange_eq_some.1 hP
      rw [hb] at hl hk
      refine Memory.readRange_eq_some.2 ⟨by rw [hp]; exact hl, fun k hkn => ?_⟩
      rw [hp] at hkn
      rw [Nat.zero_add, hm k hkn, ← hk k hkn, Nat.zero_add]
    · exfalso
      unfold Enc.chunkHold Enc.readHold at h0
      rw [legalHold_mask hi.hold] at h0
      revert h0
      unfold Enc.flushPending at hfl
      have h := hi.hold
      rcases h with h | h | h <;> rw [h] at hfl ⊢ <;> cases hp : e.firstPkt <;> rw [hp] at hfl <;> dsimp only <;>
        first
          | (split <;> decide)
          | (exfalso; revert hfl; decide)
  · have hb : e.chunkBase n = 0 := by unfold Enc.chunkBase; rw [if_pos h0]
    rw [hb] at hP
    cases hP
    have h6 : (e.chunkHold n).getLsbD 6 = true := by
      rcases Enc.chunkHold_legal n hi.hold with h | h | h
      · exact absurd h h0
      · rw [h]; rfl
      · rw [h]; rfl
    rw [h6]
    unfold Dec.applyFlags
    simp [Memory.readRange]

/-- One non-empty chunk through a pair (43 R239): the decompressor does not fault, returns the input, and mirrors the
compressor afterwards. -/
theorem pair_chunk {e e' : Enc} {d : Dec} {m : BitVec 16} {bs F : List Byte} {toks : List Token} (hi : e.Inv) (hd : d.Inv)
    (hs : Synced e d) (hf : d.faulted = false) (h : e.Compressed m bs e' toks F) :
    ∃ d', d.decompress e'.flags e'.output = .ok d' ∧ d'.output = some bs ∧ d'.work = none ∧ Mirror e' d' := by
  have hl := Enc.chunkHold_legal bs.length hi.hold
  have hbase := Synced.base hi hs h.old
  have hPl : (F.take (e.chunkBase bs.length)).length = e.chunkBase bs.length := by
    rw [List.length_take, h.length]; omega
  have hFeq : F.take (e.chunkBase bs.length) ++ bs = F := by
    conv_rhs => rw [← List.take_append_drop (e.chunkBase bs.length) F, h.chunk]
  have mirror : ∀ {d' : Dec}, d'.faulted = false → d'.historyPtr.toNat = F.length → Holds d'.hist F → Mirror e' d' :=
    fun h1 h2 h3 => ⟨h1, BitVec.eq_of_toNat_eq (by rw [h2, h.offset]), fun a ha => by
      rw [h.offset] at ha
      rw [h3 a ha, h.holds a ha]⟩
  have close : ∀ {c : Bool} {fb : Byte} {pl : List Byte} {d₁ : Dec} {w₁ : DecWork} {n : Nat},
      d.decompress fb pl = .ok (d₁.finish w₁) →
      w₁.start = (d.applyFlags ((e.chunkHold bs.length).getLsbD 7) ((e.chunkHold bs.length).getLsbD 6)).historyPtr →
      (d.opened fb pl ((e.chunkHold bs.length).getLsbD 7) ((e.chunkHold bs.length).getLsbD 6) c).Grew d₁ n →
      d₁.hist.readRange 0 d₁.historyPtr.toNat = some F →
      ∃ d', d.decompress fb pl = .ok d' ∧ d'.output = some bs ∧ d'.work = none ∧ Mirror e' d' := by
    intro c fb pl d₁ w₁ n h1 h2 h3 h4
    have hl1 := (Memory.readRange_eq_some.1 h4).1
    refine ⟨d₁.finish w₁, h1, ?_, rfl, mirror (h3.faulted.trans hf) hl1.symm ?_⟩
    · rw [Dec.finish_output h3 hf h2 h4]
      show some (F.drop (d.applyFlags _ _).historyPtr.toNat) = _
      rw [← (Memory.readRange_eq_some.1 hbase).1, hPl, h.chunk]
    · rw [← hl1] at h4
      exact holds_iff.2 h4
  by_cases hc : min bs.length m.toNat < ceil8 (encodeTokens toks).length
  · rw [h.output_raw hc, (h.raw hc).1]
    obtain ⟨d₁, w₁, h1, h2, h3, h4⟩ := Dec.decompress_raw (bs := bs) hf (hd.cursor hf) (decodeFlags_raw hl) hbase (by
      rw [← (Memory.readRange_eq_some.1 hbase).1, hPl, ← h.length]; exact h.fits)
    rw [hFeq] at h4
    exact close h1 h2 h3 h4
  · have hc := Nat.le_of_not_lt hc
    rw [h.output_packed hc, (h.packed hc).1]
    obtain ⟨d₁, w₁, h1, h2, h3, h4⟩ := Dec.decompress_packed (ts := toks) hf (hd.cursor hf) (decodeFlags_compressed hl)
      (bytesToBits_bitsToBytes _) (by rw [List.length_replicate]; omega) hbase h.legal h.replays h.fits
    exact close h1 h2 h3 h4

end Sys2Proof.Machine
end

