-- ==== Sys2Proof/Laws/Machine.lean ====
section
/-! SUPPORT. The invariant of the machine (spec 10 R49), engine by engine: every operation keeps it and none stops. -/

namespace Sys2Proof.Machine

/-! ## The compressor -/

/-- A COMPRESS in progress that meets the invariant is a scan in progress. -/
theorem Enc.WorkInv.scan {e : Enc} {w : EncWork} (h : e.WorkInv w) (ht : Table.wf e.hash) : ∃ F, e.Scan w F := by
  obtain ⟨P, hP⟩ := Memory.readRange_of_filled h.below (a := 0) (k := w.base) (by omega)
  obtain ⟨hl, hk⟩ := Memory.readRange_eq_some.1 hP
  refine ⟨P ++ w.input, ?_⟩
  exact {
    nonempty := h.nonempty
    fits := h.fits
    cursor := h.cursor
    length := by rw [List.length_append, hl]; rfl
    holds := fun a ha => by
      rw [List.length_append, hl] at ha
      by_cases hb : a < w.base
      · rw [List.getElem?_append_left (by omega), ← hk a hb, Nat.zero_add]
      · rw [List.getElem?_append_right (by omega), hl, ← h.stored _ (by omega)]
        congr 1
        omega
    chunk := by rw [← hl, List.drop_left]
    hashWf := ht
    replays := by
      rw [← hl, List.take_left, List.take_length_add_append]
      exact h.replays P hP
    legal := h.legal }

/-- A scan in progress meets the invariant. -/
theorem Enc.Scan.workInv {e : Enc} {w : EncWork} {F : List Byte} (h : e.Scan w F) (hold : legalHold w.hold) :
    e.WorkInv w := by
  have hl : F.length = w.base + w.input.length := h.length
  have hstored : ∀ k, k < w.input.length → e.hist.read (w.base + k) = w.input[k]? := fun k hk => by
    rw [h.holds _ (by omega), ← h.chunk, List.getElem?_drop]
  exact {
    nonempty := h.nonempty
    fits := h.fits
    cursor := h.cursor
    hold := hold
    below := fun a ha => by rw [h.holds.some (by omega)]; rfl
    stored := hstored
    legal := h.legal
    replays := fun P hP => by
      obtain ⟨hPl, hPk⟩ := Memory.readRange_eq_some.1 hP
      have hPF : P = F.take w.base := by
        apply List.ext_getElem?
        intro k
        by_cases hk : k < w.base
        · rw [← hPk k hk, Nat.zero_add, h.holds k (by omega), List.getElem?_take_of_lt hk]
        · rw [List.getElem?_eq_none (by omega), List.getElem?_eq_none (by rw [List.length_take]; omega)]
      rw [hPF, h.replays, List.take_add, h.chunk] }

/-- A finer step of a COMPRESS from a state that meets the invariant never stops and keeps it, for every `HASH`. -/
theorem Enc.scanStep_inv (H : HashFn) {e : Enc} (h : e.Inv) : ∃ e', e.scanStep H = some e' ∧ e'.Inv := by
  cases hw : e.work with
  | none =>
    refine ⟨e, ?_, h⟩
    unfold Enc.scanStep
    rw [hw]
  | some w =>
    have hwi := h.working w hw
    obtain ⟨F, hs⟩ := hwi.scan h.hashWf
    by_cases hc : w.ctr < w.input.length
    · obtain ⟨e', w', he, hs', -, hfr⟩ := Enc.scanStep_some H hw hs hc
      have hsame := hfr.same
      refine ⟨e', he, ?_⟩
      have hhist : e'.hist = e.hist := by have := congrArg Enc.hist hsame; exact this
      have hhold : e'.flagsHold = e.flagsHold := by have := congrArg Enc.flagsHold hsame; exact this
      have hflags : e'.flags = e.flags := by have := congrArg Enc.flags hsame; exact this
      have hopb : e'.opb = e.opb := by have := congrArg Enc.opb hsame; exact this
      have hbytes : e'.bytesInOpb = e.bytesInOpb := by have := congrArg Enc.bytesInOpb hsame; exact this
      have hoff : e'.historyOffset = e.historyOffset := by have := congrArg Enc.historyOffset hsame; exact this
      exact {
        histWf := by rw [hhist]; exact h.histWf
        hashWf := hs'.hashWf
        hold := by rw [hhold]; exact h.hold
        flags := by rw [hflags]; exact h.flags
        staged := by rw [hopb, hbytes]; exact h.staged
        capacity := by rw [hopb]; exact h.capacity
        filled := by rw [hhist, hoff]; exact h.filled
        working := fun v hv => by
          rw [hfr.work] at hv
          cases hv
          exact hs'.workInv (by rw [hfr.hold]; exact hwi.hold) }
    · refine ⟨_, Enc.scanStep_end H hw (by omega), ?_⟩
      have hfin : (e.finish w).historyOffset.toNat = w.fin := by
        rw [Enc.finish_historyOffset, BitVec.toNat_ofNat]
        have := hs.fits
        omega
      exact {
        histWf := by rw [Enc.finish_hist]; exact h.histWf
        hashWf := by rw [Enc.finish_hash]; exact h.hashWf
        hold := by rw [Enc.finish_flagsHold]; exact h.hold
        flags := by
          rw [Enc.finish_eq]
          split
          · exact .inr (rawFlags_emitted hwi.hold)
          · exact .inr (compressedFlags_emitted hwi.hold)
        staged := by
          rw [Enc.finish_eq]
          split
          · show (BitVec.ofNat 16 w.input.length).toNat ≤ w.input.length
            rw [BitVec.toNat_ofNat]
            exact Nat.mod_le _ _
          · show (BitVec.ofNat 16 (ceil8 w.nbits)).toNat ≤ (assemble w.toks).length
            rw [BitVec.toNat_ofNat, assemble, bitsToBytes_length]
            exact Nat.mod_le _ _
        capacity := by
          have hb : w.input.length ≤ 65535 := by have := hwi.fits; omega
          rw [Enc.finish_eq]
          split
          · exact Nat.le_add_right_of_le hb
          · rename_i hc
            show (assemble w.toks).length ≤ Config.maxChunk + 8
            rw [assemble, bitsToBytes_length]
            exact Nat.le_add_right_of_le (Nat.le_trans (Nat.le_of_not_lt hc) (Nat.le_trans (Nat.min_le_left _ _) hb))
        filled := fun a ha => by
          rw [hfin] at ha
          rw [Enc.finish_hist, hs.holds.some (by rw [hs.length]; exact ha)]
          rfl
        working := fun v hv => by rw [Enc.finish_work] at hv; exact nomatch hv }

/-- COMPRESS from a state that meets the invariant completes and keeps it (42 R202). -/
theorem Enc.compress_inv (H : HashFn) {e : Enc} {bs : List Byte} (m : BitVec 16) (h : e.Inv) (hl : bs.length ≤ 65535) :
    ∃ e', e.compress H m bs = some e' ∧ e'.Inv := by
  by_cases hn : bs = []
  · refine ⟨_, by unfold Enc.compress; rw [if_pos hn], ?_⟩
    exact {
      histWf := h.histWf
      hashWf := h.hashWf
      hold := h.hold
      flags := .inr (by show rawFlags 0 ∈ emittedFlags; decide)
      staged := Nat.zero_le _
      capacity := h.capacity
      filled := h.filled
      working := fun w hw => by
        have hwi := h.working w hw
        exact ⟨hwi.nonempty, hwi.fits, hwi.cursor, hwi.hold, hwi.below, hwi.stored, hwi.legal, hwi.replays⟩ }
  · obtain ⟨e', toks, F, he, hc⟩ := Enc.compress_spec H m h hn hl
    exact ⟨e', he, hc.inv h⟩

theorem Enc.reset_inv : Enc.reset.Inv where
  histWf := Memory.nil_wf
  hashWf := Table.cleared_wf
  hold := .inl rfl
  flags := .inl rfl
  staged := Nat.le_refl _
  capacity := Nat.zero_le _
  filled := Memory.filled_zero _
  working := fun _ hw => nomatch hw

theorem loadedHold_legal (b : Byte) : legalHold (loadedHold b &&& holdMask) := by
  have h : ∀ n : Fin 256, legalHold (loadedHold (BitVec.ofFin n) &&& holdMask) := by decide +kernel
  exact h b.toFin

/-- A loaded history holds a value everywhere (44 R268, R270). -/
theorem imageHist_filled {image : List Byte} (h : image.length = 65540) {n : Nat} (hn : n ≤ 65536) :
    (imageHist image).filled n := fun a ha => by
  rw [imageHist, Memory.read_ofBytes, if_pos (Nat.zero_le _), Nat.sub_zero,
    List.getElem?_eq_getElem (by rw [List.length_drop, h]; omega)]
  rfl

theorem imageHist_wf {image : List Byte} (h : image.length = 65540) : Memory.wf (imageHist image) :=
  Memory.ofBytes_wf (by simp [h])

/-- Writing a legal value to `flagsHold` keeps the invariant. -/
theorem Enc.writeHold_inv {e : Enc} {v : Byte} (h : e.Inv) (hv : legalHold (v &&& holdMask)) : (e.writeHold v).Inv where
  histWf := h.histWf
  hashWf := h.hashWf
  hold := hv
  flags := h.flags
  staged := h.staged
  capacity := h.capacity
  filled := h.filled
  working := fun w hw => by
    have hwi := h.working w hw
    exact ⟨hwi.nonempty, hwi.fits, hwi.cursor, hwi.hold, hwi.below, hwi.stored, hwi.legal, hwi.replays⟩

theorem Enc.loadHash_inv {e : Enc} {table : List Byte} (h : e.Inv) (hl : table.length = 131072) :
    ({ e with hash := hashImage 0 table } : Enc).Inv where
  histWf := h.histWf
  hashWf := hashImage_wf (by omega)
  hold := h.hold
  flags := h.flags
  staged := h.staged
  capacity := h.capacity
  filled := h.filled
  working := fun w hw => by
    have hwi := h.working w hw
    exact ⟨hwi.nonempty, hwi.fits, hwi.cursor, hwi.hold, hwi.below, hwi.stored, hwi.legal, hwi.replays⟩

/-- ENC_LOAD_STATE of an idle compressor keeps the invariant. -/
theorem Enc.loadState_inv {e : Enc} {image : List Byte} (h : e.Inv) (hl : image.length = 65540) (hw : e.work = none) :
    (e.loadState image).Inv where
  histWf := imageHist_wf hl
  hashWf := h.hashWf
  hold := loadedHold_legal _
  flags := h.flags
  staged := h.staged
  capacity := h.capacity
  filled := by
    rw [Enc.loadState_hist, Enc.loadState_historyOffset]
    exact imageHist_filled hl (by have := (imageField image 0).isLt; omega)
  working := fun w hv => by rw [Enc.loadState_work, hw] at hv; exact nomatch hv

/-! ## The decompressor -/

theorem Dec.toReset_inv (d : Dec) : d.toReset.Inv where
  histWf := Memory.nil_wf
  noCode := fun _ => rfl
  code := fun h => nomatch h
  noView := fun h => nomatch h
  cursor := fun _ => Nat.le_refl _
  filled := fun _ => Memory.filled_zero _
  view := fun _ _ => rfl
  working := fun _ hw => nomatch hw

theorem Dec.reset_inv : Dec.reset.Inv := Dec.toReset_inv Dec.reset

/-- DEC_LOAD_STATE of an idle decompressor keeps the invariant (44 R270). -/
theorem Dec.loadState_inv {d : Dec} {image : List Byte} (hl : image.length = 65540) (hw : d.work = none) :
    (d.loadState image).Inv where
  histWf := imageHist_wf hl
  noCode := fun _ => rfl
  code := fun h => nomatch h
  noView := fun _ => rfl
  cursor := fun _ => by
    show (imageField image 0).toNat ≤ (maxPos (imageField image 1) (imageField image 0)).toNat
    rw [maxPos_toNat]
    omega
  filled := fun _ => imageHist_filled hl (by
    have := (d.loadState image).validHi.isLt
    omega)
  view := fun _ _ => rfl
  working := fun w hv => by
    have : d.work = some w := hv
    rw [hw] at this
    exact nomatch this

/-! ## The machine -/

theorem State.reset_inv : State.reset.Inv where
  enc := Enc.reset_inv
  dec := Dec.reset_inv
  encWaiting := fun _ h => nomatch h
  decWaiting := fun _ h => nomatch h

theorem EncReq.instr_wellFormed {r : EncReq} (h : r.need ≤ r.data.length) : r.instr.wellFormed = true := by
  unfold EncReq.instr
  split
  · rfl
  · rename_i hc
    have hn : r.need = r.len.toNat := by unfold EncReq.need; rw [hc]; rfl
    have := r.len.isLt
    simp only [Instr.wellFormed, List.length_take, Config.maxChunk, decide_eq_true_eq]
    omega
  · rfl
  · rfl
  · rfl
  · rename_i hc
    have hn : r.need = Config.hashImageSize := by unfold EncReq.need; rw [hc]; rfl
    simp only [Instr.wellFormed, List.length_take, decide_eq_true_eq]
    omega
  · rename_i hc
    have hn : r.need = Config.stateImageSize := by unfold EncReq.need; rw [hc]; rfl
    simp only [Instr.wellFormed, List.length_take, decide_eq_true_eq]
    omega
  · rfl

theorem DecReq.instr_wellFormed {r : DecReq} (h : r.need ≤ r.data.length) : r.instr.wellFormed = true := by
  unfold DecReq.instr
  split
  · rfl
  · rename_i hc
    have hn : r.need = r.len.toNat := by unfold DecReq.need; rw [hc]; rfl
    have := r.len.isLt
    simp only [Instr.wellFormed, List.length_take, Config.maxChunk, decide_eq_true_eq]
    omega
  · rfl
  · rename_i h0 h1 h2
    have hc : r.cmd.toNat = 3 := by have := r.cmd.isLt; simp only [imp_false] at h0 h1 h2; omega
    have hn : r.need = Config.stateImageSize := by unfold DecReq.need; rw [hc]; rfl
    simp only [Instr.wellFormed, List.length_take, decide_eq_true_eq]
    omega

end Sys2Proof.Machine
end

