-- ==== Sys2Proof/Laws/Rows.lean ====
section
/-! SUPPORT. What the statements' rows and records say of the model: the rows of the token stream as instructions, the match
copy's faults and source, a fault taken, a chunk decompressed_of_grew, the run of the tokens before a malformed one. -/

namespace Sys2Proof.Machine

/-- Bit `j` of a field. -/
theorem natToBits_getElem? (k v j : Nat) (h : j < k) : (natToBits k v)[j]? = some (v.testBit (k - 1 - j)) := by
  induction k generalizing j with
  | zero => omega
  | succ k ih =>
    cases j with
    | zero => simp [natToBits]
    | succ j =>
      rw [natToBits, List.getElem?_cons_succ, ih j (by omega)]
      congr 2; omega

/-- A byte packed again. -/
theorem padByte_natToBits (b : Byte) : padByte (natToBits 8 b.toNat) = b := by
  unfold padByte
  rw [List.take_append_of_le_length (by simp), List.take_of_length_le (by simp), bitsToNat_natToBits]
  have := b.isLt
  rw [Nat.mod_eq_of_lt (by omega)]
  simp

/-- The bits a field read are the bits its row has. -/
theorem field_code {k : Nat} {mk : BitVec k → Instr} {pfx : Bits} {bits : Bits} {i : Instr} {n : Nat}
    (hmk : ∀ v, (mk v).bits = pfx ++ natToBits k v.toNat) (hw : ∀ v, (mk v).width = pfx.length + k)
    (h : field k mk pfx.length bits = .ok (i, n)) :
    n ≤ (pfx ++ bits).length ∧ (pfx ++ bits).take n = i.bits ∧ n = i.width := by
  obtain ⟨v, rfl, rfl, hk, hb⟩ := field_eq_ok h
  refine ⟨by simp; omega, ?_, (hw v).symm⟩
  rw [hmk, List.take_append, List.take_of_length_le (by omega), ← hb]
  simp

/-- The bits a length code read are the bits its row has. -/
theorem decodeLengthFrom_code (ones : Nat) (bits : Bits) (i : Instr) (n : Nat) (ho : ones ≤ 14)
   (h : decodeLengthFrom ones bits = .ok (i, n)) :
    n ≤ (List.replicate ones true ++ bits).length ∧ (List.replicate ones true ++ bits).take n = i.bits ∧ n = i.width := by
  induction bits generalizing ones with
  | nil => cases ones <;> exact nomatch h
  | cons b r ih =>
    cases b with
    | true =>
      rw [decodeLengthFrom] at h
      split at h
      · have : ones = 14 := by omega
        subst this
        cases h
        exact ⟨by simp, rfl, rfl⟩
      · have := ih (ones + 1) (by omega) h
        rwa [List.replicate_succ', List.append_assoc] at this
    | false =>
      rw [decodeLengthFrom] at h
      have hp : List.replicate ones true ++ false :: r = (List.replicate ones true ++ [false]) ++ r := by simp
      rw [hp]
      unfold lengthClass at h
      split at h
      · cases h; exact ⟨by simp, rfl, rfl⟩
      all_goals first
        | exact field_code (pfx := List.replicate _ true ++ [false]) (fun v => by simp [Instr.bits, lengthBits]) (fun v => rfl) h
        | skip
      · exfalso
        simp only [imp_false] at *
        omega

/-- A length row is the one code of its length. -/
theorem lengthRow_code {i : Instr} {ones n : Nat} (h : LengthRow i ones n) :
    ∃ l, i.lengthCode? = some (ones, l) ∧ lengthValue ones l = n ∧ 3 ≤ n ∧ n ≤ 65535 ∧ i = lengthInstr n := by
  rcases h with ⟨rfl, rfl, rfl⟩ | h
  · exact ⟨0, rfl, rfl, by omega, by omega, rfl⟩
  rcases h with ⟨l, rfl, rfl, rfl⟩ | ⟨l, rfl, rfl, rfl⟩ | ⟨l, rfl, rfl, rfl⟩ | ⟨l, rfl, rfl, rfl⟩ |
      ⟨l, rfl, rfl, rfl⟩ | ⟨l, rfl, rfl, rfl⟩ | ⟨l, rfl, rfl, rfl⟩ | ⟨l, rfl, rfl, rfl⟩ | ⟨l, rfl, rfl, rfl⟩ |
      ⟨l, rfl, rfl, rfl⟩ | ⟨l, rfl, rfl, rfl⟩ | ⟨l, rfl, rfl, rfl⟩ | ⟨l, rfl, rfl, rfl⟩ | ⟨l, rfl, rfl, rfl⟩
  all_goals
    have := l.isLt
    refine ⟨l.toNat, rfl, rfl, by omega, by omega, ?_⟩
    unfold lengthInstr
    repeat rw [if_neg (by omega)]
    try rw [if_pos (by omega)]
    rw [Nat.add_sub_cancel_left, BitVec.ofNat_toNat, BitVec.setWidth_eq]

/-- A length row executes the match of the pending offset. -/
theorem exec_lengthRow {i : Instr} {ones n : Nat} (h : LengthRow i ones n) {s : State} {w : DecWork}
    (hw : s.dec.work = some w) :
    exec i s = s.withDec (s.dec.take (Dec.copyMatch w.off n { s.dec with work := some { w with ones := ones, mlen := n, phase := .token } })) := by
  obtain ⟨l, h1, h2, -⟩ := lengthRow_code h
  have : exec i s = s.withDec (Dec.streamOp i s.dec) := by
    rcases h with ⟨rfl, rfl, rfl⟩ | h
    · rfl
    rcases h with ⟨l, rfl, rfl, rfl⟩ | ⟨l, rfl, rfl, rfl⟩ | ⟨l, rfl, rfl, rfl⟩ | ⟨l, rfl, rfl, rfl⟩ |
        ⟨l, rfl, rfl, rfl⟩ | ⟨l, rfl, rfl, rfl⟩ | ⟨l, rfl, rfl, rfl⟩ | ⟨l, rfl, rfl, rfl⟩ | ⟨l, rfl, rfl, rfl⟩ |
        ⟨l, rfl, rfl, rfl⟩ | ⟨l, rfl, rfl, rfl⟩ | ⟨l, rfl, rfl, rfl⟩ | ⟨l, rfl, rfl, rfl⟩ | ⟨l, rfl, rfl, rfl⟩ <;> rfl
  rw [this, Dec.streamOp_length h1]
  unfold Dec.matchLength Dec.inCommand Dec.setWork DecWork.setLength DecWork.offset
  rw [hw]
  simp only [Option.map_some, h2]

/-- After a copy the transient registers hold the last source. -/
theorem Dec.copyBytes_src {off n : Nat} {d d' : Dec} {w : DecWork} (h2 : off ≤ 65535) (hw : d.work = some w)
    (he : d.copyBytes off n = .ok d') 
   : ∃ w', d'.work = some w' ∧ (n = 0 → w' = w) ∧ (0 < n →
    w' = { w with src := BitVec.ofNat 16 (matchSource off d.historyPtr.toNat (n - 1)) }) := by
  induction n generalizing d w with
  | zero => cases he; exact ⟨w, hw, fun _ => rfl, fun h => absurd h (by omega)⟩
  | succ n ih =>
    rw [Dec.copyBytes] at he
    split at he
    · exact nomatch he
    · rename_i d1 h1
      unfold Dec.copyByte at h1
      dsimp only at h1
      split at h1
      · exact nomatch h1
      split at h1
      · exact nomatch h1
      rename_i b hb
      by_cases hp : d.historyPtr.toNat < 65535
      · rw [Dec.writeByte_ok (by exact hp)] at h1
        cases h1
        have hsrc := Dec.source_toNat (d := d) h2
        obtain ⟨w', a1, a2, a3⟩ := ih (d := Dec.wrote b _) (w := { w with src := d.source off }) (by show Option.map _ d.work = _; rw [hw]; rfl) he
        refine ⟨w', a1, fun h => absurd h (by omega), fun _ => ?_⟩
        by_cases hn : n = 0
        · rw [a2 hn]
          subst hn
          congr 1
          apply BitVec.eq_of_toNat_eq
          rw [hsrc, BitVec.toNat_ofNat]
          unfold matchSource
          simp
        · rw [a3 (by omega)]
          congr 2
          unfold matchSource
          rw [Dec.wrote_historyPtr (by exact hp)]
          show (d.historyPtr.toNat + 1 + (n - 1) + 65536 - off) % 65536 = _
          congr 1; omega
      · rw [Dec.writeByte_full (by show 65535 ≤ d.historyPtr.toNat; omega)] at h1
        exact nomatch h1

/-- The first source position is `DEC`'s next one. -/
theorem matchSource_zero {off : Nat} {d : Dec} (h : off ≤ 65535) :
    matchSource off d.historyPtr.toNat 0 = (d.source off).toNat := by
  rw [Dec.source_toNat h, matchSource, Nat.add_zero d.historyPtr.toNat]

/-- The copy stops at the first byte that cannot be copied, with its cause. -/
theorem Dec.copyBytes_fault {off n : Nat} {d : Dec} (h2 : off ≤ 65535) (hc : d.historyPtr.toNat ≤ d.validHi.toNat)
    (hf : d.hist.filled d.validHi.toNat) (k : Nat) (hk : k < n)
    (hj : ∀ j, j < k → matchSource off d.historyPtr.toNat j < max d.validHi.toNat (d.historyPtr.toNat + j) ∧
    d.historyPtr.toNat + j < 65535) :
    (max d.validHi.toNat (d.historyPtr.toNat + k) ≤ matchSource off d.historyPtr.toNat k →
    d.copyBytes off n = .error (.raise .offsetOutOfWindow)) ∧
    (matchSource off d.historyPtr.toNat k < max d.validHi.toNat (d.historyPtr.toNat + k) →
    65535 ≤ d.historyPtr.toNat + k → d.copyBytes off n = .error (.raise .historyOverflow)) := by
  induction k generalizing d n with
  | zero =>
    obtain ⟨m, rfl⟩ : ∃ m, n = m + 1 := ⟨n - 1, by omega⟩
    rw [Nat.add_zero, matchSource_zero h2, Nat.max_eq_left hc]
    constructor
    · intro h
      rw [Dec.copyBytes, Dec.copyByte_outside h]
    · intro h hp
      rw [Dec.copyBytes, Dec.copyByte_full h hf hp]
  | succ k ih =>
    obtain ⟨m, rfl⟩ : ∃ m, n = m + 1 := ⟨n - 1, by omega⟩
    obtain ⟨ha, hp⟩ := hj 0 (by omega)
    rw [Nat.add_zero] at ha hp
    rw [matchSource_zero h2, Nat.max_eq_left hc] at ha
    obtain ⟨b, hb⟩ := Option.isSome_iff_exists.1 (hf _ ha)
    have hg : d.Grew ((d.setWork fun w => { w with src := d.source off }).wrote b) 1 := by
      have := (Dec.Grew.setWork (d := d) (fun w => { w with src := d.source off }) hc).trans
        (Dec.Grew.wrote (b := b) (d := d.setWork fun w => { w with src := d.source off }) hp hc)
      simpa using this
    rw [Dec.copyBytes, Dec.copyByte_ok ha hb hp]
    have hms : ∀ j, matchSource off (d.historyPtr.toNat + 1) j = matchSource off d.historyPtr.toNat (j+1) := by
      intro j; unfold matchSource; rw [show d.historyPtr.toNat + 1 + j = d.historyPtr.toNat + (j + 1) by omega]
    have := ih (d := (d.setWork fun w => { w with src := d.source off }).wrote b) (n := m) hg.cursor (hg.fill hf) (by omega) (by
      intro j hjk
      obtain ⟨b1, b2⟩ := hj (j+1) (by omega)
      rw [hg.ptr, hg.valid, hms]
      exact ⟨by omega, by omega⟩)
    rw [hg.ptr, hg.valid, hms, show max (max d.validHi.toNat (d.historyPtr.toNat + 1)) (d.historyPtr.toNat + 1 + k) = max d.validHi.toNat (d.historyPtr.toNat + (k + 1)) by omega, show d.historyPtr.toNat + 1 + k = d.historyPtr.toNat + (k+1) by omega] at this
    exact this

/-- An accepted flags byte. -/
theorem decodeFlags_of_type {fb : Byte} {c : Bool} (h : fb &&& 0x3F = if c then 0x21 else 0x01) : decodeFlags fb = .ok
    (.flags (fb.getLsbD 7) (fb.getLsbD 6) c, 8) := by
  have key : ∀ (n : Fin 256), ((BitVec.ofFin n : BitVec 8) &&& 0x3F = if c then 0x21 else 0x01) →
      decodeFlags (BitVec.ofFin n) = .ok (.flags ((BitVec.ofFin n : BitVec 8).getLsbD 7) ((BitVec.ofFin n : BitVec 8).getLsbD 6) c, 8) := by
    cases c <;> decide +kernel
  exact key fb.toFin h

/-- The cursor after the flags. -/
theorem Dec.applyFlags_ptr (f a : Bool) (d : Dec) : (d.applyFlags f a).historyPtr.toNat = chunkStart f a d := by
  cases f <;> cases a <;> rfl

/-- The validity mark after the flags. -/
theorem Dec.applyFlags_mark (f a : Bool) (d : Dec) :
    (d.applyFlags f a).validHi.toNat = if f then 0 else d.validHi.toNat := by
  cases f <;> cases a <;> rfl

/-- The record of a DECOMPRESS that completed. -/
theorem decompressed_of_grew {s : State} {fb : Byte} {f a c : Bool} {pl out before : List Byte} {d₁ : Dec}
    {w₁ : DecWork} (hnf : s.dec.faulted = false)
   (h1 : w₁.start = (s.dec.applyFlags f a).historyPtr)
   (hb : before.length = chunkStart f a s.dec)
   (hg : (s.dec.opened fb pl f a c).Grew d₁ out.length) (ho : d₁.hist.readRange 0 d₁.historyPtr.toNat = some (before ++ out)) :
   Decompressed f a s { s with dec := d₁.finish w₁ } out := by
  have hp := Dec.applyFlags_ptr f a s.dec
  have hm := Dec.applyFlags_mark f a s.dec
  have hptr : d₁.historyPtr.toNat = chunkStart f a s.dec + out.length := by rw [hg.ptr, ← hp]; rfl
  obtain ⟨hl, hk⟩ := Memory.readRange_eq_some.1 ho
  have hout := Dec.finish_output hg hnf h1 ho
  have hps : (s.dec.opened fb pl f a c).historyPtr.toNat = before.length := by rw [hb, ← hp]; rfl
  rw [hps, List.drop_left] at hout
  have hrest := hg.rest
  exact {
    frame := by
      congr 1
      cases d₁
      simp [Dec.opened, Dec.applyFlags] at hrest
      simp [Dec.finish, hrest]
    cursor := hptr
    mark := by show d₁.validHi.toNat = _; rw [hg.valid]; show max (s.dec.applyFlags f a).validHi.toNat ((s.dec.applyFlags f a).historyPtr.toNat + _) = _; rw [hm, hp]
    viewStart := by show w₁.start.toNat = _; rw [h1, hp]
    viewLen := by
      show (d₁.historyPtr - w₁.start).toNat = _
      rw [h1, BitVec.toNat_sub_of_le (by rw [BitVec.le_def, hptr, hp]; omega), hptr, hp]; omega
    bytes := by
      intro k hkl
      show d₁.hist.read _ = _
      rw [← Nat.zero_add (chunkStart f a s.dec + k), hk _ (by omega), List.getElem?_append_right (by omega), ← hb, Nat.add_sub_cancel_left]
    outside := by
      intro x hx
      exact hg.same x (by rw [hps]; omega)
    output := hout }

/-- The tokens before `tail` are executed. -/
theorem Dec.run_prefix {ts : List Token} : ∀ {d : Dec} {w : DecWork} {tail : Bits} {out out' : List Byte} {n : Nat}
    (_ : d.work = some w) (_ : w.phase = .token) (_ : w.bits = encodeTokens ts ++ tail)
    (_ : ∀ t ∈ ts, t.wellFormed = true) (_ : d.historyPtr.toNat ≤ d.validHi.toNat)
    (_ : d.hist.readRange 0 d.historyPtr.toNat = some out) (_ : replay ts out = some out') (_ : out'.length ≤ 65535)
    (_ : 2 * ts.length ≤ n),
    ∃ d' w' m, Dec.runCommand n d = Dec.runCommand (m + (n - 2 * ts.length)) d' ∧ d'.work = some w' ∧
    w'.phase = .token ∧ w'.bits = tail ∧
      ({ d' with hist := d.hist, historyPtr := d.historyPtr, validHi := d.validHi, work := d.work } : Dec) = d := by
  induction ts with
  | nil => intro d w tail out out' n hw hp hb _ _ _ _ _ hn; exact ⟨d, w, 0, by simp, hw, hp, hb, rfl⟩
  | cons t ts ih =>
    intro d w tail out out' n hw hp hb hts hc ho hr hmax hn
    simp only [List.mem_cons, forall_eq_or_imp] at hts
    simp only [List.length_cons] at hn
    rw [encodeTokens_cons, List.append_assoc] at hb
    have hol := (Memory.readRange_eq_some.1 ho).1
    have hmono := replay_length_le hr
    have hadv : ({ w with bitpos := w.bitpos + (encodeToken t).length } : DecWork).bits = encodeTokens ts ++ tail := by
      rw [DecWork.bits_advance, hb, List.drop_left]
    cases t with
    | lit b =>
      rw [replay] at hr
      have hle := replay_length_le hr
      rw [List.length_append, List.length_singleton] at hle
      obtain ⟨m, rfl⟩ : ∃ m, n = m + 1 := ⟨n - 1, by omega⟩
      have hp1 : d.historyPtr.toNat < 65535 := by omega
      rw [Dec.run_literal hw hp hb hp1]
      have hg : d.Grew (Dec.wrote b { d with work := some { w with bitpos := w.bitpos + (encodeToken (.lit b)).length } }) 1 :=
        ⟨Dec.wrote_historyPtr (d := { d with work := _ }) hp1, Dec.wrote_validHi (d := { d with work := _ }) hp1,
          Dec.wrote_filled (d := { d with work := _ }) hp1 hc, Dec.wrote_wf (d := { d with work := _ }),
          fun a ha => by rw [Dec.wrote_read]; exact if_neg (by show ¬ a = d.historyPtr.toNat; omega), rfl⟩
      obtain ⟨d', w', m', he, h1, h2, h3, h4⟩ := ih (d := Dec.wrote b _) (w := { w with bitpos := w.bitpos + (encodeToken (.lit b)).length }) (out := out ++ [b]) (n := m)
        rfl hp hadv hts.2 hg.cursor (by
          rw [hg.ptr]
          obtain ⟨-, hk⟩ := Memory.readRange_eq_some.1 ho
          refine Memory.readRange_eq_some.2 ⟨by simp [hol], fun k hkn => ?_⟩
          rw [Dec.wrote_read, Nat.zero_add]
          show (if k = d.historyPtr.toNat then some b else d.hist.read k) = _
          by_cases hkp : k = d.historyPtr.toNat
          · rw [if_pos hkp, hkp, ← hol]; simp
          · rw [if_neg hkp, List.getElem?_append_left (by omega)]
            have := hk k (by omega)
            rwa [Nat.zero_add] at this) hr hmax (by omega)
      refine ⟨d', w', m' + 1, ?_, h1, h2, h3, ?_⟩
      · rw [he]; congr 1; simp only [List.length_cons]; omega
      · exact congrArg (fun x : Dec => { x with hist := d.hist, historyPtr := d.historyPtr, validHi := d.validHi, work := d.work }) h4
    | mtch off len =>
      rw [replay] at hr
      split at hr
      · rename_i o hro
        have hwf := hts.1
        simp only [Token.wellFormed, decide_eq_true_eq, Config.minMatch, Config.maxMatch, Config.maxOffset] at hwf
        obtain ⟨c, hcode⟩ := Option.isSome_iff_exists.1 (lengthInstr_isSome len)
        have hle := replay_length_le hr
        have hlo := replayMatch_length hro
        obtain ⟨d₁, hcopy, hg, ⟨g, hwork⟩, ho₁⟩ := Dec.copyBytes_replay (d := { d with work := some { w with
          bitpos := w.bitpos + (encodeToken (.mtch off len)).length, off := off, mlen := len, ones := c.1,
          phase := .token } }) (off := off) (n := len) (out := out) (out' := o) (by omega) hc
          (by show d.historyPtr.toNat + len ≤ 65535; omega) ho hro
        obtain ⟨m, rfl⟩ : ∃ m, n = m + 2 := ⟨n - 2, by omega⟩
        rw [Dec.run_match hw hp hb (by omega) (by omega) (by omega) (by omega) hcode hcopy]
        obtain ⟨d', w', m', he, h1, h2, h3, h4⟩ := ih (n := m) hwork rfl hadv hts.2 hg.cursor ho₁ hr hmax (by omega)
        refine ⟨d', w', m', ?_, h1, h2, h3, ?_⟩
        · rw [he]; congr 1; simp only [List.length_cons]; omega
        · have h5 := congrArg (fun x : Dec => { x with hist := d.hist, historyPtr := d.historyPtr, validHi := d.validHi, work := d.work }) h4
          have h6 := congrArg (fun x : Dec => { x with hist := d.hist, historyPtr := d.historyPtr, validHi := d.validHi, work := d.work }) hg.rest
          exact h5.trans h6
      · exact nomatch hr

/-- A fault taken after the history grew. -/
theorem faultTaken_of_rest {s : State} {c : Cause} {d d' : Dec}
    (hd : ({ d' with hist := d.hist, historyPtr := d.historyPtr, validHi := d.validHi, work := d.work } : Dec) = d)
   (hds : ({ d with hist := s.dec.hist, historyPtr := s.dec.historyPtr, validHi := s.dec.validHi, work := s.dec.work } : Dec) = s.dec) (w : Option DecWork) :
   FaultTaken c s { s with dec := ({ d' with work := w } : Dec).faultEntry c } := by
  have h := congrArg (fun x : Dec => ({ x with hist := s.dec.hist, historyPtr := s.dec.historyPtr, validHi := s.dec.validHi, work := s.dec.work } : Dec)) hd
  have h := h.trans hds
  unfold FaultTaken
  congr 1
  cases hx : s.dec; rw [hx] at h; cases d'
  simp at h
  cases c <;> simp [Dec.faultEntry, Dec.forget, h]

/-- Fault entry is a fault taken (60 R286). -/
theorem faultTaken_faultEntry (s : State) (c : Cause) (w : Option DecWork) :
    FaultTaken c s { s with dec := { s.dec with work := w }.faultEntry c } :=
  faultTaken_of_rest (d := s.dec) (d' := s.dec) rfl rfl w

end Sys2Proof.Machine
end

