-- ==== Sys2Proof/Laws/FlagsOperand.lean ====
section
/-! SUPPORT. Behind the flags byte the operand `dec_flags` of a DECOMPRESS plays no part (spec 10 R37, 43 R225). -/

namespace Sys2Proof.Machine

/-- The decompressor with another flags operand in the command in progress. -/
def Dec.withFlags (x : Byte) (d : Dec) : Dec := d.setWork fun w => { w with flags := x }

theorem Dec.withFlags_faultEntry (x : Byte) (c : Cause) (d : Dec) : (d.withFlags x).faultEntry c = d.faultEntry c := by
  cases c <;> simp only [Dec.faultEntry, Dec.withFlags, Dec.setWork, Dec.forget]

theorem Dec.withFlags_none {x : Byte} {d : Dec} (h : d.work = none) : d.withFlags x = d := by
  cases d; cases h; rfl

theorem Dec.faultEntry_withFlags (x : Byte) (c : Cause) (d : Dec) : (d.faultEntry c).withFlags x = d.faultEntry c :=
  Dec.withFlags_none (Dec.faultEntry_work c d)

theorem Dec.writeByte_withFlags (x b : Byte) (d : Dec) : (d.withFlags x).writeByte b = (d.writeByte b).map
    (Dec.withFlags x) := by
  unfold Dec.writeByte
  show (if Config.histCap - 1 ≤ d.historyPtr.toNat then _ else _) = _
  by_cases h : Config.histCap - 1 ≤ d.historyPtr.toNat
  · rw [if_pos h, if_pos h]; rfl
  · rw [if_neg h, if_neg h]; rfl

theorem Dec.rawAppend_withFlags (x : Byte) (bs : List Byte) (d : Dec) :
    (d.withFlags x).rawAppend bs = (d.rawAppend bs).map (Dec.withFlags x) := by
  induction bs generalizing d with
  | nil => rfl
  | cons b bs ih =>
    rw [Dec.rawAppend, Dec.rawAppend, Dec.writeByte_withFlags]
    cases d.writeByte b with
    | error e => rfl
    | ok d' => exact ih d'

theorem Dec.setWork_withFlags {x : Byte} {f : DecWork → DecWork} (h : ∀ w,
    f { w with flags := x } = { f w with flags := x }) (d : Dec) :
    (d.withFlags x).setWork f = (d.setWork f).withFlags x := by
  unfold Dec.withFlags Dec.setWork
  cases d.work with
  | none => rfl
  | some w => simp only [Option.map_some, h]

theorem Dec.copyByte_withFlags (x : Byte) (off : Nat) (d : Dec) :
    (d.withFlags x).copyByte off = (d.copyByte off).map (Dec.withFlags x) := by
  unfold Dec.copyByte
  rw [show (d.withFlags x).source off = d.source off from rfl, show (d.withFlags x).validHi = d.validHi from rfl, show (d.withFlags x).hist = d.hist from rfl]
  dsimp only
  by_cases h : d.validHi.toNat ≤ (d.source off).toNat
  · rw [if_pos h, if_pos h]; rfl
  · rw [if_neg h, if_neg h]
    cases d.hist.read (d.source off).toNat with
    | none => rfl
    | some b =>
      dsimp only
      rw [Dec.setWork_withFlags (fun w => rfl), Dec.writeByte_withFlags]

theorem Dec.copyBytes_withFlags (x : Byte) (off n : Nat) (d : Dec) :
    (d.withFlags x).copyBytes off n = (d.copyBytes off n).map (Dec.withFlags x) := by
  induction n generalizing d with
  | zero => rfl
  | succ n ih =>
    rw [Dec.copyBytes, Dec.copyBytes, Dec.copyByte_withFlags]
    cases d.copyByte off with
    | error e => rfl
    | ok d' => exact ih d'

theorem Dec.take_withFlags (x : Byte) (d : Dec) (r : Except Stop Dec) :
    (d.withFlags x).take (r.map (Dec.withFlags x)) = (d.take r).map (Dec.withFlags x) := by
  match r with
  | .ok d' => rfl
  | .error (.fault f) => rfl
  | .error (.raise c) => 
    show Except.ok ((d.withFlags x).faultEntry c) = Except.ok ((d.faultEntry c).withFlags x)
    rw [Dec.withFlags_faultEntry, Dec.faultEntry_withFlags]

theorem Dec.inCommand_withFlags {x : Byte} {d : Dec} {f g : DecWork → Except Stop Dec} (h : ∀ w, d.work = some w →
    g { w with flags := x } = (f w).map (Dec.withFlags x)) :
    (d.withFlags x).inCommand g = (d.inCommand f).map (Dec.withFlags x) := by
  unfold Dec.inCommand
  cases hw : d.work with
  | none => rw [Dec.withFlags_none hw, hw]; rfl
  | some w =>
    rw [show (d.withFlags x).work = some { w with flags := x } by unfold Dec.withFlags Dec.setWork; rw [hw]; rfl]
    dsimp only
    rw [h w hw, Dec.take_withFlags]

theorem Dec.streamOp_withFlags (x : Byte) {i : Instr} (hi : i.literal?.isSome = true ∨ i.offset?.isSome = true ∨
    i.lengthCode?.isSome = true ∨ i = .lenReserved) (d : Dec) :
    Dec.streamOp i (d.withFlags x) = (Dec.streamOp i d).map (Dec.withFlags x) := by
  rcases hi with h | h | h | rfl
  · obtain ⟨b, hb⟩ := Option.isSome_iff_exists.1 h
    rw [Dec.streamOp_literal hb, Dec.streamOp_literal hb]
    exact Dec.inCommand_withFlags fun w _ => Dec.writeByte_withFlags x b d
  · obtain ⟨o, ho⟩ := Option.isSome_iff_exists.1 h
    rw [Dec.streamOp_offset ho, Dec.streamOp_offset ho]
    exact Dec.inCommand_withFlags fun w _ => congrArg Except.ok (Dec.setWork_withFlags (fun w => rfl) d)
  · obtain ⟨c, hc⟩ := Option.isSome_iff_exists.1 h
    rw [Dec.streamOp_length hc, Dec.streamOp_length hc]
    refine Dec.inCommand_withFlags fun w _ => ?_
    rw [Dec.setWork_withFlags (fun w => rfl)]
    unfold Dec.copyMatch
    show (if w.off = 0 then _ else if Config.histCap ≤ w.off then _ else _) = Except.map _ (if w.off = 0 then _ else if Config.histCap ≤ w.off then _ else _)
    by_cases h0 : w.off = 0
    · rw [if_pos h0, if_pos h0]; rfl
    · rw [if_neg h0, if_neg h0]
      by_cases h1 : Config.histCap ≤ w.off
      · rw [if_pos h1, if_pos h1]; rfl
      · rw [if_neg h1, if_neg h1]
        exact Dec.copyBytes_withFlags x _ _ _
  · exact Dec.inCommand_withFlags fun w _ => rfl

/-- A step inside the payload goes on to fewer steps and never back to the flags byte. -/
structure Dec.Onward (d d' : Dec) : Prop where
  left  : d'.left < d.left
  phase : ∀ w, d'.work = some w → w.phase ≠ .flags

theorem Dec.Onward.done {d d' : Dec} (h : d'.work = none) (hl : 0 < d.left) : d.Onward d' :=
  ⟨by rw [Dec.left_none h]; exact hl, fun w hw => by rw [h] at hw; exact nomatch hw⟩

theorem DecWork.left_pos (w : DecWork) : 0 < w.left := by
  unfold DecWork.left
  split <;> omega

theorem Dec.copyByte_work {off : Nat} {d d' : Dec} (h : d.copyByte off = .ok d') :
    ∃ g : DecWork → Pos, d'.work = d.work.map fun w => { w with src := g w } := by
  unfold Dec.copyByte Dec.writeByte at h
  dsimp only at h
  split at h
  · exact nomatch h
  split at h
  · exact nomatch h
  split at h
  · exact nomatch h
  · cases h; exact ⟨_, rfl⟩

theorem Dec.copyBytes_work {off n : Nat} {d d' : Dec} (h : d.copyBytes off n = .ok d') :
    ∃ g : DecWork → Pos, d'.work = d.work.map fun w => { w with src := g w } := by
  induction n generalizing d with
  | zero => cases h; exact ⟨fun w => w.src, by cases d'.work <;> rfl⟩
  | succ n ih =>
    rw [Dec.copyBytes] at h
    split at h
    · exact nomatch h
    · rename_i d1 h1
      obtain ⟨g, hg⟩ := Dec.copyByte_work h1
      obtain ⟨g', hg'⟩ := ih h
      rw [hg] at hg'
      refine ⟨fun w => g' { w with src := g w }, hg'.trans ?_⟩
      cases d.work <;> rfl

theorem Dec.writeByte_work {b : Byte} {d d' : Dec} (h : d.writeByte b = .ok d') : d'.work = d.work := by
  unfold Dec.writeByte at h
  split at h
  · exact nomatch h
  · cases h; rfl

theorem Dec.take_ok {d d' : Dec} {r : Except Stop Dec} (h : d.take r = .ok d') :
    r = .ok d' ∨ ∃ c, d' = d.faultEntry c := by
  match r with
  | .ok d1 => cases h; exact .inl rfl
  | .error (.fault f) => exact nomatch h
  | .error (.raise c) => cases h; exact .inr ⟨c, rfl⟩

/-- A finer step inside the payload goes onward, in any state. -/
theorem Dec.microStep_onward {d d' : Dec} {w : DecWork} (hw : d.work = some w) (hp : w.phase ≠ .flags)
    (h : d.microStep = .ok d') : d.Onward d' := by
  have hleft : d.left = w.left := Dec.left_some hw
  have hpos := w.left_pos
  have fault : ∀ (d1 : Dec) (c : Cause), d.Onward (d1.faultEntry c) := fun d1 c =>
    Dec.Onward.done (Dec.faultEntry_work c d1) (by rw [hleft]; exact hpos)
  unfold Dec.microStep at h
  rw [hw] at h
  dsimp only at h
  unfold Dec.fetch at h
  cases hph : w.phase with
  | flags => exact absurd hph hp
  | raw =>
    rw [hph] at h
    dsimp only at h
    cases hr : d.rawAppend w.payload with
    | ok d1 => rw [hr] at h; cases h; exact Dec.Onward.done rfl (by rw [hleft]; exact hpos)
    | error e =>
      rw [hr] at h
      match e with
      | .raise c => cases h; exact fault _ _
      | .fault f => exact nomatch h
  | token =>
    rw [hph] at h
    dsimp only at h
    by_cases h8 : w.bitsLeft < 8
    · rw [if_pos h8] at h
      cases h; exact Dec.Onward.done rfl (by rw [hleft]; exact hpos)
    · rw [if_neg h8] at h
      unfold Dec.fetchAt at h
      dsimp only [decode] at h
      cases hdec : decodeToken w.bits with
      | error r => rw [hdec] at h; cases h; exact fault _ _
      | ok p =>
        obtain ⟨i, n⟩ := p
        rw [hdec] at h
        dsimp only [Dec.setWork] at h
        rw [hw, Option.map_some] at h
        obtain ⟨hi, hn, hnl⟩ | ⟨hi, hn, hnl⟩ := decodeToken_ok hdec
        · obtain ⟨b, hb⟩ := Option.isSome_iff_exists.1 hi
          rw [Dec.streamOp_literal hb] at h
          obtain h | ⟨c, rfl⟩ := Dec.take_ok h
          · have hw' := Dec.writeByte_work h
            refine ⟨?_, fun v hv => ?_⟩
            · rw [Dec.left_some hw', hleft]
              unfold DecWork.left
              rw [hph]
              simp only [DecWork.bitsLeft] at h8 ⊢
              omega
            · rw [hw'] at hv; cases hv; exact hp
          · exact fault _ _
        · obtain ⟨off, ho⟩ := Option.isSome_iff_exists.1 hi
          rw [Dec.streamOp_offset ho] at h
          cases h
          rw [DecWork.bits_length] at hnl
          refine ⟨?_, fun v hv => by cases hv; exact fun h => nomatch h⟩
          rw [Dec.left_some (w := ({ w with bitpos := w.bitpos + n } : DecWork).setOffset off) rfl, hleft]
          unfold DecWork.left
          rw [hph]
          simp only [DecWork.setOffset_phase, DecWork.bitsLeft, DecWork.setOffset_payload, DecWork.setOffset_bitpos] at h8 hnl ⊢
          omega
  | length =>
    rw [hph] at h
    unfold Dec.fetchAt at h
    dsimp only [decode] at h
    cases hdec : decodeLength w.bits with
    | error r => rw [hdec] at h; cases h; exact fault _ _
    | ok p =>
      obtain ⟨i, n⟩ := p
      rw [hdec] at h
      dsimp only [Dec.setWork] at h
      rw [hw, Option.map_some] at h
      obtain ⟨hi, hn, hl⟩ := decodeLength_ok hdec
      rw [DecWork.bits_length] at hl
      rcases hi with hi | rfl
      · obtain ⟨c, hcode⟩ := Option.isSome_iff_exists.1 hi
        rw [Dec.streamOp_length hcode] at h
        obtain h | ⟨c, rfl⟩ := Dec.take_ok h
        · unfold Dec.copyMatch at h
          dsimp only at h
          by_cases h0 : DecWork.offset { w with bitpos := w.bitpos + n } = 0
          · rw [if_pos h0] at h; exact nomatch h
          · rw [if_neg h0] at h
            by_cases h1 : Config.histCap ≤ DecWork.offset { w with bitpos := w.bitpos + n }
            · rw [if_pos h1] at h; exact nomatch h
            · rw [if_neg h1] at h
              obtain ⟨g, hg⟩ := Dec.copyBytes_work h
              refine ⟨?_, fun v hv => by rw [hg] at hv; cases hv; exact fun h => nomatch h⟩
              rw [Dec.left_some hg, hleft]
              unfold DecWork.left
              rw [hph]
              simp only [DecWork.setLength_phase, DecWork.bitsLeft, DecWork.setLength_payload, DecWork.setLength_bitpos] at hl ⊢
              omega
        · exact fault _ _
      · cases h; exact fault _ _

/-- A finer step inside the payload does the same whatever the flags operand is. -/
theorem Dec.microStep_withFlags {x : Byte} {d : Dec} {w : DecWork} (hw : d.work = some w) (hp : w.phase ≠ .flags) :
    (d.withFlags x).microStep = d.microStep.map (Dec.withFlags x) := by
  have hw' : (d.withFlags x).work = some { w with flags := x } := by unfold Dec.withFlags Dec.setWork; rw [hw]; rfl
  unfold Dec.microStep
  rw [hw', hw]
  dsimp only
  unfold Dec.fetch
  dsimp only
  have fault : ∀ c, Except.ok ((d.withFlags x).faultEntry c) = (Except.map (Dec.withFlags x) (Except.ok (d.faultEntry c)) : Except Fault Dec) := fun c => by
    rw [Dec.withFlags_faultEntry]
    show _ = Except.ok ((d.faultEntry c).withFlags x)
    rw [Dec.faultEntry_withFlags]
  cases hph : w.phase with
  | flags => exact absurd hph hp
  | raw =>
    dsimp only
    rw [Dec.rawAppend_withFlags]
    cases d.rawAppend w.payload with
    | ok d1 => rfl
    | error e =>
      match e with
      | .raise c => exact fault c
      | .fault f => rfl
  | token =>
    dsimp only
    rw [show ({ w with flags := x, phase := .token } : DecWork).bitsLeft = w.bitsLeft from rfl,
      show ({ w with flags := x, phase := .token } : DecWork).bits = w.bits from rfl]
    by_cases h8 : w.bitsLeft < 8
    · rw [if_pos h8, if_pos h8]; rfl
    · rw [if_neg h8, if_neg h8]
      unfold Dec.fetchAt
      dsimp only [decode]
      cases hdec : decodeToken w.bits with
      | error r => exact fault _
      | ok p =>
        dsimp only
        rw [Dec.setWork_withFlags (fun w => rfl)]
        refine Dec.streamOp_withFlags x ?_ _
        obtain ⟨h, -⟩ | ⟨h, -⟩ := decodeToken_ok hdec
        · exact .inl h
        · exact .inr (.inl h)
  | length =>
    dsimp only
    rw [show ({ w with flags := x, phase := .length } : DecWork).bits = w.bits from rfl]
    unfold Dec.fetchAt
    dsimp only [decode]
    cases hdec : decodeLength w.bits with
    | error r => exact fault _
    | ok p =>
      dsimp only
      rw [Dec.setWork_withFlags (fun w => rfl)]
      refine Dec.streamOp_withFlags x ?_ _
      obtain ⟨h | h, -⟩ := decodeLength_ok hdec
      · exact .inr (.inr (.inl h))
      · exact .inr (.inr (.inr h))

/-- Behind the flags byte the operand `dec_flags` plays no part (10 R37). -/
theorem Dec.runCommand_withFlags (x : Byte) {n : Nat} {d : Dec} (hp : ∀ w, d.work = some w → w.phase ≠ .flags)
    (hn : d.left ≤ n) :
    Dec.runCommand n (d.withFlags x) = Dec.runCommand n d := by
  induction n generalizing d with
  | zero =>
    cases hw : d.work with
    | none => rw [Dec.withFlags_none hw]
    | some w => rw [Dec.left_some hw] at hn; have := w.left_pos; omega
  | succ n ih =>
    cases hw : d.work with
    | none => rw [Dec.withFlags_none hw]
    | some w =>
      have hw' : (d.withFlags x).work.isSome = true := by unfold Dec.withFlags Dec.setWork; rw [hw]; rfl
      have hm := Dec.microStep_withFlags (x := x) hw (hp w hw)
      cases hd : d.microStep with
      | error f =>
        rw [hd] at hm
        rw [Dec.runCommand, Dec.runCommand, hm, hd]
        simp [hw, Option.isNone_iff_eq_none, ← Option.not_isSome_iff_eq_none, hw', Except.map]
      | ok d' =>
        rw [hd] at hm
        have ho := Dec.microStep_onward hw (hp w hw) hd
        rw [Dec.runCommand_succ hw' hm, Dec.runCommand_succ (by rw [hw]; rfl) hd]
        exact ih ho.phase (by have := ho.left; omega)

end Sys2Proof.Machine
end

