-- ==== Sys2Proof/Laws/Step.lean ====
section
/-! SUPPORT. What a step does, said once: every meaning is an operation of its engine (spec 10 R20), a finer step is the
engine's own finer step, a command's finer steps are its run (00 R16). -/

namespace Sys2Proof.Machine

/-- A compressor instruction is an operation of the compressor. -/
theorem exec_enc {i : Instr} (h : engineOf i = .enc) : ∃ f : Enc → Option Enc, ∀ s, exec i s = s.withEnc (f s.enc) := by
  cases i <;> first | (simp only [engineOf, reduceCtorEq] at h; done) | skip
  case encNop => exact ⟨fun e => some e, fun s => rfl⟩
  case encReserved7 => exact ⟨fun e => some e, fun s => rfl⟩
  case compress m bs => exact ⟨fun e => e.compress Config.hash m bs, fun s => rfl⟩
  case encReset => exact ⟨fun e => some Enc.reset, fun s => rfl⟩
  case encReqFront => exact ⟨fun e => some (e.writeHold (e.readHold ||| packetAtFront)), fun s => rfl⟩
  case encReqFlush => exact ⟨fun e => some (e.writeHold (e.readHold ||| (packetAtFront ||| packetFlushed))), fun s => rfl⟩
  case encLoadHash t => exact ⟨fun e => some { e with hash := hashImage 0 t }, fun s => rfl⟩
  case encLoadState t => exact ⟨fun e => some (e.loadState t), fun s => rfl⟩

/-- A decompressor instruction is an operation of the decompressor. -/
theorem exec_dec {i : Instr} (h : engineOf i = .dec) : ∃ f : Dec → Except Fault Dec, ∀ s, exec i s = s.withDec
    (f s.dec) := by
  cases i <;> first | (simp only [engineOf, reduceCtorEq] at h; done) | skip
  case decNop => exact ⟨fun d => .ok d, fun s => rfl⟩
  case decompress fb pl => exact ⟨fun d => d.decompress fb pl, fun s => rfl⟩
  case decReset => exact ⟨fun d => .ok d.toReset, fun s => rfl⟩
  case decLoadState t => exact ⟨fun d => .ok (d.loadState t), fun s => rfl⟩
  case lenL3 => exact ⟨Dec.streamOp .lenL3, fun s => rfl⟩
  case lenReserved => exact ⟨Dec.streamOp .lenReserved, fun s => rfl⟩
  case flags f a c => exact ⟨Dec.streamOp (.flags f a c), fun s => rfl⟩
  case lit7 v => exact ⟨Dec.streamOp (.lit7 v), fun s => rfl⟩
  case lit8 v => exact ⟨Dec.streamOp (.lit8 v), fun s => rfl⟩
  case matchO6 v => exact ⟨Dec.streamOp (.matchO6 v), fun s => rfl⟩
  case matchO8 v => exact ⟨Dec.streamOp (.matchO8 v), fun s => rfl⟩
  case matchO11 v => exact ⟨Dec.streamOp (.matchO11 v), fun s => rfl⟩
  case matchO16 v => exact ⟨Dec.streamOp (.matchO16 v), fun s => rfl⟩
  case lenL4 v => exact ⟨Dec.streamOp (.lenL4 v), fun s => rfl⟩
  case lenL8 v => exact ⟨Dec.streamOp (.lenL8 v), fun s => rfl⟩
  case lenL16 v => exact ⟨Dec.streamOp (.lenL16 v), fun s => rfl⟩
  case lenL32 v => exact ⟨Dec.streamOp (.lenL32 v), fun s => rfl⟩
  case lenL64 v => exact ⟨Dec.streamOp (.lenL64 v), fun s => rfl⟩
  case lenL128 v => exact ⟨Dec.streamOp (.lenL128 v), fun s => rfl⟩
  case lenL256 v => exact ⟨Dec.streamOp (.lenL256 v), fun s => rfl⟩
  case lenL512 v => exact ⟨Dec.streamOp (.lenL512 v), fun s => rfl⟩
  case lenL1024 v => exact ⟨Dec.streamOp (.lenL1024 v), fun s => rfl⟩
  case lenL2048 v => exact ⟨Dec.streamOp (.lenL2048 v), fun s => rfl⟩
  case lenL4096 v => exact ⟨Dec.streamOp (.lenL4096 v), fun s => rfl⟩
  case lenL8192 v => exact ⟨Dec.streamOp (.lenL8192 v), fun s => rfl⟩
  case lenL16384 v => exact ⟨Dec.streamOp (.lenL16384 v), fun s => rfl⟩
  case lenL32768 v => exact ⟨Dec.streamOp (.lenL32768 v), fun s => rfl⟩

/-- A compressor request is a compressor command. -/
theorem EncReq.instr_engine (r : EncReq) : engineOf r.instr = .enc := by unfold EncReq.instr; split <;> rfl

/-- A decompressor request is one of the four decompressor commands. -/
theorem DecReq.instr_cases (r : DecReq) : r.instr = .decNop ∨ (∃ fb payload, r.instr = .decompress fb payload) ∨
    r.instr = .decReset ∨
      ∃ image, r.instr = .decLoadState image := by
  unfold DecReq.instr
  split
  · exact .inl rfl
  · exact .inr (.inl ⟨_, _, rfl⟩)
  · exact .inr (.inr (.inl rfl))
  · exact .inr (.inr (.inr ⟨_, rfl⟩))

/-- A decompressor request is a decompressor command. -/
theorem DecReq.instr_engine (r : DecReq) : engineOf r.instr = .dec := by unfold DecReq.instr; split <;> rfl

/-- A row of the token stream, or the flags byte, does what `streamOp` says. -/
theorem exec_streamOp {i : Instr} (h : i.literal?.isSome = true ∨ i.offset?.isSome = true ∨
    i.lengthCode?.isSome = true ∨ i = .lenReserved ∨ ∃ f a c, i = .flags f a c) (s : State) :
   exec i s = s.withDec (Dec.streamOp i s.dec) ∧ engineOf i = .dec := by
  rcases h with h | h | h | rfl | ⟨f, a, c, rfl⟩
  · cases i <;> first | exact ⟨rfl, rfl⟩ | exact nomatch h
  · cases i <;> first | exact ⟨rfl, rfl⟩ | exact nomatch h
  · cases i <;> first | exact ⟨rfl, rfl⟩ | exact nomatch h
  · exact ⟨rfl, rfl⟩
  · exact ⟨rfl, rfl⟩

/-- What a DECOMPRESS in progress fetches is a row of the token stream or the flags byte. -/
theorem Dec.fetch_run_cases {d d' : Dec} {w : DecWork} {i : Instr}
    (h : d.fetch w = .run i d') : i.literal?.isSome = true ∨ i.offset?.isSome = true ∨ i.lengthCode?.isSome = true ∨
    i = .lenReserved ∨ ∃ f a c, i = .flags f a c := by
  unfold Dec.fetch at h
  split at h
  · unfold Dec.fetchAt at h
    dsimp only [decode, decodeFlags] at h
    split at h
    · rename_i hd
      split at hd
      · cases hd; cases h; exact .inr (.inr (.inr (.inr ⟨_, _, _, rfl⟩)))
      · exact nomatch hd
    · exact nomatch h
  · split at h
    · exact nomatch h
    · unfold Fetched.ofExcept at h; split at h <;> exact nomatch h
  · split at h
    · exact nomatch h
    · unfold Dec.fetchAt at h
      dsimp only [decode] at h
      split at h
      · rename_i hd
        cases h
        obtain ⟨h, -⟩ | ⟨h, -⟩ := decodeToken_ok hd
        · exact .inl h
        · exact .inr (.inl h)
      · exact nomatch h
  · unfold Dec.fetchAt at h
    dsimp only [decode] at h
    split at h
    · rename_i hd
      cases h
      obtain ⟨h | h, -⟩ := decodeLength_ok hd
      · exact .inr (.inr (.inl h))
      · exact .inr (.inr (.inr (.inl h)))
    · exact nomatch h

/-! ## The host's actions (log 2) -/

/-- The first action that is accepted, behind actions that are not. -/
theorem firstFree_append {b : HostAct → Bool} {pre : List HostAct} {a : HostAct} (rest : List HostAct)
    (hp : ∀ x ∈ pre, b x = true) (ha : b a = false) : firstFree b (pre ++ a :: rest) = some (a, pre ++ rest) := by
  induction pre with
  | nil => simp [firstFree, ha]
  | cons x pre ih =>
    rw [List.forall_mem_cons] at hp
    simp [firstFree, hp.1, ih hp.2]

/-- Where an action is accepted, it stands behind actions that are not. -/
theorem firstFree_some {b : HostAct → Bool} {l l' : List HostAct} {a : HostAct} (h : firstFree b l = some (a, l')) :
    ∃ pre rest, l = pre ++ a :: rest ∧ l' = pre ++ rest ∧ (∀ x ∈ pre, b x = true) ∧ b a = false := by
  induction l generalizing l' with
  | nil => exact nomatch h
  | cons x l ih =>
    rw [firstFree] at h
    split at h
    · rename_i hx
      obtain ⟨⟨a', l''⟩, h1, h2⟩ := Option.map_eq_some_iff.1 h
      cases h2
      obtain ⟨pre, rest, e1, e2, h3, h4⟩ := ih h1
      exact ⟨x :: pre, rest, by rw [e1]; rfl, congrArg (x :: ·) e2, List.forall_mem_cons.2 ⟨hx, h3⟩, h4⟩
    · rename_i hx
      cases h
      exact ⟨[], l, rfl, rfl, (fun _ h => nomatch h), by simpa using hx⟩

/-- With every action held back none is accepted. -/
theorem firstFree_none {b : HostAct → Bool} {l : List HostAct} (h : ∀ x ∈ l, b x = true) : firstFree b l = none := by
  induction l with
  | nil => rfl
  | cons x l ih =>
    rw [List.forall_mem_cons] at h
    simp [firstFree, h.1, ih h.2]

/-- A step that accepts an action. -/
theorem State.fetch_act {s : State} {pre : List HostAct} {a : HostAct} (rest : List HostAct)
    (hp : ∀ x ∈ pre, s.blocked x = true) (ha : s.blocked a = false) (hh : s.host = pre ++ a :: rest) :
    s.fetch = State.hostAct { s with host := pre ++ rest } a := by
  unfold State.fetch
  rw [hh, firstFree_append rest hp ha]

/-- A step that accepts none. -/
theorem State.fetch_progress {s : State} (h : ∀ x ∈ s.host, s.blocked x = true) : s.fetch = s.progress := by
  unfold State.fetch
  rw [firstFree_none h]

/-- A port that is ready. -/
theorem State.encCmdReady_iff {s : State} : s.encCmdReady = true ↔ s.enc.work = none ∧ s.encPort.waiting = none := by
  simp [State.encCmdReady]

/-- A port that is ready. -/
theorem State.decCmdReady_iff {s : State} : s.decCmdReady = true ↔ s.dec.work = none ∧ s.decPort.waiting = none := by
  simp [State.decCmdReady]

/-! ## The finer steps (00 R16) -/

/-- A step of a COMPRESS in progress. -/
theorem step_enc {s : State} (hb : ∀ x ∈ s.host, s.blocked x = true) (hw : s.enc.work.isSome = true) {e : Enc}
    (he : s.enc.scanStep Config.hash = some e) :
   step s = .next ({ s with enc := e } : State).settleEnc := by
  unfold step
  rw [State.fetch_progress hb, State.progress, if_pos hw, State.scanEnc]
  rw [he]

/-- A step of a DECOMPRESS in progress. -/
theorem step_dec {s : State} (hb : ∀ x ∈ s.host, s.blocked x = true) (he : s.enc.work = none) (hw : s.dec.work.isSome = true)
    {d : Dec} (hd : s.dec.microStep = .ok d) :
   step s = .next ({ s with dec := d } : State).settleDec := by
  obtain ⟨w, hw⟩ := Option.isSome_iff_exists.1 hw
  unfold step
  rw [State.fetch_progress hb, State.progress, if_neg (by rw [he]; simp), hw]
  dsimp only
  unfold State.fetchDec
  unfold Dec.microStep at hd
  rw [hw] at hd
  dsimp only at hd
  cases hf : s.dec.fetch w with
  | quiet d' => rw [hf] at hd; cases hd; rfl
  | run i d' =>
    rw [hf] at hd
    dsimp only at hd ⊢
    obtain ⟨h1, h2⟩ := exec_streamOp (Dec.fetch_run_cases hf) { s with dec := d' }
    rw [h1, h2, hd]; rfl
  | stop f => rw [hf] at hd; exact nomatch hd

/-- With no action of the host coming none is accepted. -/
theorem State.blocked_nil {s : State} (h : s.host = []) : ∀ x ∈ s.host, s.blocked x = true := by
  rw [h]; exact fun _ hx => nomatch hx

/-- The finer steps of a DECOMPRESS are its run. -/
theorem steps_dec {n : Nat} : ∀ {s : State} {d : Dec}, s.host = [] → s.enc.work = none → s.dec.work.isSome = true →
    s.dec.Inv → s.dec.left ≤ n → Dec.runCommand n s.dec = .ok d → 
   ∃ k, steps k s = .next { s with dec := d, decPort := { s.decPort with done := true } } := by
  induction n with
  | zero =>
    intro s d hh he hw hi hl hr
    obtain ⟨w, hw⟩ := Option.isSome_iff_exists.1 hw
    rw [Dec.left_some hw] at hl
    have := w.left_pos; omega
  | succ n ih =>
    intro s d hh he hw hi hl hr
    obtain ⟨w, hw'⟩ := Option.isSome_iff_exists.1 hw
    obtain ⟨d1, h1, h2, h3⟩ := Dec.microStep_inv hw' hi
    rw [Dec.runCommand_succ hw h1] at hr
    have hs := step_dec (State.blocked_nil hh) he hw h1
    cases hd1 : d1.work with
    | none =>
      rw [Dec.runCommand_done hd1] at hr
      cases hr
      refine ⟨1, ?_⟩
      rw [steps, hs]
      show Host.Outcome.next (State.settleDec _) = _
      unfold State.settleDec
      dsimp only
      rw [hd1]; rfl
    | some w1 =>
      obtain ⟨k, hk⟩ := ih (s := ({ s with dec := d1 } : State).settleDec) hh he (by show d1.work.isSome = true; rw [hd1]; rfl) h2 (by show d1.left ≤ n; omega) hr
      exact ⟨k + 1, by rw [steps, hs]; exact hk⟩

/-- The finer steps of a COMPRESS are its run. -/
theorem steps_enc {n : Nat} : ∀ {s : State} {e : Enc}, s.host = [] → s.enc.work.isSome = true → e.work = none →
    Enc.runCommand Config.hash n s.enc = some e → 
   ∃ k, steps k s = .next { s with enc := e, encPort := { s.encPort with done := true } } := by
  induction n with
  | zero =>
    intro s e hh hw he hr
    cases hr
    rw [he] at hw; exact nomatch hw
  | succ n ih =>
    intro s e hh hw he hr
    obtain ⟨w, hw'⟩ := Option.isSome_iff_exists.1 hw
    cases h1 : s.enc.scanStep Config.hash with
    | none =>
      rw [Enc.runCommand, h1] at hr
      simp [hw'] at hr
    | some e1 =>
      rw [Enc.runCommand_succ Config.hash hw' h1] at hr
      have hs := step_enc (State.blocked_nil hh) hw h1
      cases hd1 : e1.work with
      | none =>
        rw [Enc.runCommand_done Config.hash hd1] at hr
        cases hr
        refine ⟨1, ?_⟩
        rw [steps, hs]
        show Host.Outcome.next (State.settleEnc _) = _
        unfold State.settleEnc
        dsimp only
        rw [hd1]; rfl
      | some w1 =>
        obtain ⟨k, hk⟩ := ih (s := ({ s with enc := e1 } : State).settleEnc) hh (by show e1.work.isSome = true; rw [hd1]; rfl) he hr
        exact ⟨k + 1, by rw [steps, hs]; exact hk⟩

/-- A DECOMPRESS that ends. -/
theorem exec_decompress_ok {s : State} {d : Dec} {fb : Byte} {pl : List Byte}
    (h : s.dec.decompress fb pl = .ok d) : exec (.decompress fb pl) s = .next { s with dec := d } := by
  show State.withDec _ _ = _; rw [h]; rfl

/-- A COMPRESS that ends. -/
theorem exec_compress_ok {s : State} {e : Enc} {m : BitVec 16} {bs : List Byte}
    (h : s.enc.compress Config.hash m bs = some e) : exec (.compress m bs) s = .next { s with enc := e } := by
  show State.withEnc _ _ = _; rw [h]; rfl

/-- A compressor request is run when its payload is complete, else it waits (70 R322). -/
theorem State.acceptEnc_eq (r : EncReq) (s : State) :
    s.acceptEnc r = if r.need ≤ r.data.length then .run r.instr { s with encPort := { s.encPort with waiting := none } }
      else .quiet { s with encPort := { done := false, waiting := some r } } := by
  unfold State.acceptEnc
  dsimp only [decode]
  by_cases h : r.need ≤ r.data.length
  · rw [if_pos h, if_pos h]
  · rw [if_neg h, if_neg h]

/-- A decompressor request is run when its payload is complete, else it waits (70 R322). -/
theorem State.acceptDec_eq (r : DecReq) (s : State) :
    s.acceptDec r = if r.need ≤ r.data.length then .run r.instr { s with decPort := { s.decPort with waiting := none } }
      else .quiet { s with decPort := { done := false, waiting := some r } } := by
  unfold State.acceptDec
  dsimp only [decode]
  by_cases h : r.need ≤ r.data.length
  · rw [if_pos h, if_pos h]
  · rw [if_neg h, if_neg h]

end Sys2Proof.Machine
end

