-- ==== Sys2Proof/Laws/Actions.lean ====
section
/-! SUPPORT. The host's coming actions (log 2): a step leaves the actions it does not accept alone and does not depend on
them, so that an action that is not accepted (spec 10 R43 to R45) holds back nothing. -/

namespace Sys2Proof.Machine

/-- What a step makes of what it found to do. -/
def Fetched.outcome : Fetched State → Host.Outcome State Fault Refusal
  | .quiet t => .next t
  | .run i t => settleOutcome (engineOf i) (exec i t)
  | .stop f => .fault f

/-- A step is the outcome of what it finds. -/
theorem step_eq (s : State) : step s = s.fetch.outcome := rfl

/-- An instruction leaves the host's coming actions alone, and its outcome does not depend on them. -/
theorem exec_host {i : Instr} {s t : State} (l : List HostAct) (h : exec i s = .next t) :
    t.host = s.host ∧ exec i { s with host := l } = .next { t with host := l } := by
  cases hi : engineOf i with
  | enc =>
    obtain ⟨f, hf⟩ := exec_enc hi
    rw [hf] at h ⊢
    obtain ⟨e, he, rfl⟩ := State.withEnc_next h
    exact ⟨rfl, by dsimp only; rw [he]; rfl⟩
  | dec =>
    obtain ⟨f, hf⟩ := exec_dec hi
    rw [hf] at h ⊢
    obtain ⟨d, hd, rfl⟩ := State.withDec_next h
    exact ⟨rfl, by dsimp only; rw [hd]; rfl⟩

/-- The same with the engine's done output. -/
theorem settleOutcome_host {g : Engine} {i : Instr} {s t : State} (l : List HostAct)
    (h : settleOutcome g (exec i s) = .next t) :
    t.host = s.host ∧ settleOutcome g (exec i { s with host := l }) = .next { t with host := l } := by
  cases hx : exec i s with
  | next u =>
    rw [hx] at h
    obtain ⟨h1, h2⟩ := exec_host l hx
    cases h
    rw [h2]
    cases g <;> exact ⟨h1, rfl⟩
  | fault f => rw [hx] at h; exact nomatch h
  | refused r => rw [hx] at h; exact nomatch h

/-- The host's actions behind the accepted one are left alone, and what the accepted one does not depend on them. -/
theorem State.hostAct_host {s t : State} {a : HostAct} (l : List HostAct) (h : (s.hostAct a).outcome = .next t) :
    t.host = s.host ∧ (State.hostAct { s with host := l } a).outcome = .next { t with host := l } := by
  have accE : ∀ r, (s.acceptEnc r).outcome = .next t →
      t.host = s.host ∧ (State.acceptEnc r { s with host := l }).outcome = .next { t with host := l } := by
    intro r h
    rw [State.acceptEnc_eq] at h ⊢
    split at h
    · rename_i hr; rw [if_pos hr]; exact settleOutcome_host l h
    · rename_i hr; rw [if_neg hr]; cases h; exact ⟨rfl, rfl⟩
  have accD : ∀ r, (s.acceptDec r).outcome = .next t →
      t.host = s.host ∧ (State.acceptDec r { s with host := l }).outcome = .next { t with host := l } := by
    intro r h
    rw [State.acceptDec_eq] at h ⊢
    split at h
    · rename_i hr; rw [if_pos hr]; exact settleOutcome_host l h
    · rename_i hr; rw [if_neg hr]; cases h; exact ⟨rfl, rfl⟩
  cases a with
  | encRst => cases h; exact ⟨rfl, rfl⟩
  | decRst => cases h; exact ⟨rfl, rfl⟩
  | encCmd r => exact accE r h
  | decCmd r => exact accD r h
  | encData bs =>
    unfold State.hostAct at h ⊢
    dsimp only at h ⊢
    split at h
    · cases h; exact ⟨rfl, rfl⟩
    · exact accE _ h
  | decData bs =>
    unfold State.hostAct at h ⊢
    dsimp only at h ⊢
    split at h
    · cases h; exact ⟨rfl, rfl⟩
    · exact accD _ h

/-- A finer step leaves the host's coming actions alone, and does not depend on them. -/
theorem State.progress_host {s t : State} (l : List HostAct) (h : s.progress.outcome = .next t) :
    t.host = s.host ∧ (State.progress { s with host := l }).outcome = .next { t with host := l } := by
  unfold State.progress at h ⊢
  split at h
  · rename_i hw
    rw [if_pos hw]
    unfold State.scanEnc at h ⊢
    dsimp only
    split at h
    · cases h; exact ⟨rfl, rfl⟩
    · exact nomatch h
  · rename_i hw
    rw [if_neg hw]
    dsimp only
    split at h
    · unfold State.fetchDec at h ⊢
      dsimp only
      split at h
      · cases h; exact ⟨rfl, rfl⟩
      · exact settleOutcome_host l h
      · exact nomatch h
    · cases h; exact ⟨rfl, rfl⟩

/-- Whether an action is accepted does not depend on the list. -/
theorem State.blocked_host (s : State) (l : List HostAct) : State.blocked { s with host := l } = s.blocked := by
  funext a; cases a <;> rfl

/-- An action that is not accepted stays where it is, and the step is what it is without it. -/
theorem step_blocked {s t : State} {a : HostAct} {rest : List HostAct} (hh : s.host = a :: rest) (hb : s.blocked a = true)
    (h : step { s with host := rest } = .next t) : step s = .next { t with host := a :: t.host } := by
  rw [step_eq] at h ⊢
  unfold State.fetch at h ⊢
  rw [hh, firstFree, if_pos hb]
  rw [State.blocked_host] at h
  cases hf : firstFree s.blocked rest with
  | none =>
    dsimp only at h
    rw [hf] at h
    obtain ⟨h1, h2⟩ := State.progress_host s.host h
    rw [Option.map_none]
    have h1 : t.host = rest := h1
    rw [h1, ← hh]
    exact h2
  | some x =>
    dsimp only at h
    rw [hf] at h
    obtain ⟨h1, h2⟩ := State.hostAct_host (a :: x.2) h
    rw [Option.map_some]
    have h1 : t.host = x.2 := h1
    rw [h1]
    exact h2

end Sys2Proof.Machine
end

