-- ==== Sys2Proof/Laws/Results.lean ====
section
/-! SUPPORT. Results said once: the candidate test and the extension of the match finder (spec 41), the flags and the history
after COMPRESS (30 R92, 42 R203), position 65535 of the decompressor's history (43 R237), load payload fields (30 R123 to
R125), and that the record of a completed DECOMPRESS determines the state. -/

namespace Sys2Proof.Machine

/-- The byte comparison says whether the bytes are equal, and both hold a value. -/
theorem sameByte_iff {h : Memory} {a b : Nat} {x : Bool} (hs : sameByte h a b = some x) :
    (x = true ↔ h.read a = h.read b) ∧ (h.read a).isSome ∧ (h.read b).isSome := by
  unfold sameByte at hs
  split at hs
  · rename_i u v hu hv
    cases hs
    rw [hu, hv]; simp
  · exact nomatch hs

/-- The extension is a run of equal bytes, as long as the chunk and the bytes allow (41 R165). -/
theorem extend_spec {h : Memory} {q p fin n L L' : Nat} (hx : extend h q p fin n L = some L') (hL : p + L ≤ fin)
    (hn : fin - (p + L) ≤ n) :
   L ≤ L' ∧ p + L' ≤ fin ∧ (∀ k, L ≤ k → k < L' → h.read (q + k) = h.read (p + k)) ∧ (p + L' < fin → L' < 65535 →
    h.read (q + L') ≠ h.read (p + L')) := by
  induction n generalizing L with
  | zero => cases hx; exact ⟨Nat.le_refl _, hL, fun k a b => by omega, fun a => by omega⟩
  | succ n ih =>
    rw [extend] at hx
    simp only [Config.maxMatch] at hx
    split at hx
    · rename_i hc
      split at hx
      · exact nomatch hx
      · rename_i hs
        obtain ⟨h1, h2, h3, h4⟩ := ih hx (by omega) (by omega)
        refine ⟨by omega, h2, fun k a b => ?_, h4⟩
        by_cases hk : k = L
        · subst hk; exact (sameByte_iff hs).1.1 rfl
        · exact h3 k (by omega) b
      · rename_i hs
        cases hx
        exact ⟨Nat.le_refl _, hL, fun k a b => by omega, fun _ _ h => by have := (sameByte_iff hs).1.2 h; exact nomatch this⟩
    · rename_i hc
      cases hx
      exact ⟨Nat.le_refl _, hL, fun k a b => by omega, fun a b => absurd ⟨a, b⟩ hc⟩

/-- The hash of a position is that of its three bytes (41 R161). -/
theorem hashAt_eq_some {H : HashFn} {h : Memory} {p v : Nat} : hashAt H h p = some v ↔ HashOf H h p v := by
  unfold hashAt HashOf
  constructor
  · intro hh
    split at hh
    · rename_i a b c ha hb hc
      cases hh
      exact ⟨a, b, c, ha, hb, hc, rfl⟩
    · exact nomatch hh
  · rintro ⟨a, b, c, ha, hb, hc, rfl⟩
    rw [ha, hb, hc]

/-- Two written positions compare. -/
theorem sameByte_total {h : Memory} {a b : Nat} (ha : (h.read a).isSome = true) (hb : (h.read b).isSome = true) :
    ∃ x, sameByte h a b = some x := by
  obtain ⟨x, hx⟩ := Option.isSome_iff_exists.1 ha
  obtain ⟨y, hy⟩ := Option.isSome_iff_exists.1 hb
  exact ⟨x == y, by unfold sameByte; rw [hx, hy]⟩

/-- Acceptance decides whether the candidate qualifies (41 R163). -/
theorem accept_iff {h : Memory} {q p fin : Nat} (hf : h.filled fin) (hp : p + 2 < fin) :
    ∃ b, accept h q p = some b ∧ (b = true ↔ Qualifies h q p) := by
  unfold accept Qualifies
  by_cases hq : q < p
  · obtain ⟨x, hx⟩ := sameByte_total (hf q (by omega)) (hf p (by omega))
    obtain ⟨y, hy⟩ := sameByte_total (hf (q + 1) (by omega)) (hf (p + 1) (by omega))
    obtain ⟨z, hz⟩ := sameByte_total (hf (q + 2) (by omega)) (hf (p + 2) hp)
    rw [if_pos hq, hx, hy, hz]
    refine ⟨_, rfl, ?_⟩
    rw [Bool.and_eq_true, Bool.and_eq_true, (sameByte_iff hx).1, (sameByte_iff hy).1, (sameByte_iff hz).1]
    refine ⟨fun ⟨⟨h0, h1⟩, h2⟩ => ⟨hq, fun k hk => ?_⟩, fun ⟨_, hk⟩ => ⟨⟨hk 0 (by omega), hk 1 (by omega)⟩, hk 2 (by omega)⟩⟩
    obtain rfl | rfl | rfl : k = 0 ∨ k = 1 ∨ k = 2 := by omega
    · exact h0
    · exact h1
    · exact h2
  · rw [if_neg hq]
    exact ⟨false, rfl, iff_of_false nofun fun h => hq h.1⟩

/-- A history that is filled holds its bytes. -/
theorem Memory.filled_holds {h : Memory} {fin : Nat} (hf : h.filled fin) : ∃ F, F.length = fin ∧ Holds h F := by
  obtain ⟨F, hF⟩ := Memory.readRange_of_filled hf (a := 0) (k := fin) (by omega)
  have hl := (Memory.readRange_eq_some.1 hF).1
  exact ⟨F, hl, holds_iff.2 (by rw [hl]; exact hF)⟩

/-- A hash value is an index of the table. -/
theorem hashAt_lt {H : HashFn} {h : Memory} {p v : Nat} (hh : hashAt H h p = some v) : v < 65536 := by
  unfold hashAt at hh
  split at hh
  · cases hh; exact BitVec.isLt _
  · exact nomatch hh

/-- The history after COMPRESS. -/
theorem Enc.Compressed.read {e e' : Enc} {m : BitVec 16} {bs F : List Byte} {toks : List Token}
    (h : e.Compressed m bs e' toks F) (x : Nat) :
   e'.hist.read x = if e.chunkBase bs.length ≤ x ∧
    x < e.chunkBase bs.length + bs.length then bs[x - e.chunkBase bs.length]? else e.hist.read x := by
  rw [h.hist, Memory.read_writeRange]

/-- The finer steps never write position 65535. -/
theorem Dec.runCommand_last {n : Nat} : ∀ {d d' : Dec}, d.Inv → Dec.runCommand n d = .ok d' → d'.faulted = false →
    d'.hist.read 65535 = d.hist.read 65535 := by
  induction n with
  | zero => intro d d' _ he _; cases he; rfl
  | succ n ih =>
    intro d d' hi he hf
    cases hw : d.work with
    | none => rw [Dec.runCommand_done hw] at he; cases he; rfl
    | some w =>
      obtain ⟨hnf, -⟩ := hi.working w hw
      obtain ⟨d1, h1, hst⟩ := Dec.microStep_spec hw (hi.cursor hnf) (hi.filled hnf)
      have hi1 := Dec.stepTo_inv hw hi hst
      rw [Dec.runCommand_succ (by rw [hw]; rfl) h1] at he
      rw [ih hi1 he hf]
      have grow : ∀ {n : Nat} {d2 : Dec}, d.Grew d2 n → d2.hist.read 65535 = d.hist.read 65535 := by
        intro n d2 hg
        refine hg.same _ (Or.inr ?_)
        rw [← hg.ptr]
        have := d2.historyPtr.isLt; omega
      cases hst with
      | fault c w' =>
        rw [Dec.runCommand_done (Dec.faultEntry_work _ _)] at he
        cases he
        exfalso
        revert hf
        cases c <;> simp [Dec.faultEntry, Dec.forget]
      | grow n hg _ _ _ _ => exact grow hg
      | done n hg _ => have := grow hg; exact this
      | flags f a _ _ _ => rfl

/-- The run of a command whose flags byte is processed, without a fault: the view starts where the command's start was latched
(43 R225, R238), and only the bytes from the old cursor to the new one are written. -/
theorem Dec.runCommand_view {n : Nat} {d d' : Dec} {w : DecWork} (hw : d.work = some w) (hp : w.phase ≠ .flags) (hi : d.Inv)
    (he : Dec.runCommand n d = .ok d') (hf : d'.faulted = false) (hd : d'.work = none) :
    d'.viewStart = w.start ∧ d.historyPtr.toNat ≤ d'.historyPtr.toNat ∧
      ∀ x, x < d.historyPtr.toNat ∨ d'.historyPtr.toNat ≤ x → d'.hist.read x = d.hist.read x := by
  induction n generalizing d w with
  | zero => cases he; rw [hw] at hd; exact nomatch hd
  | succ n ih =>
    obtain ⟨hnf, -⟩ := hi.working w hw
    obtain ⟨d1, h1, hst⟩ := Dec.microStep_spec hw (hi.cursor hnf) (hi.filled hnf)
    have hi1 := Dec.stepTo_inv hw hi hst
    rw [Dec.runCommand_succ (by rw [hw]; rfl) h1] at he
    cases hst with
    | fault c w' =>
      rw [Dec.runCommand_done (Dec.faultEntry_work _ _)] at he
      cases he
      exfalso
      revert hf
      cases c <;> simp [Dec.faultEntry, Dec.forget]
    | grow m hg hw' hs _ hp' =>
      obtain ⟨h2, h3, h4⟩ := ih hw' hp' hi1 he
      have := hg.ptr
      exact ⟨h2.trans hs, by omega, fun x hx => (h4 x (by omega)).trans (hg.same x (by omega))⟩
    | @done d2 w' m hg hs =>
      rw [Dec.runCommand_done rfl] at he
      cases he
      have := hg.ptr
      exact ⟨hs, by show _ ≤ d2.historyPtr.toNat; omega, fun x hx => hg.same x (by
        have hx : x < d.historyPtr.toNat ∨ d2.historyPtr.toNat ≤ x := hx
        omega)⟩
    | flags f a _ _ hp' => exact absurd hp' hp

/-- DECOMPRESS without a fault: the view starts at the chunk's start, and no byte outside it is written (43 R238). -/
theorem Dec.decompress_view {d d' : Dec} {fb : Byte} {bs : List Byte} (hi : d.Inv) (hnf : d.faulted = false)
    (he : d.decompress fb bs = .ok d') (hf : d'.faulted = false) (hd : d'.work = none) :
    d'.viewStart.toNat = chunkStart (fb.getLsbD 7) (fb.getLsbD 6) d ∧ d'.viewStart.toNat ≤ d'.historyPtr.toNat ∧
      ∀ x, x < d'.viewStart.toNat ∨ d'.historyPtr.toNat ≤ x → d'.hist.read x = d.hist.read x := by
  by_cases hc : fb &&& 0x1F = 0x01
  · have hdec : decodeFlags fb = .ok (.flags (fb.getLsbD 7) (fb.getLsbD 6) (fb.getLsbD 5), 8) := by
      unfold decodeFlags; rw [if_pos hc]
    rw [Dec.decompress_flags hnf hdec] at he
    have hp : (d.openedWork fb bs (fb.getLsbD 7) (fb.getLsbD 6) (fb.getLsbD 5)).phase ≠ .flags := by
      unfold Dec.openedWork
      dsimp only
      split <;> exact nofun
    have hio : (d.opened fb bs (fb.getLsbD 7) (fb.getLsbD 6) (fb.getLsbD 5)).Inv := {
      histWf := hi.histWf
      noCode := fun _ => hi.noCode hnf
      code := fun h => nomatch hnf.symm.trans (show d.faulted = true from h)
      noView := fun h => nomatch hnf.symm.trans (show d.faulted = true from h)
      cursor := fun _ => Dec.applyFlags_cursor (fb.getLsbD 7) (fb.getLsbD 6) (hi.cursor hnf)
      filled := fun _ => Dec.applyFlags_filled (fb.getLsbD 7) (fb.getLsbD 6) (hi.filled hnf)
      view := fun _ hn => nomatch hn
      working := fun v hv => by cases hv; exact ⟨hnf, Nat.le_refl _⟩ }
    obtain ⟨h1, h2, h3⟩ := Dec.runCommand_view rfl hp hio he hf hd
    have h1 : d'.viewStart = (d.applyFlags (fb.getLsbD 7) (fb.getLsbD 6)).historyPtr := h1
    rw [h1, Dec.applyFlags_ptr]
    refine ⟨rfl, ?_, fun x hx => h3 x ?_⟩
    · rw [← Dec.applyFlags_ptr]; exact h2
    · rw [← Dec.applyFlags_ptr] at hx; exact hx
  · rw [Dec.decompress_badFlags bs hnf hc] at he
    cases he
    exact nomatch hf

/-- The flags bytes of the three legal reset flags. -/
theorem legalHold_flags (b : Byte) (h : legalHold b) : 
   (rawFlags b = 0x01 ∨ rawFlags b = 0x41 ∨ rawFlags b = 0xC1) ∧ (compressedFlags b = 0x21 ∨ compressedFlags b = 0x61 ∨
    compressedFlags b = 0xE1) ∧
   (rawFlags b).getLsbD 5 = false ∧ (compressedFlags b).getLsbD 5 = true ∧ (rawFlags b).getLsbD 6 = b.getLsbD 6 ∧
    (rawFlags b).getLsbD 7 = b.getLsbD 7 ∧ (compressedFlags b).getLsbD 6 = b.getLsbD 6 ∧
    (compressedFlags b).getLsbD 7 = b.getLsbD 7 ∧
   (b ≠ 0 ↔ b.getLsbD 6 = true) := by
  rcases h with rfl | rfl | rfl <;> decide

/-- When the reset flags are set (42 R183, R184). -/
theorem Enc.chunkHold_bits {e : Enc} (n : Nat) (h : legalHold e.flagsHold) :
   ((e.chunkHold n).getLsbD 6 = true ↔ 65536 ≤ e.historyOffset.toNat + n ∨ e.firstPkt = true ∨ e.flagsHold ≠ 0) ∧
   ((e.chunkHold n).getLsbD 7 = true ↔ e.firstPkt = true ∨ e.flagsHold.getLsbD 7 = true) ∧
    (e.chunkHold n ≠ 0 ↔ (e.chunkHold n).getLsbD 6 = true) := by
  refine ⟨?_, ?_, (legalHold_flags _ (Enc.chunkHold_legal n h)).2.2.2.2.2.2.2.2⟩
  · rw [Enc.chunkHold_eq n h]
    unfold Enc.resetFlags Enc.rewinds
    rcases h with h | h | h <;> rw [h] <;> cases e.firstPkt <;> by_cases hc : 65536 ≤ e.historyOffset.toNat + n <;> simp [hc]
  · rw [Enc.chunkHold_eq n h]
    unfold Enc.resetFlags Enc.rewinds
    rcases h with h | h | h <;> rw [h] <;> cases e.firstPkt <;> by_cases hc : 65536 ≤ e.historyOffset.toNat + n <;> simp [hc]

/-- The flags, the offset and the payload of a chunk. -/
theorem Enc.compress_result {e : Enc} {bs : List Byte} (m : BitVec 16) (h : e.Inv) (hn : bs ≠ [])
    (hl : bs.length ≤ 65535) :
   ∃ e', e.compress Config.hash m bs = some e' ∧ 
     (e'.flags = 0x01 ∨ e'.flags = 0x21 ∨ e'.flags = 0x41 ∨ e'.flags = 0x61 ∨ e'.flags = 0xC1 ∨ e'.flags = 0xE1) ∧
     e'.flags.getLsbD 6 = (e.chunkHold bs.length).getLsbD 6 ∧ e'.flags.getLsbD 7 = (e.chunkHold bs.length).getLsbD 7 ∧
     e'.historyOffset.toNat = e.chunkBase bs.length + bs.length ∧
     ∃ toks, e.Scanned Config.hash m bs toks e'.hash ∧
       (e'.flags.getLsbD 5 = true ↔ ceil8 (encodeTokens toks).length ≤ min bs.length m.toNat) ∧
       (e'.flags.getLsbD 5 = false → e'.output = bs) ∧ (e'.flags.getLsbD 5 = true → e'.output = assemble toks) := by
  obtain ⟨e', toks, F, h1, h2, hsc⟩ := Enc.compress_scanned Config.hash m h hn hl
  have hf := legalHold_flags _ (Enc.chunkHold_legal bs.length h.hold)
  obtain ⟨f1, f2, f3, f4, f5, f6, f7, f8, -⟩ := hf
  refine ⟨e', h1, ?_⟩
  rw [h2.offset, h2.length]
  by_cases hc : ceil8 (encodeTokens toks).length ≤ min bs.length m.toNat
  · obtain ⟨a, -, -⟩ := h2.packed hc
    rw [a, h2.output_packed hc, f4, f7, f8]
    exact ⟨by rcases f2 with h | h | h <;> rw [h] <;> decide, rfl, rfl, rfl, toks, hsc, iff_of_true rfl hc,
      (fun h => nomatch h), fun _ => rfl⟩
  · obtain ⟨a, -, -⟩ := h2.raw (by omega)
    rw [a, h2.output_raw (by omega), f3, f5, f6]
    exact ⟨by rcases f1 with h | h | h <;> rw [h] <;> decide, rfl, rfl, rfl, toks, hsc, iff_of_false (fun h => nomatch h) hc,
      (fun _ => rfl), (fun h => nomatch h)⟩

/-- A chunk that rewinds starts with a cleared table. -/
theorem Enc.begin_hash_cleared {e : Enc} (m : BitVec 16) (bs : List Byte) (h : e.chunkHold bs.length ≠ 0) (v : Nat) :
    (e.begin m bs).hash.read v = 0 := by
  have : (e.begin m bs).hash = (e.resetPolicy bs.length).hash := rfl
  rw [this, Enc.resetPolicy_hash, if_pos h]; rfl

/-- The next chunk after a reset request (44 R262, R263). -/
theorem Enc.compress_pending {e : Enc} (h : e.Inv) (hh : e.flagsHold ≠ 0) (m : BitVec 16) (bs : List Byte)
    (hn : bs ≠ []) (hl : bs.length ≤ 65535) :
   ∃ e', e.compress Config.hash m bs = some e' ∧ e'.historyOffset.toNat = bs.length ∧ e'.flags.getLsbD 6 = true ∧
    (e.flagsHold.getLsbD 7 = true → e'.flags.getLsbD 7 = true) ∧ ∀ v, (e.begin m bs).hash.read v = 0 := by
  obtain ⟨e', h1, h2, h3, h4, h5, -⟩ := Enc.compress_result m h hn hl
  obtain ⟨k1, k2, k3⟩ := Enc.chunkHold_bits bs.length h.hold
  have k := k3.2 (k1.2 (.inr (.inr hh)))
  refine ⟨e', h1, ?_, by rw [h3]; exact k1.2 (.inr (.inr hh)), fun hb => by rw [h4]; exact k2.2 (.inr hb), Enc.begin_hash_cleared m bs k⟩
  rw [h5, Enc.chunkBase, if_pos k]; omega

/-- A 16-bit field of a payload. -/
theorem le16_toNat (lo hi : Byte) : (le16 lo hi).toNat = lo.toNat + 256 * hi.toNat := by
  have := lo.isLt; have := hi.isLt
  rw [le16, BitVec.toNat_ofNat, Nat.mod_eq_of_lt (by omega)]

/-- The history of a state image. -/
theorem read_imageHist {image : List Byte} (a : Nat) : (imageHist image).read a = image[4 + a]? := by
  unfold imageHist
  rw [Memory.read_ofBytes]
  rw [if_pos (Nat.zero_le _), Nat.sub_zero, List.getElem?_drop]

/-- A synced pair has no fault. -/
theorem Synced.notFaulted {e : Enc} {d : Dec} (h : Synced e d) : d.faulted = false := by
  rcases h with h | h
  · exact h.1
  · exact h.2

/-- A raw chunk that fits. -/
theorem Dec.rawChunk {s : State} {fb : Byte} {pl : List Byte} (hi : s.dec.Inv) (hf : s.dec.faulted = false)
    (hb : fb &&& 0x3F = 0x01)
   (hfit : chunkStart (fb.getLsbD 7) (fb.getLsbD 6) s.dec + pl.length ≤ 65535) :
   ∃ d, s.dec.decompress fb pl = .ok d ∧ Decompressed (fb.getLsbD 7) (fb.getLsbD 6) s { s with dec := d } pl ∧ d.Inv := by
  have hd := decodeFlags_of_type (c := false) hb
  have hp := Dec.applyFlags_ptr (fb.getLsbD 7) (fb.getLsbD 6) s.dec
  have hcur := Dec.applyFlags_cursor (fb.getLsbD 7) (fb.getLsbD 6) (hi.cursor hf)
  have hfill := Dec.applyFlags_filled (fb.getLsbD 7) (fb.getLsbD 6) (hi.filled hf)
  obtain ⟨P, hP⟩ := Memory.readRange_of_filled hfill (a := 0) (k := (s.dec.applyFlags (fb.getLsbD 7) (fb.getLsbD 6)).historyPtr.toNat) (by omega)
  obtain ⟨d₁, w₁, h1, h2, h3, h4⟩ := Dec.decompress_raw hf (hi.cursor hf) hd hP (by rw [hp]; exact hfit)
  obtain ⟨d2, j1, j2, -⟩ := Dec.decompress_completes fb pl hi
  have : d2 = d₁.finish w₁ := by rw [j1] at h1; cases h1; rfl
  exact ⟨d₁.finish w₁, h1, decompressed_of_grew hf h2 (by rw [(Memory.readRange_eq_some.1 hP).1, hp]) h3 h4, this ▸ j2⟩

/-- The record of a completed DECOMPRESS determines the decompressor. -/
theorem Decompressed.unique {f a : Bool} {s : State} {d d' : Dec} {out : List Byte}
    (h : Decompressed f a s { s with dec := d } out) (h' : Decompressed f a s { s with dec := d' } out)
   (hw : Memory.wf d.hist) (hw' : Memory.wf d'.hist) : d = d' := by
  have e1 : d.hist = d'.hist := by
    refine Memory.ext_read hw.1 hw'.1 fun x => ?_
    by_cases hx : x < chunkStart f a s.dec ∨ chunkStart f a s.dec + out.length ≤ x
    · exact (h.outside x hx).trans (h'.outside x hx).symm
    · have b1 := h.bytes (x - chunkStart f a s.dec) (by omega)
      have b2 := h'.bytes (x - chunkStart f a s.dec) (by omega)
      rw [show chunkStart f a s.dec + (x - chunkStart f a s.dec) = x by omega] at b1 b2
      exact b1.trans b2.symm
  have e2 : d.historyPtr = d'.historyPtr := BitVec.eq_of_toNat_eq (h.cursor.trans h'.cursor.symm)
  have e3 : d.validHi = d'.validHi := BitVec.eq_of_toNat_eq (h.mark.trans h'.mark.symm)
  have e4 : d.viewStart = d'.viewStart := BitVec.eq_of_toNat_eq (h.viewStart.trans h'.viewStart.symm)
  have e5 : d.viewLen = d'.viewLen := BitVec.eq_of_toNat_eq (h.viewLen.trans h'.viewLen.symm)
  have f1 := congrArg State.dec h.frame
  have f2 := congrArg State.dec h'.frame
  rw [show ({ s with dec := d } : State).dec = d from rfl] at f1
  rw [show ({ s with dec := d' } : State).dec = d' from rfl] at f2
  rw [f1, f2]
  simp only [e1, e2, e3, e4, e5]

end Sys2Proof.Machine
end

