-- ==== Sys2Proof/Tests/Slice0.lean ====
section
/-! SUPPORT. Tests. Expected values are the spec's own: the token tables of 95 part 2.1, the vectors V and DV of parts 2.2
and 2.3, and the examples of the rules. The compressor's vectors run with the recommended `HASH` (41 R172). After them, a
witness for every statement with hypotheses. -/

namespace Sys2Proof.Machine

/-! ## WellFormed refuses (30 R115, R123 to R125, 42 R181) -/

theorem test_illFormed_compress : (Instr.compress 0 (List.replicate 65536 0)).wellFormed = false := by
  rw [Instr.wellFormed, List.length_replicate]; decide
theorem test_illFormed_decompress : (Instr.decompress 0x21 (List.replicate 65536 0)).wellFormed = false := by
  rw [Instr.wellFormed, List.length_replicate]; decide
theorem test_illFormed_loadHash : (Instr.encLoadHash (List.replicate 131071 0)).wellFormed = false := by
  rw [Instr.wellFormed, List.length_replicate]; decide
theorem test_illFormed_encLoadState : (Instr.encLoadState (List.replicate 65541 0)).wellFormed = false := by
  rw [Instr.wellFormed, List.length_replicate]; decide
theorem test_illFormed_decLoadState : (Instr.decLoadState (List.replicate 65536 0)).wellFormed = false := by
  rw [Instr.wellFormed, List.length_replicate]; decide
theorem test_illFormed_tokens : (Token.mtch 0 3).wellFormed = false ∧ (Token.mtch 65536 3).wellFormed = false ∧
    (Token.mtch 1 2).wellFormed = false ∧ (Token.mtch 1 65536).wellFormed = false := by decide

/-! ## Decoding: every constructor, by bits the tables of 95 part 2.1 and 30 R120, R121 print -/

/-- A printed bit string. -/
def bitsOf (s : String) : Bits := s.toList.map (· == '1')

theorem test_decode_lit7 : decode (.token (bitsOf "01111111")) = .ok (.lit7 0x7F, 8) := by decide
theorem test_decode_lit8 : decode (.token (bitsOf "100101010")) = .ok (.lit8 0x2A, 9) := by decide
theorem test_decode_matchO6 : decode (.token (bitsOf "11111000001")) = .ok (.matchO6 1, 11) := by decide
theorem test_decode_matchO8 : decode (.token (bitsOf "1111011111111")) = .ok (.matchO8 0xFF, 13) := by decide
theorem test_decode_matchO11 : decode (.token (bitsOf "111011111111111")) = .ok (.matchO11 0x7FF, 15) := by decide
theorem test_decode_matchO16 : decode (.token (bitsOf "1101111011010111110")) = .ok (.matchO16 63166, 19) := by decide
theorem test_decode_lenL3 : decode (.length (bitsOf "0")) = .ok (.lenL3, 1) := by decide
theorem test_decode_lenL4 : decode (.length (bitsOf "1011")) = .ok (.lenL4 3, 4) := by decide
theorem test_decode_lenL8 : decode (.length (bitsOf "110011")) = .ok (.lenL8 3, 6) := by decide
theorem test_decode_lenL16 : decode (.length (bitsOf "11101111")) = .ok (.lenL16 15, 8) := by decide
theorem test_decode_lenL32 : decode (.length (bitsOf "1111000000")) = .ok (.lenL32 0, 10) := by decide
theorem test_decode_lenL64 : decode (.length (bitsOf "111110111111")) = .ok (.lenL64 63, 12) := by decide
theorem test_decode_lenL128 : decode (.length (bitsOf "11111100000000")) = .ok (.lenL128 0, 14) := by decide
theorem test_decode_lenL256 : decode (.length (bitsOf "1111111011111111")) = .ok (.lenL256 255, 16) := by decide
theorem test_decode_lenL512 : decode (.length (bitsOf "111111110000000000")) = .ok (.lenL512 0, 18) := by decide
theorem test_decode_lenL1024 : decode (.length (bitsOf "11111111101111111111")) = .ok (.lenL1024 1023, 20) := by decide
theorem test_decode_lenL2048 : decode (.length (bitsOf "1111111111000000000000")) = .ok (.lenL2048 0, 22) := by decide
theorem test_decode_lenL4096 : decode (.length (bitsOf "111111111110111111111111")) = .ok (.lenL4096 4095, 24) := by
  decide
theorem test_decode_lenL8192 : decode (.length (bitsOf "11111111111100000000000000")) = .ok (.lenL8192 0, 26) := by
  decide
theorem test_decode_lenL16384 : decode (.length (bitsOf "1111111111111010001110111110")) = .ok (.lenL16384 9150, 28) := by
  decide
theorem test_decode_lenL32768 :
    decode (.length (bitsOf "111111111111110111111111111110")) = .ok (.lenL32768 32766, 30) := by decide
theorem test_decode_lenReserved : decode (.length (bitsOf "1111111111111110")) = .ok (.lenReserved, 15) := by decide
theorem test_decode_flags : decode (.flagsByte 0x61) = .ok (.flags false true true, 8) := by decide
theorem test_decode_badFlags : decode (.flagsByte 0x20) = .error .badFlags ∧ decode (.flagsByte 0xE0) = .error .badFlags ∧
    decode (.flagsByte 0x31) = .error .badFlags := by decide
theorem test_decode_encNop : decode (.encCmd ⟨0, 0, 0, []⟩) = .ok (.encNop, 3) := by decide
theorem test_decode_compress : decode (.encCmd ⟨1, 2, 9, [0x61, 0x62, 0x63]⟩) = .ok (.compress 9 [0x61, 0x62], 3) := by decide
theorem test_decode_compress_short : decode (.encCmd ⟨1, 2, 9, [0x61]⟩) = .error .payloadShort := by decide
theorem test_decode_encReset : decode (.encCmd ⟨2, 0, 0, []⟩) = .ok (.encReset, 3) := by decide
theorem test_decode_encReqFront : decode (.encCmd ⟨3, 0, 0, []⟩) = .ok (.encReqFront, 3) := by decide
theorem test_decode_encReqFlush : decode (.encCmd ⟨4, 0, 0, []⟩) = .ok (.encReqFlush, 3) := by decide
theorem test_decode_encLoadHash (l : List Byte) (h : l.length = 131072) :
    decode (.encCmd ⟨5, 0, 0, l⟩) = .ok (.encLoadHash l, 3) := by
  show (if 131072 ≤ l.length then Except.ok (Instr.encLoadHash (l.take 131072), 3) else _) = _
  rw [if_pos (by omega), List.take_of_length_le (by omega)]
theorem test_decode_encLoadState (l : List Byte) (h : l.length = 65540) :
    decode (.encCmd ⟨6, 0, 0, l⟩) = .ok (.encLoadState l, 3) := by
  show (if 65540 ≤ l.length then Except.ok (Instr.encLoadState (l.take 65540), 3) else _) = _
  rw [if_pos (by omega), List.take_of_length_le (by omega)]
theorem test_decode_encReserved7 : decode (.encCmd ⟨7, 0, 0, []⟩) = .ok (.encReserved7, 3) := by decide
theorem test_decode_decNop : decode (.decCmd ⟨0, 0, 0, []⟩) = .ok (.decNop, 2) := by decide
theorem test_decode_decompress : decode (.decCmd ⟨1, 1, 0xE1, [0x41]⟩) = .ok (.decompress 0xE1 [0x41], 2) := by decide
theorem test_decode_decReset : decode (.decCmd ⟨2, 0, 0, []⟩) = .ok (.decReset, 2) := by decide
theorem test_decode_decLoadState (l : List Byte) (h : l.length = 65540) :
    decode (.decCmd ⟨3, 0, 0, l⟩) = .ok (.decLoadState l, 2) := by
  show (if 65540 ≤ l.length then Except.ok (Instr.decLoadState (l.take 65540), 2) else _) = _
  rw [if_pos (by omega), List.take_of_length_le (by omega)]

/-- The longest and the shortest match token (95 part 2.1). -/
theorem test_wholeTokens :
    encodeToken (.mtch 65535 65535) = bitsOf "1101111011010111111111111111111110111111111111111" ∧
    encodeToken (.mtch 1 3) = bitsOf "111110000010" ∧ encodeToken (.mtch 1 10) = bitsOf "11111000001110010" ∧
    encodeToken (.lit 0xAA) = bitsOf "100101010" := by decide

/-! ## DECOMPRESS: the vectors of 95 part 2.3 -/

/-- The decompressor after a chunk, or `none` where the model stops. -/
def after (f : Byte) (p : List Byte) (d : Dec) : Option Dec :=
  match d.decompress f p with
  | .ok d' => some d'
  | .error _ => none

/-- View, cursor and validity mark after chunks from the reset state. -/
def viewAfter : List (Byte × List Byte) → Dec → Option (List Byte × Nat × Nat)
  | [], d => d.output.map fun v => (v, d.historyPtr.toNat, d.validHi.toNat)
  | c :: cs, d => (after c.1 c.2 d).bind fun d' => viewAfter cs d'

/-- The fault code after chunks from the reset state. -/
def codeAfter : List (Byte × List Byte) → Dec → Option (BitVec 3)
  | [], d => if d.faulted then some d.faultCode else none
  | c :: cs, d => (after c.1 c.2 d).bind fun d' => codeAfter cs d'

theorem test_DV1 : viewAfter [(0xE1, [0x95, 0x7C, 0x1C, 0x80])] Dec.reset = some (List.replicate 11 0xAA, 11, 11) := by
  decide +kernel
/-- DV2 step 1. -/
def dv2 : Byte × List Byte := (0xE1, [0x61, 0x62, 0x63, 0x64, 0x65, 0x66, 0x67, 0x68])
theorem test_DV2 : viewAfter [dv2, (0x61, [0xDE, 0xD7, 0xE0])] Dec.reset = some ([0x62, 0x63, 0x64], 3, 8) := by
  decide +kernel
theorem test_DV2b : codeAfter [dv2, (0xE1, [0xDE, 0xD7, 0xE0])] Dec.reset = some 5 := by decide +kernel
theorem test_DV2c : codeAfter [dv2, (0x61, [0xDE, 0xD7, 0xF8, 0x00])] Dec.reset = some 5 := by decide +kernel
theorem test_DV2d : codeAfter [dv2, (0x21, [0xDE, 0xD7, 0xE0])] Dec.reset = some 5 := by decide +kernel
theorem test_DV3 : codeAfter [(0xE1, [0x41, 0xF8, 0x40])] Dec.reset = some 5 := by decide +kernel
theorem test_DV4 : codeAfter [(0xE1, [0x41, 0xF8, 0x00])] Dec.reset = some 4 := by decide +kernel
theorem test_DV5 : codeAfter [(0xE1, [0x80])] Dec.reset = some 2 ∧ codeAfter [(0xE1, [0x41, 0xF8])] Dec.reset = some 2 ∧
    codeAfter [(0xE1, [0x41, 0xF8, 0x38])] Dec.reset = some 2 ∧
    codeAfter [(0xE1, [0x41, 0xF8, 0x3F, 0xFF, 0x80])] Dec.reset = some 2 := by decide +kernel
theorem test_DV6 : codeAfter [(0xE1, [0x41, 0xF8, 0x3F, 0xFF, 0xC0])] Dec.reset = some 3 := by decide +kernel
theorem test_DV7 : codeAfter [(0x20, [0x41])] Dec.reset = some 1 ∧ codeAfter [(0x31, [0x41])] Dec.reset = some 1 ∧
    codeAfter [(0xE0, [0x41])] Dec.reset = some 1 ∧ codeAfter [(0x00, [0x41])] Dec.reset = some 1 := by decide +kernel
theorem test_DV8 : codeAfter [(0xE1, [0x41, 0xFE])] Dec.reset = some 2 ∧
    viewAfter [(0xE1, [0x80, 0x7F])] Dec.reset = some ([0x80], 1, 1) ∧
    viewAfter [(0xE1, [0x41, 0x00])] Dec.reset = some ([0x41, 0x00], 2, 2) := by decide +kernel
theorem test_DV9 : viewAfter [(0xC1, [0x80, 0x81, 0x82]), (0x21, [0xF8, 0x60])] Dec.reset = some ([0x80, 0x81, 0x82], 6, 6) := by
  decide +kernel
theorem test_DV11 : codeAfter [(0xE1, [0x41, 0xF8, 0x00]), (0xE1, [0x41])] Dec.reset = some 4 := by decide +kernel
theorem test_DV12 : viewAfter [(0xE1, []), (0x21, []), (0x01, [])] Dec.reset = some ([], 0, 0) := by decide +kernel
theorem test_DV13 : codeAfter [(0xE1, [0x41, 0xDE, 0xD8, 0x00])] Dec.reset = some 5 := by decide +kernel
theorem test_DV14 : viewAfter [dv2, (0xA1, [0x7A])] Dec.reset = some ([0x7A], 1, 1) := by decide +kernel
theorem test_DV16 : viewAfter [(0xE1, [0x61, 0x62, 0x63]), (0x41, [])] Dec.reset = some ([], 0, 3) ∧
    codeAfter [(0xE1, [0x61, 0x62, 0x63]), (0x41, []), (0x21, [0xF8, 0x60])] Dec.reset = some 5 := by decide +kernel
theorem test_DV17 : viewAfter [(0xE1, [0x61, 0x62, 0x63]), (0x81, [])] Dec.reset = some ([], 0, 0) := by decide +kernel

/-! ## COMPRESS: the vectors of 95 part 2.2 -/

/-- Payload, flags and offset after a chunk with the recommended `HASH`. -/
def chunk (m : BitVec 16) (input : List Byte) (e : Enc) : Option (List Byte × Byte × Nat) :=
  (e.compress Config.crcHash m input).map fun e' => (e'.output, e'.flags, e'.historyOffset.toNat)

/-- The compressor after a chunk. -/
def fed (input : List Byte) (e : Enc) : Enc := (e.compress Config.crcHash 0xFFFF input).getD e

/-- "abcabcabc". -/
def abc3 : List Byte := [0x61, 0x62, 0x63, 0x61, 0x62, 0x63, 0x61, 0x62, 0x63]

theorem test_V1 : chunk 0xFFFF abc3 Enc.reset = some ([0x61, 0x62, 0x63, 0xF8, 0x74], 0xE1, 9) := by decide +kernel
theorem test_V2 : chunk 0xFFFF (List.replicate 11 0xAA) Enc.reset = some ([0x95, 0x7C, 0x1C, 0x80], 0xE1, 11) := by
  decide +kernel
theorem test_V4 : chunk 0xFFFF [0x80, 0x81, 0x82, 0x83, 0x84, 0x85, 0x86, 0x87] Enc.reset =
    some ([0x80, 0x81, 0x82, 0x83, 0x84, 0x85, 0x86, 0x87], 0xC1, 8) := by decide +kernel
theorem test_V5 : chunk 4 abc3 Enc.reset = some (abc3, 0xC1, 9) ∧
    chunk 5 abc3 Enc.reset = some ([0x61, 0x62, 0x63, 0xF8, 0x74], 0xE1, 9) := by decide +kernel
theorem test_V12 : chunk 0xFFFF [0x61, 0x62, 0x63, 0x64, 0x61, 0x62, 0x63, 0x64, 0x58, 0x61, 0x62, 0x63, 0x64] Enc.reset =
    some ([0x61, 0x62, 0x63, 0x64, 0xF8, 0x90, 0xB1, 0xF1, 0x60], 0xE1, 13) := by decide +kernel
theorem test_V14 : chunk 0xFFFF (List.replicate 4 0x61) Enc.reset = some ([0x61, 0xF8, 0x20], 0xE1, 4) := by decide +kernel
theorem test_V16 : chunk 0xFFFF [0x61, 0x62, 0x63, 0x58, 0x61, 0x62, 0x63] Enc.reset =
    some ([0x61, 0x62, 0x63, 0x58, 0xF8, 0x80], 0xE1, 7) := by decide +kernel
theorem test_V7 : chunk 0xFFFF [0x61, 0x62, 0x63] (fed [0x61, 0x62] (fed [0x61] Enc.reset)) =
    some ([0x61, 0x62, 0x63], 0x21, 6) := by decide +kernel
theorem test_V8 : chunk 0xFFFF (abc3.take 6) ((fed (abc3.take 6) Enc.reset).writeHold 0xC0) =
    some ([0x61, 0x62, 0x63, 0xF8, 0x60], 0xE1, 6) := by decide +kernel
theorem test_V9 : chunk 0xFFFF [0x80, 0x81, 0x82, 0x83, 0x84, 0x85, 0x86, 0x87]
    (fed [0x80, 0x81, 0x82, 0x83, 0x84, 0x85, 0x86, 0x87] Enc.reset) = some ([0xF9, 0x18, 0x00], 0x21, 16) := by decide +kernel
theorem test_V13 : chunk 0xFFFF [] Enc.reset = some ([], 0x01, 0) ∧
    chunk 0xFFFF [0x61, 0x62] (fed [] Enc.reset) = some ([0x61, 0x62], 0xE1, 2) := by decide +kernel
theorem test_V19 : ((Enc.reset.compress (fun _ _ _ => 0) 0xFFFF abc3).map fun e => (e.output, e.flags, e.historyOffset)) =
    some (abc3, 0xE1, 9) := by decide +kernel
/-! ## Control commands and the step -/

/-- 44 R262, R263: 0x40 | 0xC0 = 0xC0. -/
theorem test_requests : (Enc.reset.writeHold 0x40).readHold = 0x40 ∧
    ((Enc.reset.writeHold 0x40).writeHold (0x40 ||| 0xC0)).readHold = 0xC0 ∧ (Enc.reset.writeHold 0x3F).readHold = 0 := by decide

/-- 30 R124: bit 7 of the byte sets both bits of the loaded register; bits 5:0 are ignored. -/
theorem test_loadedHold : loadedHold 0x80 = 0xC0 ∧ loadedHold 0x40 = 0x40 ∧ loadedHold 0xBF = 0xC0 ∧ loadedHold 0x3F = 0 := by
  decide

/-- 30 R125: the loaded validity mark is the greater of the two fields; both little-endian (20 R68). -/
theorem test_loadState : (Dec.reset.loadState [0x02, 0x01, 0x01, 0x00, 0xAA, 0xBB]).historyPtr = 0x0102 ∧
    (Dec.reset.loadState [0x02, 0x01, 0x01, 0x00, 0xAA, 0xBB]).validHi = 0x0102 ∧
    (Dec.reset.loadState [0x02, 0x01, 0x01, 0x00, 0xAA, 0xBB]).hist.read 1 = some 0xBB := by decide

/-- 30 R123: entry 1 is `payload[2] + 256 * payload[3]`. -/
theorem test_loadHash : (hashImage 0 [0x00, 0x00, 0x34, 0x12]).read 1 = 0x1234 ∧ (hashImage 0 [0x00, 0x00, 0x34, 0x12]) = [(1, 0x1234)] := by
  decide

/-- 60 R281: the six codes. -/
theorem test_codes : Cause.badFlags.code = 1 ∧ Cause.truncatedToken.code = 2 ∧ Cause.reservedLengthCode.code = 3 ∧
    Cause.offsetZero.code = 4 ∧ Cause.offsetOutOfWindow.code = 5 ∧ Cause.historyOverflow.code = 6 := by decide

/-- A table number is decoded as the row it is a word of. -/
theorem test_tableWords : decodeTableWord 8 0x42 = some (.lit7 0x42) ∧ decodeTableWord 16 0x12A = some (.lit8 0x2A) ∧
    decodeTableWord 11 0x7C1 = some (.matchO6 1) ∧ decodeTableWord 15 0x7FFF = some .lenReserved ∧
    decodeTableWord 8 0xE1 = some (.flags true true true) ∧ decodeTableWord 3 4 = some .encReqFlush ∧
    decodeTableWord 2 1 = some (.decompress 0 []) := by decide

/-- A step runs the row placed for it: LIT7 0x42 at the cursor, ENC_REQ_FRONT at the port. -/
theorem test_step : (match step (State.reset.withFetchWord 8 0x42) with
      | .next t => t.dec.hist == [(0, 0x42)] && t.dec.historyPtr == 1
      | _ => false) = true ∧
    (match step (State.reset.withFetchWord 3 3) with
      | .next t => t.enc.flagsHold == 0x40 && t.encPort.done
      | _ => false) = true := by decide

/-! ## Witnesses: a state and operands that meet the hypotheses of each statement -/

/-- A decompressor that holds `n` bytes 0x41, all valid, with the cursor behind them. -/
def held (n : Nat) (w : Option DecWork) : Dec :=
  { Dec.reset with
    hist := Memory.ofBytes 0 (List.replicate n 0x41), historyPtr := BitVec.ofNat 16 n, validHi := BitVec.ofNat 16 n,
    viewLen := BitVec.ofNat 16 n, work := w }

/-- A DECOMPRESS in progress with a payload, reading it in a phase, with an offset. -/
def working (payload : List Byte) (phase : DecPhase) (off : Nat) : DecWork :=
  { payload := payload, flags := 0xE1, phase := phase, start := 0, bitpos := 0, off := off, mlen := 0, src := 0, ones := 0 }

/-- The machine with that decompressor. -/
def heldState (n : Nat) (w : Option DecWork) : State := { State.reset with dec := held n w }

theorem held_inv (n : Nat) (h : n ≤ 65535) (p : List Byte) (ph : DecPhase) (off : Nat) (idle : Bool) :
    (held n (if idle then none else some (working p ph off))).Inv where
  histWf := Memory.ofBytes_wf (by rw [List.length_replicate]; omega)
  noCode := fun _ => rfl
  code := fun h => nomatch h
  noView := fun h => nomatch h
  cursor := fun _ => Nat.le_refl _
  filled := fun _ a ha => by
    have ha : a < (BitVec.ofNat 16 n).toNat := ha
    rw [BitVec.toNat_ofNat, Nat.mod_eq_of_lt (by omega)] at ha
    show ((Memory.ofBytes 0 (List.replicate n 0x41)).read a).isSome = true
    rw [Memory.read_ofBytes, if_pos (by omega), Nat.sub_zero, List.getElem?_replicate, if_pos ha]; rfl
  view := fun _ _ => by show 0 + (BitVec.ofNat 16 n).toNat = (BitVec.ofNat 16 n).toNat; omega
  working := fun w hw => by
    cases idle
    · cases hw; exact ⟨rfl, Nat.zero_le _⟩
    · exact nomatch hw

theorem held_cursor (n : Nat) (h : n ≤ 65535) (w : Option DecWork) : (heldState n w).dec.historyPtr.toNat = n ∧
    (heldState n w).dec.validHi.toNat = n := by
  have : (BitVec.ofNat 16 n).toNat = n := by rw [BitVec.toNat_ofNat, Nat.mod_eq_of_lt (by omega)]
  exact ⟨this, this⟩

/-- A decompressor in the fault state OffsetZero. -/
def stuck : State := { State.reset with dec := { Dec.reset with faulted := true, faultCode := 4 } }

theorem stuck_inv : stuck.dec.Inv where
  histWf := Memory.nil_wf
  noCode := fun h => nomatch h
  code := fun _ => by decide
  noView := fun _ => rfl
  cursor := fun h => nomatch h
  filled := fun h => nomatch h
  view := fun h => nomatch h
  working := fun _ h => nomatch h

theorem stuck_stateInv : stuck.Inv := ⟨Enc.reset_inv, stuck_inv, (fun _ h => nomatch h), (fun _ h => nomatch h)⟩

/-- The reset pair is synced: the first chunk flushes (43 R239). -/
theorem reset_synced : Synced State.reset.enc State.reset.dec := .inr ⟨.inl rfl, rfl⟩

theorem test_wit_DecodeEncodeAgree : (Instr.compress 4 abc3).wellFormed = true ∧ (Instr.lenL32768 0x7FFF).wellFormed = true := by
  decide
theorem test_wit_WholeTokenDecodes : (Token.mtch 65535 65535).wellFormed = true ∧ (Token.mtch 1 3).wellFormed = true := by decide
theorem test_wit_DecodedBitsAreTheCode : decodeToken (bitsOf "1101111011010111111") = .ok (.matchO16 63167, 19) ∧
    decodeLength (bitsOf "111111111111110111111111111111") = .ok (.lenL32768 32767, 30) := by decide
theorem test_wit_OffsetsHaveOneCode : OffsetRow (.matchO6 0) 0 ∧ OffsetRow (.matchO8 0) 64 ∧ OffsetRow (.matchO11 0) 320 ∧
    OffsetRow (.matchO16 0) 2368 ∧ OffsetRow (.matchO16 65535) 67903 :=
  ⟨.inl ⟨0, rfl, rfl⟩, .inr (.inl ⟨0, rfl, rfl⟩), .inr (.inr (.inl ⟨0, rfl, rfl⟩)), .inr (.inr (.inr ⟨0, rfl, rfl⟩)),
    .inr (.inr (.inr ⟨65535, rfl, rfl⟩))⟩
theorem test_wit_LengthsHaveOneCode : LengthRow .lenL3 0 3 ∧ LengthRow (.lenL4 0) 1 4 ∧ LengthRow (.lenL8 7) 2 15 :=
  ⟨.inl ⟨rfl, rfl, rfl⟩, .inr (.inl ⟨0, rfl, rfl, rfl⟩), .inr (.inr (.inl ⟨7, rfl, rfl, rfl⟩))⟩
theorem test_wit_StreamBitOrder : 15 < 8 * [(0x41 : Byte), 0xF8].length ∧ 10 < 11 := by decide
theorem test_wit_AcceptedFlagsBytes : (¬ ∃ x, decodeFlags 0x31 = .ok x) ∧ State.reset.dec.faulted = false := by
  refine ⟨?_, rfl⟩
  rintro ⟨x, hx⟩
  exact nomatch hx
theorem test_wit_LiteralsWriteOneByte :
    (heldState 65534 (some (working [] .token 0))).dec.work = some (working [] .token 0) ∧
    (heldState 65534 (some (working [] .token 0))).dec.historyPtr.toNat < 65535 ∧
    65535 ≤ (heldState 65535 (some (working [] .token 0))).dec.historyPtr.toNat :=
  ⟨rfl, by rw [(held_cursor 65534 (by omega) _).1]; omega, by rw [(held_cursor 65535 (by omega) _).1]⟩
theorem test_wit_OffsetCodesSetTheOffset :
    (heldState 1 (some (working [] .token 0))).dec.work = some (working [] .token 0) ∧ OffsetRow (.matchO8 0xFF) 319 :=
  ⟨rfl, .inr (.inl ⟨0xFF, rfl, rfl⟩)⟩
/-- The last three bytes below position 65535 are written; the source is the byte before. -/
theorem test_wit_LengthCodesCopyTheMatch :
    (heldState 65532 (some (working [] .length 1))).dec.Inv ∧ LengthRow .lenL3 0 3 ∧
    (heldState 65532 (some (working [] .length 1))).dec.historyPtr.toNat + 3 ≤ 65535 ∧
    (∀ k, k < 3 → k < (working [] .length 1).off →
      matchSource 1 (heldState 65532 (some (working [] .length 1))).dec.historyPtr.toNat k <
        (heldState 65532 (some (working [] .length 1))).dec.validHi.toNat) := by
  refine ⟨held_inv 65532 (by omega) [] .length 1 false, .inl ⟨rfl, rfl, rfl⟩, ?_, fun k _ hk => ?_⟩
  · rw [(held_cursor 65532 (by omega) _).1]
  · rw [(held_cursor 65532 (by omega) _).1, (held_cursor 65532 (by omega) _).2]
    have hk : k < 1 := hk
    rw [show k = 0 by omega]; decide
/-- Offset 0; offset 65536. -/
theorem test_wit_MatchFaultsInOrder_static :
    (heldState 1 (some (working [] .length 0))).dec.Inv ∧
    (heldState 1 (some (working [] .length 0))).dec.work = some (working [] .length 0) ∧ (working [] .length 0).off = 0 ∧
    (heldState 1 (some (working [] .length 65536))).dec.Inv ∧
    (heldState 1 (some (working [] .length 65536))).dec.work = some (working [] .length 65536) ∧
    65536 ≤ (working [] .length 65536).off ∧ LengthRow .lenL3 0 3 :=
  ⟨held_inv 1 (by omega) [] .length 0 false, rfl, rfl, held_inv 1 (by omega) [] .length 65536 false, rfl, Nat.le_refl _,
    .inl ⟨rfl, rfl, rfl⟩⟩
/-- DV2c in its second chunk: seven bytes are copied, the source of the eighth is the validity mark. -/
def dv2c : State :=
  { State.reset with dec := { held 8 (some (working [] .length 65535)) with historyPtr := 0, viewLen := 0 } }
theorem dv2c_inv : dv2c.dec.Inv where
  histWf := (held_inv 8 (by omega) [] .length 65535 false).histWf
  noCode := fun _ => rfl
  code := fun h => nomatch h
  noView := fun h => nomatch h
  cursor := fun _ => Nat.zero_le _
  filled := (held_inv 8 (by omega) [] .length 65535 false).filled
  view := fun _ h => nomatch h
  working := fun w hw => by cases hw; exact ⟨rfl, Nat.zero_le _⟩
theorem test_wit_MatchFaultsInOrder_window :
    dv2c.dec.Inv ∧ dv2c.dec.work = some (working [] .length 65535) ∧ LengthRow (.lenL8 0) 2 8 ∧
    1 ≤ (working [] .length 65535).off ∧ (working [] .length 65535).off ≤ 65535 ∧ 7 < 8 ∧
    (∀ j, j < 7 → matchSource (working [] .length 65535).off dv2c.dec.historyPtr.toNat j <
      max dv2c.dec.validHi.toNat (dv2c.dec.historyPtr.toNat + j) ∧ dv2c.dec.historyPtr.toNat + j < 65535) ∧
    max dv2c.dec.validHi.toNat (dv2c.dec.historyPtr.toNat + 7) ≤
      matchSource (working [] .length 65535).off dv2c.dec.historyPtr.toNat 7 :=
  ⟨dv2c_inv, rfl, .inr (.inr (.inl ⟨0, rfl, rfl, rfl⟩)), by decide, by decide, by decide, by decide, by decide⟩
/-- The cursor at 65535, the source valid. -/
theorem test_wit_MatchFaultsInOrder_full :
    (heldState 65535 (some (working [] .length 1))).dec.Inv ∧
    (heldState 65535 (some (working [] .length 1))).dec.work = some (working [] .length 1) ∧ LengthRow .lenL3 0 3 ∧
    matchSource (working [] .length 1).off (heldState 65535 (some (working [] .length 1))).dec.historyPtr.toNat 0 <
      max (heldState 65535 (some (working [] .length 1))).dec.validHi.toNat
        ((heldState 65535 (some (working [] .length 1))).dec.historyPtr.toNat + 0) ∧
    65535 ≤ (heldState 65535 (some (working [] .length 1))).dec.historyPtr.toNat + 0 := by
  refine ⟨held_inv 65535 (by omega) [] .length 1 false, rfl, .inl ⟨rfl, rfl, rfl⟩, ?_, ?_⟩
  · rw [(held_cursor 65535 (by omega) _).1, (held_cursor 65535 (by omega) _).2]; decide
  · rw [(held_cursor 65535 (by omega) _).1]
theorem test_wit_ReservedLengthFaults :
    (heldState 1 (some (working [0xFF, 0xFE] .length 1))).dec.work = some (working [0xFF, 0xFE] .length 1) := rfl
theorem test_wit_FlagsByteRewinds : (heldState 1 (some (working [] .flags 0))).dec.work = some (working [] .flags 0) := rfl
theorem test_wit_StreamRowsNeedACommand : State.reset.dec.work = none ∧ OffsetRow (.matchO6 63) 63 ∧ LengthRow .lenL3 0 3 :=
  ⟨rfl, .inl ⟨63, rfl, rfl⟩, .inl ⟨rfl, rfl, rfl⟩⟩
theorem test_wit_BadFlagsChangeNothing : State.reset.dec.faulted = false ∧ ((0x20 : Byte) &&& 0x0F ≠ 0x01) ∧
    (0x31 : Byte).getLsbD 4 = true := by decide
theorem test_wit_FaultStateRefuses : stuck.dec.Inv ∧ stuck.dec.faulted = true ∧ exec .encReqFront stuck =
    .next { stuck with enc := stuck.enc.writeHold 0x40 } ∧ Instr.encReqFront ≠ .decReset := ⟨stuck_inv, rfl, rfl, by decide⟩
/-- DV9 step 1, and DV10d: a raw byte with the cursor at 65535. -/
theorem test_wit_RawChunksAreAppended :
    (heldState 3 none).dec.Inv ∧ (heldState 3 none).dec.faulted = false ∧ (0xC1 : Byte) &&& 0x3F = 0x01 ∧
    chunkStart ((0xC1 : Byte).getLsbD 7) ((0xC1 : Byte).getLsbD 6) (heldState 3 none).dec + 3 ≤ 65535 ∧
    (heldState 65535 none).dec.Inv ∧ (0x01 : Byte) &&& 0x3F = 0x01 ∧
    65535 < chunkStart ((0x01 : Byte).getLsbD 7) ((0x01 : Byte).getLsbD 6) (heldState 65535 none).dec + 1 := by
  refine ⟨held_inv 3 (by omega) [] .flags 0 true, rfl, rfl, by decide, held_inv 65535 (by omega) [] .flags 0 true, rfl, ?_⟩
  show 65535 < (heldState 65535 none).dec.historyPtr.toNat + 1
  rw [(held_cursor 65535 (by omega) _).1]; omega
/-- DV1. -/
theorem test_wit_CompressedChunksAreReplayed : State.reset.dec.Inv ∧ State.reset.dec.faulted = false ∧ (0xE1 : Byte) &&& 0x3F = 0x21 ∧
    (List.replicate 6 false).length < 8 ∧ ([] : List Byte).length + (List.replicate 11 (0xAA : Byte)).length ≤ 65535 ∧
    bytesToBits [0x95, 0x7C, 0x1C, 0x80] = encodeTokens [.lit 0xAA, .mtch 1 10] ++ List.replicate 6 false ∧
    (∀ t ∈ [Token.lit 0xAA, .mtch 1 10], t.wellFormed = true) ∧
    State.reset.dec.hist.readRange 0 (chunkStart true true State.reset.dec) = some [] ∧
    replay [.lit 0xAA, .mtch 1 10] [] = some ([] ++ List.replicate 11 0xAA) :=
  ⟨Dec.reset_inv, rfl, by decide, by decide, by decide, by decide, by decide, rfl, by decide⟩
/-- DV8a and DV6: eight bits behind a token that do not make one; the reserved prefix. -/
theorem test_wit_MalformedTokensFault : State.reset.dec.Inv ∧ State.reset.dec.faulted = false ∧ (0xE1 : Byte) &&& 0x3F = 0x21 ∧
    bytesToBits [0x41, 0xFE] = encodeTokens [.lit 0x41] ++ bitsOf "11111110" ∧ 8 ≤ (bitsOf "11111110").length ∧
    (∀ t ∈ [Token.lit 0x41], t.wellFormed = true) ∧
    State.reset.dec.hist.readRange 0 (chunkStart true true State.reset.dec) = some [] ∧
    replay [.lit 0x41] [] = some ([] ++ [0x41]) ∧ decodeWhole (bitsOf "11111110") = .error .truncatedToken ∧
    bytesToBits [0x41, 0xF8, 0x3F, 0xFF, 0xC0] = encodeTokens [.lit 0x41] ++ bitsOf "11111000001111111111111111000000" ∧
    decodeWhole (bitsOf "11111000001111111111111111000000") = .error .reservedLengthCode :=
  ⟨Dec.reset_inv, rfl, by decide, by decide, by decide, by decide, rfl, by decide, by decide, by decide, by decide⟩
theorem test_wit_DecompressCompletes : State.reset.dec.Inv ∧ State.reset.dec.work = none := ⟨Dec.reset_inv, rfl⟩
/-- A DECOMPRESS in progress with six bits of padding left. -/
theorem test_wit_EndOfStreamPublishesTheView :
    (∀ a ∈ (heldState 3 (some (working [] .token 0))).host, (heldState 3 (some (working [] .token 0))).blocked a = true) ∧
    (heldState 3 (some (working [] .token 0))).enc.work = none ∧
    (heldState 3 (some { working [0x80] .token 0 with bitpos := 2 })).dec.work =
      some { working [0x80] .token 0 with bitpos := 2 } ∧
    ({ working [0x80] .token 0 with bitpos := 2 } : DecWork).bitsLeft < 8 := ⟨nofun, rfl, rfl, by decide⟩
/-- DV2 in the second chunk, a match of old content above the cursor: the view starts at position 0. -/
theorem test_DV2_view : (((after dv2.1 dv2.2 Dec.reset).bind (after 0x61 [0xDE, 0xD7, 0xE0])).map fun d =>
    (d.viewStart, d.viewLen)) = some (0, 3) := by decide +kernel
theorem test_wit_LastPositionIsNeverWritten : (∃ t, exec (.compress 0 abc3) State.reset = .next t) ∧ State.reset.enc.Inv ∧
    ∃ t, exec (.decompress 0xE1 []) State.reset = .next t ∧ t.dec.faulted = false := by
  obtain ⟨e, h, -⟩ := Enc.compress_inv Config.hash 0 Enc.reset_inv (bs := abc3) (by decide)
  exact ⟨⟨{ State.reset with enc := e }, by show State.withEnc _ (Enc.compress Config.hash 0 abc3 Enc.reset) = _; rw [h]; rfl⟩,
    Enc.reset_inv, _, rfl, rfl⟩

/-- "aaaa" in a history. -/
def aaaa : Memory := Memory.ofBytes 0 [0x61, 0x61, 0x61, 0x61]
/-- A scan of "aaaa" with the first byte consumed. -/
def scanning : EncWork :=
  { input := [0x61, 0x61, 0x61, 0x61], maxOut := 0xFFFF, base := 0, ctr := 1, hold := 0xC0, toks := [.lit 0x61], p := 0,
    q := 0, L := 0, hv := 0 }
/-- V14 in its second scan step: position 0 is in the table. -/
def scanEnc : Enc :=
  { Enc.reset with hist := aaaa, hash := Table.write [] 5 0, work := some scanning }

theorem aaaa_filled : aaaa.filled 4 := fun a ha => by
  have : a = 0 ∨ a = 1 ∨ a = 2 ∨ a = 3 := by omega
  rcases this with rfl | rfl | rfl | rfl <;> rfl
/-- 41 R163 at its boundary: the position just below is accepted, the position itself is not, nor one with another byte. -/
theorem test_accept : accept aaaa 0 1 = some true ∧ accept aaaa 1 1 = some false ∧
    accept (Memory.ofBytes 0 [0x61, 0x62, 0x63, 0x61, 0x62, 0x64]) 0 3 = some false := by decide
theorem test_wit_FoundMatchesAreTrue : aaaa.filled 4 ∧ 1 + 2 < 4 ∧ Qualifies aaaa 0 1 ∧ ¬ Qualifies aaaa 1 1 ∧
    accept aaaa 0 1 = some true ∧ extend aaaa 0 1 4 (4 - 1) 3 = some 3 := by
  refine ⟨aaaa_filled, by decide, ⟨by decide, by decide⟩, fun h => absurd h.1 (by decide), by decide, by decide⟩
/-- The chunk tail (42 R192): with two bytes left the literal at position 2, `p` is 2, the table is what it was. -/
theorem test_tail : { scanEnc with work := some { scanning with ctr := 2 } }.scanStep (fun _ _ _ => 5) =
    some { scanEnc with work := some { scanning with p := 2, ctr := 3, toks := [.lit 0x61, .lit 0x61] } } := by decide
theorem test_wit_ScanEmitsLiteralOrMatch_tail : { scanning with ctr := 2 }.ctr < scanning.input.length ∧
    scanning.input.length < { scanning with ctr := 2 }.ctr + 3 ∧ scanning.input.length < { scanning with ctr := 3 }.ctr + 3 ∧
    scanEnc.hist.read (scanning.base + 2) = some 0x61 ∧ scanEnc.hist.read (scanning.base + 3) = some 0x61 := by decide
/-- The match with the entry 0; with the entry equal to the position, the literal (41 R163). -/
theorem test_wit_ScanEmitsLiteralOrMatch : scanEnc.work = some scanning ∧ scanning.ctr + 3 ≤ scanning.input.length ∧
    scanEnc.hist.read 1 = some 0x61 ∧ scanEnc.hist.read (1 + 1) = some 0x61 ∧ scanEnc.hist.read (1 + 2) = some 0x61 ∧
    (scanEnc.hash.read 5).toNat = 0 ∧
    accept scanEnc.hist 0 1 = some true ∧ extend scanEnc.hist 0 1 scanning.fin (scanning.fin - 1) 3 = some 3 ∧
    insertInterior (fun _ _ _ => 5) scanEnc.hist scanning.fin (3 - 1) (1 + 1) (scanEnc.hash.write 5 1) = some [(5, 1)] ∧
    accept scanEnc.hist 1 1 = some false := by decide
/-- 41 R161: the hash is that of the bytes at `p`, `p + 1`, `p + 2`, in this order. -/
theorem test_hashAt : hashAt (fun a b c => a.setWidth 16 + (b.setWidth 16 <<< 4) + (c.setWidth 16 <<< 8))
    (Memory.ofBytes 0 [9, 1, 2, 3, 9]) 1 = some 0x321 := by decide
theorem test_wit_InteriorInsertsMostRecentWins : Table.wf ([] : Table) ∧ aaaa.filled 4 ∧
    insertInterior (fun _ _ _ => 5) aaaa 4 2 0 [] = some [(5, 1)] ∧ HashOf (fun _ _ _ => 5) aaaa 1 5 ∧
    ¬ HashOf (fun _ _ _ => 5) aaaa 1 6 :=
  ⟨Table.cleared_wf, aaaa_filled, by decide, ⟨0x61, 0x61, 0x61, by decide⟩, fun ⟨_, _, _, _, _, _, h⟩ => nomatch h⟩
/-- V14 and V4 at the end of the scan: 3 bytes of code for 4, 9 bytes for 8. -/
def ended (input : List Byte) (toks : List Token) : EncWork := { scanning with input := input, ctr := input.length, toks := toks }
theorem test_wit_ScanEndsCompressedOrRaw :
    ({ State.reset with enc := { scanEnc with work := some (ended (List.replicate 4 0x61) [.lit 0x61, .mtch 1 3]) } } : State).enc.work =
      some (ended (List.replicate 4 0x61) [.lit 0x61, .mtch 1 3]) ∧ (∀ a ∈ State.reset.host, State.reset.blocked a = true) ∧
    (ended (List.replicate 4 0x61) [.lit 0x61, .mtch 1 3]).ctr = (ended (List.replicate 4 0x61) [.lit 0x61, .mtch 1 3]).input.length ∧
    ceil8 (encodeTokens (ended (List.replicate 4 0x61) [.lit 0x61, .mtch 1 3]).toks).length ≤
      min 4 (ended (List.replicate 4 0x61) [.lit 0x61, .mtch 1 3]).maxOut.toNat ∧
    min 8 (ended (List.replicate 8 0x80) (List.replicate 8 (.lit 0x80))).maxOut.toNat <
      ceil8 (encodeTokens (ended (List.replicate 8 0x80) (List.replicate 8 (.lit 0x80))).toks).length := by decide
/-- A first chunk rewinds; a compressor that is past its first chunk, with room and nothing pending, does not. -/
theorem test_wit_CompressCompletes : State.reset.enc.Inv ∧ abc3 ≠ [] ∧ abc3.length ≤ 65535 ∧
    State.reset.enc.rewinds abc3.length = true ∧ ({ Enc.reset with firstPkt := false } : Enc).rewinds abc3.length = false ∧
    ({ Enc.reset with firstPkt := false } : Enc).Inv :=
  ⟨Enc.reset_inv, by decide, by decide, by decide, by decide,
    ⟨Memory.nil_wf, Table.cleared_wf, .inl rfl, .inl rfl, Nat.le_refl _, Nat.zero_le _, Memory.filled_zero _, nofun⟩⟩
/-- 42 R183: without a rewind the table stays, with one it is cleared. -/
theorem test_resetPolicy_table : ({ Enc.reset with firstPkt := false, hash := [(5, 1)] } : Enc).resetPolicy 9 =
      { Enc.reset with firstPkt := false, hash := [(5, 1)] } ∧
    (({ Enc.reset with hash := [(5, 1)] } : Enc).resetPolicy 9).hash = [] := by decide
theorem test_wit_EmittedFlagsEnumerated : State.reset.enc.Inv ∧ ([] : List Byte).length ≤ 65535 ∧ abc3.length ≤ 65535 :=
  ⟨Enc.reset_inv, by decide, by decide⟩
theorem test_wit_EncResetState :
    step { State.reset with host := [.encRst] } = .next { State.reset with encPort := EncPort.reset, host := [] } ∧ abc3 ≠ [] :=
  ⟨rfl, by decide⟩
theorem test_wit_DecResetState : ∃ u, step { stuck with host := [.decRst] } = .next u ∧ u.dec = Dec.reset := ⟨_, rfl, rfl⟩
theorem test_wit_FrontRequestIsHeld : State.reset.enc.Inv ∧ abc3 ≠ [] ∧ abc3.length ≤ 65535 := ⟨Enc.reset_inv, by decide, by decide⟩
theorem test_wit_FlushRequestIsHeld : (Enc.reset.writeHold 0x40).Inv ∧ abc3 ≠ [] ∧ abc3.length ≤ 65535 :=
  ⟨Enc.writeHold_inv Enc.reset_inv (.inr (.inl rfl)), by decide, by decide⟩
theorem test_wit_LoadHashReplacesTheTable : (List.replicate 131072 (0x12 : Byte)).length = 131072 ∧
    (List.replicate 131072 (0x12 : Byte))[2 * 65535]? = some 0x12 ∧ (List.replicate 131072 (0x12 : Byte))[2 * 65535 + 1]? = some 0x12 := by
  refine ⟨List.length_replicate, ?_, ?_⟩ <;> rw [List.getElem?_replicate, if_pos (by omega)]
theorem test_wit_LoadState : (List.replicate 65540 (0xC1 : Byte)).length = 65540 ∧
    (List.replicate 65540 (0xC1 : Byte))[0]? = some 0xC1 ∧ (List.replicate 65540 (0xC1 : Byte))[1]? = some 0xC1 ∧
    (List.replicate 65540 (0xC1 : Byte))[2]? = some 0xC1 ∧ (List.replicate 65540 (0xC1 : Byte))[3]? = some 0xC1 := by
  refine ⟨List.length_replicate, ?_, ?_, ?_, ?_⟩ <;> rw [List.getElem?_replicate, if_pos (by omega)]
/-- In the fault state: an idle step; `rst`; DEC_RESET and DEC_LOAD_STATE presented; the last bytes of a DEC_LOAD_STATE. -/
theorem test_wit_FaultStateExits : stuck.Inv ∧ stuck.dec.faulted = true ∧ step stuck = .next stuck ∧
    (∃ t, step { stuck with host := [.decCmd ⟨2, 0, 0, []⟩] } = .next t ∧ t.dec.faulted = false) ∧
    (∃ t, step { stuck with host := [.decRst] } = .next t ∧ t.dec.faulted = false) :=
  ⟨stuck_stateInv, rfl, rfl, ⟨_, rfl, rfl⟩, ⟨_, rfl, rfl⟩⟩
theorem test_wit_RstAbandonsTheCommand :
    ({ State.reset with enc := scanEnc, host := [.encRst] } : State).host = [] ++ .encRst :: [] ∧
    ({ heldState 3 (some (working [] .token 0)) with host := [.decRst] } : State).host = [] ++ .decRst :: [] := ⟨rfl, rfl⟩
/-- A COMPRESS waits for its second byte and a second command of its port stands before `rst`: `rst` acts (70 R310), on either
engine, and the second command is then accepted. -/
theorem test_rst_behind :
    let s : State := { State.reset with encPort := { done := false, waiting := some ⟨1, 2, 0, [0x61]⟩ } }
    (∀ a ∈ [HostAct.encCmd ⟨3, 0, 0, []⟩], s.blocked a = true) ∧
    step { s with host := [.encCmd ⟨3, 0, 0, []⟩, .encRst] } =
      .next { State.reset with host := [.encCmd ⟨3, 0, 0, []⟩] } ∧
    step { s with dec := stuck.dec, host := [.encCmd ⟨3, 0, 0, []⟩, .decRst] } = .next { s with host := [.encCmd ⟨3, 0, 0, []⟩] } ∧
    steps 2 { s with host := [.encCmd ⟨3, 0, 0, []⟩, .encRst] } =
      .next { State.reset with enc := Enc.reset.writeHold 0x40, encPort := { done := true, waiting := none } } :=
  ⟨by decide, rfl, rfl, rfl⟩
/-- The machine with one host action coming. -/
def coming (a : HostAct) : State := { State.reset with host := [a] }
theorem test_wit_StepRunsTheDecodedInstruction_commands :
    (coming (.encCmd ⟨3, 0, 0, []⟩)).host = [] ++ .encCmd ⟨3, 0, 0, []⟩ :: [] ∧
    (coming (.encCmd ⟨3, 0, 0, []⟩)).encCmdReady = true ∧ decode (.encCmd ⟨3, 0, 0, []⟩) = .ok (.encReqFront, 3) ∧
    (coming (.decCmd ⟨2, 0, 0, []⟩)).host = [] ++ .decCmd ⟨2, 0, 0, []⟩ :: [] ∧
    (coming (.decCmd ⟨2, 0, 0, []⟩)).decCmdReady = true ∧ decode (.decCmd ⟨2, 0, 0, []⟩) = .ok (.decReset, 2) := by decide
theorem test_wit_StepRunsTheDecodedInstruction_rows :
    (∀ a ∈ (heldState 3 (some (working [] .flags 0))).host, (heldState 3 (some (working [] .flags 0))).blocked a = true) ∧ (heldState 3 (some (working [] .flags 0))).enc.work = none ∧
    (heldState 3 (some (working [] .flags 0))).dec.work = some (working [] .flags 0) ∧
    decode (.flagsByte (working [] .flags 0).flags) = .ok (.flags true true true, 8) ∧
    (heldState 3 (some (working [0x41] .token 0))).dec.work = some (working [0x41] .token 0) ∧
    (working [0x41] .token 0).phase = .token ∧ 8 ≤ (working [0x41] .token 0).bitsLeft ∧
    decode (.token (working [0x41] .token 0).bits) = .ok (.lit7 0x41, 8) ∧
    (heldState 3 (some (working [0x41] .length 1))).dec.work = some (working [0x41] .length 1) ∧
    (working [0x41] .length 1).phase = .length ∧ decode (.length (working [0x41] .length 1).bits) = .ok (.lenL3, 1) :=
  ⟨nofun, rfl, rfl, by decide, rfl, rfl, by decide, by decide, rfl, rfl, by decide⟩
/-- A COMPRESS of two bytes whose second byte comes later; a DECOMPRESS of two bytes likewise. -/
def pending : State :=
  { State.reset with
    encPort := { done := false, waiting := some ⟨1, 2, 0, [0x61]⟩ }
    decPort := { done := false, waiting := some ⟨1, 2, 0xC1, [0x61]⟩ } }
theorem test_wit_ShortPayloadsWait_presented :
    (coming (.encCmd ⟨1, 2, 0, [0x61]⟩)).host = .encCmd ⟨1, 2, 0, [0x61]⟩ :: [] ∧
    (coming (.encCmd ⟨1, 2, 0, [0x61]⟩)).encCmdReady = true ∧
    (EncReq.mk 1 2 0 [0x61]).data.length < (EncReq.mk 1 2 0 [0x61]).need ∧
    (coming (.encData [0x62])).enc.work = none ∧ (coming (.encData [0x62])).encPort.waiting = none ∧
    (coming (.decCmd ⟨1, 2, 0xC1, [0x61]⟩)).host = .decCmd ⟨1, 2, 0xC1, [0x61]⟩ :: [] ∧
    (coming (.decCmd ⟨1, 2, 0xC1, [0x61]⟩)).decCmdReady = true ∧
    (DecReq.mk 1 2 0xC1 [0x61]).data.length < (DecReq.mk 1 2 0xC1 [0x61]).need ∧
    (coming (.decData [0x62])).dec.work = none ∧ (coming (.decData [0x62])).decPort.waiting = none := by decide
theorem test_wit_ShortPayloadsWait_waiting :
    pending.enc.work = none ∧ pending.encPort.waiting = some ⟨1, 2, 0, [0x61]⟩ ∧ pending.encCmdReady = false ∧
    (EncReq.mk 1 2 0 [0x61]).data.length + ([] : List Byte).length < (EncReq.mk 1 2 0 [0x61]).need ∧
    (EncReq.mk 1 2 0 [0x61]).need ≤ (EncReq.mk 1 2 0 [0x61]).data.length + [(0x62 : Byte)].length ∧
    pending.dec.work = none ∧ pending.decPort.waiting = some ⟨1, 2, 0xC1, [0x61]⟩ ∧ pending.decCmdReady = false ∧
    (DecReq.mk 1 2 0xC1 [0x61]).data.length + ([] : List Byte).length < (DecReq.mk 1 2 0xC1 [0x61]).need ∧
    (DecReq.mk 1 2 0xC1 [0x61]).need ≤ (DecReq.mk 1 2 0xC1 [0x61]).data.length + [(0x62 : Byte)].length := by decide
/-- DEC_LOAD_STATE waits with no byte there (70 R322). -/
theorem test_wit_ShortPayloadsWait_load : (DecReq.mk 3 0 0 []).data.length < (DecReq.mk 3 0 0 []).need ∧
    (EncReq.mk 5 0 0 []).data.length < (EncReq.mk 5 0 0 []).need := by
  show 0 < 65540 ∧ 0 < 131072
  omega
/-- A second command stands behind a waiting one; bytes stand behind a COMPRESS or a DECOMPRESS in progress. -/
theorem test_wit_ShortPayloadsWait_held :
    (∃ t, step pending = .next t) ∧ { State.reset with enc := scanEnc }.enc.work ≠ none ∧
    (heldState 3 (some (working [] .token 0))).dec.work ≠ none ∧
    (∃ t, step (heldState 3 (some (working [] .token 0))) = .next t) := ⟨⟨_, rfl⟩, nofun, nofun, ⟨_, rfl⟩⟩
/-- The bytes of a raw DECOMPRESS come in two parts: "ab" is its view (43 R227). -/
theorem test_decData : (match step { pending with host := [.decData [0x62]] } with
      | .next t => t.dec.output == some [0x61, 0x62] && t.decPort.done && t.host.isEmpty
      | _ => false) = true := by decide +kernel
theorem test_wit_GranularitiesAgree : State.reset.Inv ∧ State.reset.enc.work = none ∧ State.reset.dec.work = none ∧
    State.reset.dec.faulted = false ∧ State.reset.host = [] ∧ abc3 ≠ [] ∧ abc3.length ≤ 65535 :=
  ⟨State.reset_inv, rfl, rfl, rfl, rfl, by decide, by decide⟩
/-- The invariant holds at reset, in the fault state and inside a DECOMPRESS; from the first the step is a next state. -/
theorem test_wit_StepKeepsTheInvariant : State.reset.Inv ∧ stuck.Inv ∧ (heldState 3 (some (working [] .token 0))).dec.Inv ∧
    step State.reset = .next State.reset :=
  ⟨State.reset_inv, stuck_stateInv, held_inv 3 (by omega) [] .token 0 false, rfl⟩
theorem test_wit_StepNeverStops : State.reset.Inv := State.reset_inv
theorem test_wit_CommandsKeepTheInvariant : State.reset.Inv ∧ State.reset.enc.work = none ∧ State.reset.dec.work = none ∧
    (Instr.compress 0 abc3).wellFormed = true ∧ engineOf (.compress 0 abc3) = .enc ∧
    (Instr.decompress 0x21 abc3).wellFormed = true :=
  ⟨State.reset_inv, rfl, rfl, by decide, rfl, by decide⟩
theorem test_wit_EnginesAreIndependent : engineOf .encReqFront = .enc ∧ State.reset.enc = stuck.enc ∧
    (∃ t, exec .encReqFront State.reset = .next t) ∧ engineOf .decNop = .dec ∧ (∃ t, exec .decNop stuck = .next t) :=
  ⟨rfl, rfl, ⟨_, rfl⟩, rfl, ⟨_, rfl⟩⟩
theorem test_wit_RoundTrips : State.reset.enc.Inv ∧ State.reset.dec.Inv ∧ Synced State.reset.enc State.reset.dec ∧ abc3 ≠ [] ∧
    abc3.length ≤ 65535 := ⟨Enc.reset_inv, Dec.reset_inv, reset_synced, by decide, by decide⟩
theorem test_wit_SessionRoundTrip : (∀ a ∈ [SessionAct.chunk 4 abc3, .reqFlush, .nop, .chunk 0xFFFF []], a.wellFormed = true) ∧
    ∃ c ∈ chunksOf [SessionAct.chunk 4 abc3, .reqFlush, .nop, .chunk 0xFFFF []], c ≠ [] := by decide

end Sys2Proof.Machine
end

section
/-! The scope family (spec 00): packing bits into bytes (R10), and the two granularities of a step (R16). -/

namespace Sys2Proof.Machine

/-! ## Packing (00 R10) -/

theorem bitsToBytes_natToBits_append (v : Nat) (rest : Bits) :
    bitsToBytes (natToBits 8 v ++ rest) = padByte (natToBits 8 v) :: bitsToBytes rest := rfl

theorem bitsToBytes_bytesToBits (bytes : List Byte) : bitsToBytes (bytesToBits bytes) = bytes := by
  induction bytes with
  | nil => rfl
  | cons b bytes ih => rw [bytesToBits, bitsToBytes_natToBits_append, padByte_natToBits, ih]

/-- Settles O8: the padding is `bytesToBits_bitsToBytes`'s run of zero bits, and a byte's eight bits pack to the byte. -/
theorem packingLosesNothing : Obligations.PackingLosesNothing := by
  refine ⟨fun bs => ⟨bitsToBytes_length bs, List.replicate ((8 - bs.length % 8) % 8) false, ?_, ?_,
    bytesToBits_bitsToBytes bs⟩, bitsToBytes_bytesToBits⟩
  · rw [List.length_replicate]
    omega
  · exact fun x hx => List.eq_of_mem_replicate hx

/-! ## The two granularities of a command (00 R16) -/

/-- The finer steps of an accepted DECOMPRESS end in the state the command reaches as one step, with `dec_done` raised. -/
theorem steps_decompress {s : State} (fb : Byte) (payload : List Byte) (hdec : s.dec.Inv) (henc : s.enc.work = none)
    (hnf : s.dec.faulted = false) (hhost : s.host = []) :
    ∃ n d, exec (.decompress fb payload) s = .next { s with dec := d } ∧
      steps n { s with dec := s.dec.begin fb payload } =
        .next { s with dec := d, decPort := { s.decPort with done := true } } := by
  obtain ⟨d, hd, -, -⟩ := Dec.decompress_completes fb payload hdec
  have hrun : (s.dec.begin fb payload).runCommand (commandSteps payload.length) = .ok d := by
    simpa [Dec.decompress, hnf] using hd
  obtain ⟨n, hn⟩ := steps_dec (s := { s with dec := s.dec.begin fb payload }) hhost henc rfl
    (Dec.begin_inv fb payload hdec hnf) le_rfl hrun
  exact ⟨n, d, exec_decompress_ok hd, hn⟩

/-- The finer steps of an accepted COMPRESS end in the state the command reaches as one step, with `enc_done` raised. -/
theorem steps_compress {s : State} (maxOut : BitVec 16) {input : List Byte} (henc : s.enc.Inv) (hhost : s.host = [])
    (hne : input ≠ []) (hlen : input.length ≤ 65535) :
    ∃ n e, exec (.compress maxOut input) s = .next { s with enc := e } ∧
      steps n { s with enc := s.enc.begin maxOut input } =
        .next { s with enc := e, encPort := { s.encPort with done := true } } := by
  obtain ⟨e, toks, F, he, hdone⟩ := Enc.compress_spec Config.hash maxOut henc hne hlen
  have hrun : (s.enc.begin maxOut input).runCommand Config.hash (input.length + 1) = some e := by
    simpa [Enc.compress, hne] using he
  obtain ⟨n, hn⟩ := steps_enc (s := { s with enc := s.enc.begin maxOut input }) hhost rfl hdone.work hrun
  exact ⟨n, e, exec_compress_ok he, hn⟩

/-- Settles O45: both commands complete as one step, and their finer steps are the same run. -/
theorem granularitiesAgree : Obligations.GranularitiesAgree := by
  constructor
  · intro s fb payload hinv henc _ hnf hhost
    obtain ⟨n, d, hexec, hsteps⟩ := steps_decompress fb payload hinv.dec henc hnf hhost
    exact ⟨n, _, hexec, hsteps⟩
  · intro s maxOut input hinv _ _ hhost hne hlen
    obtain ⟨n, e, hexec, hsteps⟩ := steps_compress maxOut hinv.enc hhost hne hlen
    exact ⟨n, _, hexec, hsteps⟩

end Sys2Proof.Machine
end

section
/-! The state family (spec 10): the step keeps the invariant and never stops (R48, R49), commands at the command boundary
(R49), the engines share no state (R20), the reset commands (R46, R47), what a step runs (R45). -/

namespace Sys2Proof.Machine

/-! ## The invariant, part by part -/

/-- Both engines' invariants do not look at the host's coming actions. -/
theorem State.Inv.withHost {s : State} (h : s.Inv) (l : List HostAct) : ({ s with host := l } : State).Inv :=
  ⟨h.enc, h.dec, h.encWaiting, h.decWaiting⟩

theorem State.Inv.withEnc {s : State} (h : s.Inv) {e : Enc} (he : e.Inv) : ({ s with enc := e } : State).Inv :=
  ⟨he, h.dec, h.encWaiting, h.decWaiting⟩

theorem State.Inv.withDec {s : State} (h : s.Inv) {d : Dec} (hd : d.Inv) : ({ s with dec := d } : State).Inv :=
  ⟨h.enc, hd, h.encWaiting, h.decWaiting⟩

/-- The compressor's port may hold no command, or one whose payload is short (70 R322). -/
theorem State.Inv.withEncPort {s : State} (h : s.Inv) {p : EncPort}
    (hp : ∀ r, p.waiting = some r → decode (.encCmd r) = .error .payloadShort) : ({ s with encPort := p } : State).Inv :=
  ⟨h.enc, h.dec, hp, h.decWaiting⟩

/-- The decompressor's port may hold no command, or one whose payload is short (70 R322). -/
theorem State.Inv.withDecPort {s : State} (h : s.Inv) {p : DecPort}
    (hp : ∀ r, p.waiting = some r → decode (.decCmd r) = .error .payloadShort) : ({ s with decPort := p } : State).Inv :=
  ⟨h.enc, h.dec, h.encWaiting, hp⟩

theorem State.Inv.settle {s : State} (h : s.Inv) (g : Engine) : (s.settle g).Inv := by
  cases g with
  | enc => exact h.withEncPort h.encWaiting
  | dec => exact h.withDecPort h.decWaiting

/-- `rst` of the compressor (70 R310). -/
theorem State.Inv.resetEnc {s : State} (h : s.Inv) : s.resetEnc.Inv :=
  (h.withEnc Enc.reset_inv).withEncPort fun _ hr => nomatch hr

/-- `rst` of the decompressor (70 R310). -/
theorem State.Inv.resetDec {s : State} (h : s.Inv) : s.resetDec.Inv :=
  (h.withDec (Dec.toReset_inv s.dec)).withDecPort fun _ hr => nomatch hr

/-! ## Commands on an idle engine (10 R49) -/

/-- A request to reset leaves a legal `flagsHold`. -/
theorem legalHold_request {b : Byte} (h : legalHold b) :
    legalHold (((b &&& holdMask) ||| packetAtFront) &&& holdMask) ∧
      legalHold (((b &&& holdMask) ||| (packetAtFront ||| packetFlushed)) &&& holdMask) := by
  rcases h with rfl | rfl | rfl <;> decide

/-- COMPRESS on an idle compressor completes, keeps the invariant and leaves it idle, for every `HASH`. -/
theorem Enc.compress_completes (H : HashFn) {e : Enc} {bs : List Byte} (m : BitVec 16) (h : e.Inv) (hw : e.work = none)
    (hl : bs.length ≤ 65535) : ∃ e', e.compress H m bs = some e' ∧ e'.Inv ∧ e'.work = none := by
  by_cases hn : bs = []
  · obtain ⟨e', he, hinv⟩ := Enc.compress_inv H m h hl
    have hsame : e' = { e with flags := rawFlags 0, bytesInOpb := 0 } := by
      simpa [Enc.compress, hn, eq_comm] using he
    exact ⟨e', he, hinv, by rw [hsame]; exact hw⟩
  · obtain ⟨e', toks, F, he, hc⟩ := Enc.compress_spec H m h hn hl
    exact ⟨e', he, hc.inv h, hc.work⟩

/-- Every well-formed compressor command on an idle compressor completes, keeps the compressor's invariant, leaves it idle
and changes nothing else. -/
theorem exec_encCommand {i : Instr} {s : State} (hi : engineOf i = .enc) (hwf : i.wellFormed = true) (h : s.enc.Inv)
    (hw : s.enc.work = none) : ∃ e, exec i s = .next { s with enc := e } ∧ e.Inv ∧ e.work = none := by
  cases i
  case encNop => exact ⟨s.enc, rfl, h, hw⟩
  case encReserved7 => exact ⟨s.enc, rfl, h, hw⟩
  case compress m bs =>
    obtain ⟨e, he, hinv, hidle⟩ := Enc.compress_completes Config.hash m h hw (of_decide_eq_true hwf)
    exact ⟨e, exec_compress_ok he, hinv, hidle⟩
  case encReset => exact ⟨Enc.reset, rfl, Enc.reset_inv, rfl⟩
  case encReqFront => exact ⟨_, rfl, Enc.writeHold_inv h (legalHold_request h.hold).1, hw⟩
  case encReqFlush => exact ⟨_, rfl, Enc.writeHold_inv h (legalHold_request h.hold).2, hw⟩
  case encLoadHash table => exact ⟨_, rfl, Enc.loadHash_inv h (of_decide_eq_true hwf), hw⟩
  case encLoadState image => exact ⟨_, rfl, Enc.loadState_inv h (of_decide_eq_true hwf) hw, hw⟩
  all_goals exact nomatch hi

/-- Every well-formed decompressor command on an idle decompressor completes, keeps the decompressor's invariant, leaves it
idle and changes nothing else. -/
theorem exec_decCommand {i : Instr} {s : State} (hi : i = .decNop ∨ (∃ fb payload, i = .decompress fb payload) ∨
      i = .decReset ∨ ∃ image, i = .decLoadState image) (hwf : i.wellFormed = true) (h : s.dec.Inv)
    (hw : s.dec.work = none) : ∃ d, exec i s = .next { s with dec := d } ∧ d.Inv ∧ d.work = none := by
  obtain rfl | ⟨fb, payload, rfl⟩ | rfl | ⟨image, rfl⟩ := hi
  · exact ⟨s.dec, rfl, h, hw⟩
  · obtain ⟨d, hd, hinv, hidle⟩ := Dec.decompress_completes fb payload h
    exact ⟨d, exec_decompress_ok hd, hinv, hidle hw⟩
  · exact ⟨s.dec.toReset, rfl, Dec.toReset_inv s.dec, rfl⟩
  · exact ⟨s.dec.loadState image, rfl, Dec.loadState_inv (of_decide_eq_true hwf) hw, hw⟩

/-! ## The step (10 R45, R48, R49) -/

/-- The outcome is a next state, and that state meets the invariant. -/
def SafeOutcome (o : Host.Outcome State Fault Refusal) : Prop := ∃ t, o = .next t ∧ t.Inv

/-- The `done` output does not matter to the invariant. -/
theorem SafeOutcome.settle {o : Host.Outcome State Fault Refusal} (h : SafeOutcome o) (g : Engine) :
    SafeOutcome (settleOutcome g o) := by
  obtain ⟨t, rfl, ht⟩ := h
  exact ⟨t.settle g, rfl, ht.settle g⟩

/-- A compressor command that comes to an idle compressor runs safely, or waits with a short payload. -/
theorem State.acceptEnc_safe {s : State} (h : s.Inv) (hw : s.enc.work = none) (r : EncReq) :
    SafeOutcome (s.acceptEnc r).outcome := by
  rw [State.acceptEnc_eq]
  by_cases hr : r.need ≤ r.data.length
  · rw [if_pos hr]
    have ht := h.withEncPort (p := { s.encPort with waiting := none }) fun _ hq => nomatch hq
    obtain ⟨e, hexec, he, -⟩ := exec_encCommand (EncReq.instr_engine r) (EncReq.instr_wellFormed hr) ht.enc hw
    exact SafeOutcome.settle ⟨_, hexec, ht.withEnc he⟩ _
  · rw [if_neg hr]
    refine ⟨_, rfl, h.withEncPort fun q hq => ?_⟩
    cases hq
    exact if_neg hr

/-- A decompressor command that comes to an idle decompressor runs safely, or waits with a short payload. -/
theorem State.acceptDec_safe {s : State} (h : s.Inv) (hw : s.dec.work = none) (r : DecReq) :
    SafeOutcome (s.acceptDec r).outcome := by
  rw [State.acceptDec_eq]
  by_cases hr : r.need ≤ r.data.length
  · rw [if_pos hr]
    have ht := h.withDecPort (p := { s.decPort with waiting := none }) fun _ hq => nomatch hq
    obtain ⟨d, hexec, hd, -⟩ := exec_decCommand (DecReq.instr_cases r) (DecReq.instr_wellFormed hr) ht.dec hw
    exact SafeOutcome.settle ⟨_, hexec, ht.withDec hd⟩ _
  · rw [if_neg hr]
    refine ⟨_, rfl, h.withDecPort fun q hq => ?_⟩
    cases hq
    exact if_neg hr

/-- Every action that is accepted, is accepted safely: an engine that gets a command or payload bytes executes nothing. -/
theorem State.hostAct_safe {s : State} {a : HostAct} (h : s.Inv) (ha : s.blocked a = false) :
    SafeOutcome (s.hostAct a).outcome := by
  cases a with
  | encRst => exact ⟨_, rfl, h.resetEnc⟩
  | decRst => exact ⟨_, rfl, h.resetDec⟩
  | encCmd r =>
    have hready : s.encCmdReady = true := by simpa [State.blocked] using ha
    exact State.acceptEnc_safe h (State.encCmdReady_iff.1 hready).1 r
  | decCmd r =>
    have hready : s.decCmdReady = true := by simpa [State.blocked] using ha
    exact State.acceptDec_safe h (State.decCmdReady_iff.1 hready).1 r
  | encData bs =>
    have hidle : s.enc.work = none := by simpa [State.blocked] using ha
    unfold State.hostAct
    cases s.encPort.waiting with
    | none => exact ⟨s, rfl, h⟩
    | some r => exact State.acceptEnc_safe h hidle _
  | decData bs =>
    have hidle : s.dec.work = none := by simpa [State.blocked] using ha
    unfold State.hostAct
    cases s.decPort.waiting with
    | none => exact ⟨s, rfl, h⟩
    | some r => exact State.acceptDec_safe h hidle _

/-- Where no action is accepted, every one is held back. -/
theorem firstFree_eq_none {b : HostAct → Bool} {l : List HostAct} (h : firstFree b l = none) : ∀ x ∈ l, b x = true := by
  induction l with
  | nil => exact fun _ hx => nomatch hx
  | cons x l ih =>
    rw [firstFree] at h
    split at h
    · exact List.forall_mem_cons.2 ⟨‹_›, ih (Option.map_eq_none_iff.1 h)⟩
    · exact nomatch h

/-- With no action accepted and both engines idle the step changes nothing (60 R308). -/
theorem step_idle {s : State} (hb : ∀ x ∈ s.host, s.blocked x = true) (he : s.enc.work = none) (hd : s.dec.work = none) :
    step s = .next s := by
  rw [step_eq, State.fetch_progress hb]
  simp [State.progress, he, hd, Fetched.outcome]

/-- A step that accepts no action is a finer step of the COMPRESS in progress, else of the DECOMPRESS in progress, else
nothing; none of them stops. -/
theorem step_safe_of_blocked {s : State} (h : s.Inv) (hb : ∀ x ∈ s.host, s.blocked x = true) : SafeOutcome (step s) := by
  cases hwe : s.enc.work with
  | some w =>
    obtain ⟨e, he, hinv⟩ := Enc.scanStep_inv Config.hash h.enc
    exact ⟨_, step_enc hb (by rw [hwe]; rfl) he, (h.withEnc hinv).settle .enc⟩
  | none =>
    cases hwd : s.dec.work with
    | some w =>
      obtain ⟨d, hd, hinv, -⟩ := Dec.microStep_inv hwd h.dec
      exact ⟨_, step_dec hb hwe (by rw [hwd]; rfl) hd, (h.withDec hinv).settle .dec⟩
    | none => exact ⟨s, step_idle hb hwe hwd, h⟩

/-- A step from a state that meets the invariant answers a next state, which meets it. -/
theorem step_safe {s : State} (h : s.Inv) : SafeOutcome (step s) := by
  cases hf : firstFree s.blocked s.host with
  | none => exact step_safe_of_blocked h (firstFree_eq_none hf)
  | some x =>
    obtain ⟨pre, rest, hhost, -, hpre, ha⟩ := firstFree_some hf
    rw [step_eq, State.fetch_act rest hpre ha hhost]
    exact State.hostAct_safe (h.withHost _) (by rw [State.blocked_host]; exact ha)

/-- Settles O46: the next state that `step_safe` gives is the one the step answers. -/
theorem stepKeepsTheInvariant : Obligations.StepKeepsTheInvariant := by
  intro s t hs ht
  obtain ⟨u, hu, hinv⟩ := step_safe hs
  cases ht.symm.trans hu
  exact hinv

/-- Settles O47 by `step_safe`. -/
theorem stepNeverStops : Obligations.StepNeverStops := by
  intro s hs
  obtain ⟨t, ht, -⟩ := step_safe hs
  exact ⟨t, ht⟩

/-- Settles O48: a command is an operation of one engine, and the other engine stays as it was. -/
theorem commandsKeepTheInvariant : Obligations.CommandsKeepTheInvariant := by
  intro i s hs henc hdec hwf hi
  obtain hi | hi := hi
  · obtain ⟨e, hexec, he, hidle⟩ := exec_encCommand hi hwf hs.enc henc
    exact ⟨_, hexec, hs.withEnc he, hidle, hdec⟩
  · obtain ⟨d, hexec, hd, hidle⟩ := exec_decCommand hi hwf hs.dec hdec
    exact ⟨_, hexec, hs.withDec hd, henc, hidle⟩

/-! ## The engines share no state (10 R20) -/

/-- Settles O49: the meaning of an instruction is an operation of its engine alone (`exec_enc`, `exec_dec`). -/
theorem enginesAreIndependent : Obligations.EnginesAreIndependent := by
  intro i s s'
  constructor
  · intro hi hsame t ht
    obtain ⟨f, hf⟩ := exec_enc hi
    rw [hf] at ht
    obtain ⟨e, he, rfl⟩ := State.withEnc_next ht
    exact ⟨rfl, _, by rw [hf, ← hsame, he, State.withEnc_some], rfl⟩
  · intro hi hsame t ht
    obtain ⟨f, hf⟩ := exec_dec hi
    rw [hf] at ht
    obtain ⟨d, hd, rfl⟩ := State.withDec_next ht
    exact ⟨rfl, _, by rw [hf, ← hsame, hd, State.withDec_ok], rfl⟩

/-! ## The reset commands (10 R46, R47) -/

/-- A step that finds `rst` of the compressor at the head of the list takes it. -/
theorem step_encRst {s : State} {rest : List HostAct} (hh : s.host = .encRst :: rest) :
    step s = .next ({ s with host := rest } : State).resetEnc := by
  rw [step_eq, State.fetch_act (pre := []) rest (fun _ hx => nomatch hx) rfl hh]
  rfl

/-- A step that finds `rst` of the decompressor at the head of the list takes it. -/
theorem step_decRst {s : State} {rest : List HostAct} (hh : s.host = .decRst :: rest) :
    step s = .next ({ s with host := rest } : State).resetDec := by
  rw [step_eq, State.fetch_act (pre := []) rest (fun _ hx => nomatch hx) rfl hh]
  rfl

/-- The first non-empty chunk after reset carries PACKET_FLUSHED and PACKET_AT_FRONT (42 R183, 30 R92). -/
theorem Enc.compress_reset_flags (m : BitVec 16) {bs : List Byte} (hn : bs ≠ []) (hl : bs.length ≤ 65535) :
    ∃ e, Enc.reset.compress Config.hash m bs = some e ∧ (e.flags = 0xC1 ∨ e.flags = 0xE1) := by
  obtain ⟨e, he, hflags, -, hflushed, -⟩ := Enc.compress_result m Enc.reset_inv hn hl
  obtain ⟨-, hhold, -⟩ := Enc.chunkHold_bits bs.length Enc.reset_inv.hold
  rw [hhold.2 (.inl rfl)] at hflushed
  refine ⟨e, he, ?_⟩
  rcases hflags with hb | hb | hb | hb | hb | hb <;> rw [hb] at hflushed ⊢ <;> revert hflushed <;> decide

/-- Settles O32: ENC_RESET and rst leave `Enc.reset`, and its `first_pkt` makes the next chunk flush. -/
theorem encResetState : Obligations.EncResetState := by
  intro s
  refine ⟨{ s with enc := Enc.reset }, rfl, rfl, rfl, rfl, rfl, rfl, rfl, Table.read_cleared, rfl, ?_, ?_⟩
  · intro u rest hh hu
    cases (step_encRst hh).symm.trans hu
    rfl
  · intro m bs hn hl
    obtain ⟨e, he, hflags⟩ := Enc.compress_reset_flags m hn hl
    exact ⟨_, exec_compress_ok he, hflags⟩

/-- Settles O33: DEC_RESET and rst leave the same `Dec.toReset`. -/
theorem decResetState : Obligations.DecResetState := by
  intro s
  refine ⟨{ s with dec := s.dec.toReset }, rfl, rfl, rfl, rfl, rfl, rfl, rfl, rfl, rfl, ?_⟩
  intro u rest hh hu
  cases (step_decRst hh).symm.trans hu
  rfl

/-! ## What a step runs (10 R45) -/

/-- A compressor command that decodes is the request's instruction, and its payload is complete (30 R120). -/
theorem decode_encCmd_ok {r : EncReq} {i : Instr} {n : Nat} (h : decode (.encCmd r) = .ok (i, n)) :
    r.need ≤ r.data.length ∧ i = r.instr := by
  rw [decode] at h
  split at h
  · cases h
    exact ⟨‹_›, rfl⟩
  · exact nomatch h

/-- A decompressor command that decodes is the request's instruction, and its payload is complete (30 R121). -/
theorem decode_decCmd_ok {r : DecReq} {i : Instr} {n : Nat} (h : decode (.decCmd r) = .ok (i, n)) :
    r.need ≤ r.data.length ∧ i = r.instr := by
  rw [decode] at h
  split at h
  · cases h
    exact ⟨‹_›, rfl⟩
  · exact nomatch h

/-- A complete command at the compressor's ready port is run. -/
theorem step_encCmd {s : State} {r : EncReq} {pre rest : List HostAct} (hh : s.host = pre ++ .encCmd r :: rest)
    (hpre : ∀ a ∈ pre, s.blocked a = true) (hready : s.encCmdReady = true) (hr : r.need ≤ r.data.length) :
    step s = settleOutcome .enc (exec r.instr { s with host := pre ++ rest }) := by
  have hport : { s.encPort with waiting := none } = s.encPort := by rw [← (State.encCmdReady_iff.1 hready).2]
  rw [step_eq, State.fetch_act rest hpre (by simp [State.blocked, hready]) hh, State.hostAct, State.acceptEnc_eq, if_pos hr,
    Fetched.outcome, EncReq.instr_engine, hport]

/-- A complete command at the decompressor's ready port is run. -/
theorem step_decCmd {s : State} {r : DecReq} {pre rest : List HostAct} (hh : s.host = pre ++ .decCmd r :: rest)
    (hpre : ∀ a ∈ pre, s.blocked a = true) (hready : s.decCmdReady = true) (hr : r.need ≤ r.data.length) :
    step s = settleOutcome .dec (exec r.instr { s with host := pre ++ rest }) := by
  have hport : { s.decPort with waiting := none } = s.decPort := by rw [← (State.decCmdReady_iff.1 hready).2]
  rw [step_eq, State.fetch_act rest hpre (by simp [State.blocked, hready]) hh, State.hostAct, State.acceptDec_eq, if_pos hr,
    Fetched.outcome, DecReq.instr_engine, hport]

/-- An instruction that decodes at the cursor is run with the cursor moved past it. -/
theorem Dec.fetchAt_run {d : Dec} {w : DecWork} {f : Fetch} {i : Instr} {n : Nat} (hw : d.work = some w)
    (h : decode f = .ok (i, n)) : d.fetchAt f = .run i { d with work := some { w with bitpos := w.bitpos + n } } := by
  simp [Dec.fetchAt, h, Dec.setWork, hw]

/-- What a DECOMPRESS in progress reads in each phase where an instruction stands at its cursor (43 R222, R226, R234). -/
theorem Dec.fetch_run {d : Dec} {w : DecWork} {i : Instr} {n : Nat} (hw : d.work = some w)
    (h : (w.phase = .flags ∧ decode (.flagsByte w.flags) = .ok (i, n)) ∨
      (w.phase = .token ∧ 8 ≤ w.bitsLeft ∧ decode (.token w.bits) = .ok (i, n)) ∨
      (w.phase = .length ∧ decode (.length w.bits) = .ok (i, n))) :
    d.fetch w = .run i { d with work := some { w with bitpos := w.bitpos + n } } := by
  obtain ⟨hp, hdec⟩ | ⟨hp, hleft, hdec⟩ | ⟨hp, hdec⟩ := h
  · rw [← Dec.fetchAt_run hw hdec]
    simp only [Dec.fetch, hp]
  · rw [← Dec.fetchAt_run hw hdec]
    simp only [Dec.fetch, hp, if_neg (Nat.not_lt.2 hleft)]
  · rw [← Dec.fetchAt_run hw hdec]
    simp only [Dec.fetch, hp]

/-- With no action accepted and the compressor idle, the step runs the row a DECOMPRESS in progress reads. -/
theorem step_row {s : State} {w : DecWork} {i : Instr} {d : Dec} (hb : ∀ x ∈ s.host, s.blocked x = true)
    (he : s.enc.work = none) (hw : s.dec.work = some w) (hf : s.dec.fetch w = .run i d) :
    step s = settleOutcome .dec (exec i { s with dec := d }) := by
  have hengine : engineOf i = .dec := (exec_streamOp (Dec.fetch_run_cases hf) s).2
  rw [step_eq, State.fetch_progress hb]
  simp [State.progress, he, hw, State.fetchDec, hf, Fetched.outcome, hengine]

/-- Settles O43: a command by `step_encCmd` and `step_decCmd`, a row at the cursor by `step_row`. -/
theorem stepRunsTheDecodedInstruction : Obligations.StepRunsTheDecodedInstruction := by
  refine ⟨?_, ?_, ?_⟩
  · intro s r pre rest i n hh hpre hready hdec
    obtain ⟨hr, rfl⟩ := decode_encCmd_ok hdec
    exact step_encCmd hh hpre hready hr
  · intro s r pre rest i n hh hpre hready hdec
    obtain ⟨hr, rfl⟩ := decode_decCmd_ok hdec
    exact step_decCmd hh hpre hready hr
  · intro s w i n hb he hw hrow
    exact step_row hb he hw (Dec.fetch_run hw hrow)

end Sys2Proof.Machine
end

section
/-! The memory family (spec 20): the bit order of the token stream (R66), and the last position of the histories, which no
chunk writes (R60, R63). -/

namespace Sys2Proof.Machine

/-! ## Bit order (20 R66) -/

/-- Byte `n div 8` holds bit `n` of the stream: the first byte holds the bits below 8, the other bytes the rest. -/
theorem bytesToBits_getElem? {bytes : List Byte} {n : Nat} (h : n < 8 * bytes.length) :
    (bytesToBits bytes)[n]? = (bytes[n / 8]?).map fun b => b.getLsbD (7 - n % 8) := by
  induction bytes generalizing n with
  | nil => simp at h
  | cons b bytes ih =>
    rw [bytesToBits]
    by_cases hn : n < 8
    · rw [List.getElem?_append_left (by simpa using hn), natToBits_getElem? _ _ _ hn, Nat.div_eq_of_lt hn, Nat.mod_eq_of_lt hn]
      rfl
    · obtain ⟨m, rfl⟩ := Nat.exists_eq_add_of_le' (Nat.le_of_not_lt hn)
      rw [List.length_cons] at h
      rw [List.getElem?_append_right (by simp), natToBits_length, Nat.add_sub_cancel, ih (by omega), Nat.add_mod_right,
        Nat.add_div_right m (by decide), List.getElem?_cons_succ]

/-- Settles O7: the stream by `bytesToBits_getElem?`, a field by `natToBits_getElem?`. -/
theorem streamBitOrder : Obligations.StreamBitOrder :=
  ⟨fun _ _ h => bytesToBits_getElem? h, natToBits_getElem?⟩

/-! ## Position 65535 (20 R60, R63) -/

/-- COMPRESS stores its chunk below position 65535 (42 R184). -/
theorem Enc.compress_last (H : HashFn) {e e' : Enc} {m : BitVec 16} {bs : List Byte} (h : e.Inv) (hl : bs.length ≤ 65535)
    (he : e.compress H m bs = some e') : e'.hist.read 65535 = e.hist.read 65535 := by
  by_cases hn : bs = []
  · rw [Enc.compress, if_pos hn] at he
    cases he
    rfl
  · obtain ⟨e₁, toks, F, he₁, hc⟩ := Enc.compress_spec H m h hn hl
    cases he₁.symm.trans he
    have hfits : e.chunkBase bs.length + bs.length ≤ 65535 := Enc.chunkBase_fits h.hold hl
    rw [hc.read, if_neg (by omega)]

/-- DECOMPRESS that ends without a fault writes below position 65535 (43 R237). -/
theorem Dec.decompress_last {d d' : Dec} {fb : Byte} {bs : List Byte} (h : d.Inv) (he : d.decompress fb bs = .ok d')
    (hf : d'.faulted = false) : d'.hist.read 65535 = d.hist.read 65535 := by
  unfold Dec.decompress at he
  split at he
  case isTrue => cases he; rfl
  case isFalse hnf =>
    have hbegin : (d.begin fb bs).Inv := Dec.begin_inv fb bs h (by simpa using hnf)
    rw [Dec.runCommand_last hbegin he hf, Dec.begin_hist]

/-- Settles O23: `Enc.compress_last` and `Dec.decompress_last`, each command being an operation of its engine alone. -/
theorem lastPositionIsNeverWritten : Obligations.LastPositionIsNeverWritten := by
  constructor
  · intro s t maxOut input hi hl hx
    obtain ⟨e, he, rfl⟩ := State.withEnc_next (show s.withEnc (s.enc.compress Config.hash maxOut input) = .next t from hx)
    exact Enc.compress_last Config.hash hi hl he
  · intro s t fb payload hi hx hf
    obtain ⟨d, hd, rfl⟩ := State.withDec_next (show s.withDec (s.dec.decompress fb payload) = .next t from hx)
    exact Dec.decompress_last hi hd hf

end Sys2Proof.Machine
end

section
/-! The encoding family (spec 30): decode of encode (R100 to R125), the code of a row read back (R111, R115), the offset and
length tables (R104, R108), the flags byte (R91 to R93), the reserved length code (R110). -/

namespace Sys2Proof.Machine

/-! ## Decode of encode (30 R100 to R125) -/

theorem encode_token {i : Instr} (h : i.literal?.isSome = true ∨ i.offset?.isSome = true) : encode i = .token i.bits := by
  cases i
  case lit7 | lit8 | matchO6 | matchO8 | matchO11 | matchO16 => rfl
  all_goals simp [Instr.literal?, Instr.offset?] at h

theorem encode_length {i : Instr} (h : i.lengthCode?.isSome = true) : encode i = .length i.bits := by
  cases i
  case lenL3 | lenL4 | lenL8 | lenL16 | lenL32 | lenL64 | lenL128 | lenL256 => rfl
  case lenL512 | lenL1024 | lenL2048 | lenL4096 | lenL8192 | lenL16384 | lenL32768 => rfl
  all_goals exact nomatch h

/-- A literal or an offset code reads back (30 R101 to R104). -/
theorem decode_encode_token {i : Instr} (h : i.literal?.isSome = true ∨ i.offset?.isSome = true) :
    decode (encode i) = .ok (i, i.width) := by
  rw [encode_token h, decode, ← decodeToken_bits h [], List.append_nil]

/-- A length code reads back (30 R108). -/
theorem decode_encode_length {i : Instr} (h : i.lengthCode?.isSome = true) : decode (encode i) = .ok (i, i.width) := by
  rw [encode_length h, decode, ← decodeLength_bits h [], List.append_nil]

/-- A compressor request with exactly its payload is its command with that payload (30 R120). -/
theorem decode_encCmd {r : EncReq} {mk : List Byte → Instr} (hmk : r.instr = mk (r.data.take r.need))
    (h : r.data.length = r.need) : decode (.encCmd r) = .ok (mk r.data, 3) := by
  rw [decode, if_pos h.ge, hmk, List.take_of_length_le h.le]

/-- A decompressor request with exactly its payload is its command with that payload (30 R121). -/
theorem decode_decCmd {r : DecReq} {mk : List Byte → Instr} (hmk : r.instr = mk (r.data.take r.need))
    (h : r.data.length = r.need) : decode (.decCmd r) = .ok (mk r.data, 2) := by
  rw [decode, if_pos h.ge, hmk, List.take_of_length_le h.le]

/-- A chunk's length is carried by a 16-bit operand (30 R120, R121). -/
theorem ofNat_length {bs : List Byte} (h : bs.length ≤ 65535) : bs.length = (BitVec.ofNat 16 bs.length).toNat := by
  rw [BitVec.toNat_ofNat, Nat.mod_eq_of_lt (by omega)]

/-- Every combination of the three flags reads back (30 R91, R93). -/
theorem decodeFlags_flagsByteOf (f a c : Bool) : decodeFlags (flagsByteOf f a c) = .ok (.flags f a c, 8) := by
  cases f <;> cases a <;> cases c <;> rfl

/-- Settles O2: by the input a row is read from, the token boundary, a length code, the flags byte or a command port. -/
theorem decodeEncodeAgree : Obligations.DecodeEncodeAgree := by
  intro i hwf
  cases i
  case lit7 | lit8 => exact decode_encode_token (.inl rfl)
  case matchO6 | matchO8 | matchO11 | matchO16 => exact decode_encode_token (.inr rfl)
  case lenReserved => exact decodeLength_reserved []
  case flags f a c => exact decodeFlags_flagsByteOf f a c
  case compress m input => exact decode_encCmd (mk := .compress m) rfl (ofNat_length (of_decide_eq_true hwf))
  case decompress fb payload => exact decode_decCmd (mk := .decompress fb) rfl (ofNat_length (of_decide_eq_true hwf))
  case encLoadHash table => exact decode_encCmd (mk := .encLoadHash) rfl (of_decide_eq_true hwf)
  case encLoadState image => exact decode_encCmd (mk := .encLoadState) rfl (of_decide_eq_true hwf)
  case decLoadState image => exact decode_decCmd (mk := .decLoadState) rfl (of_decide_eq_true hwf)
  case encNop | encReset | encReqFront | encReqFlush | encReserved7 | decNop | decReset => rfl
  all_goals exact decode_encode_length rfl

/-! ## Whole tokens (30 R115) -/

theorem encodeToken_lit (b : Byte) : encodeToken (.lit b) = (literalInstr b).bits := List.append_nil _

theorem encodeToken_mtch (off len : Nat) :
    encodeToken (.mtch off len) = (offsetInstr off).bits ++ (lengthInstr len).bits := by
  simp [encodeToken, Token.instrs]

theorem decodeWhole_lit (b : Byte) (rest : Bits) :
    decodeWhole (encodeToken (.lit b) ++ rest) = .ok (.lit b, (encodeToken (.lit b)).length) := by
  have hb := literalInstr_isSome b
  rw [encodeToken_lit, decodeWhole, decodeToken_bits (.inl hb), Instr.bits_length (.inl hb)]
  dsimp only
  rw [literalInstr_literal]

theorem decodeWhole_mtch {off len : Nat} (ho : off ≤ 67903) (h3 : 3 ≤ len) (hl : len ≤ 65535) (rest : Bits) :
    decodeWhole (encodeToken (.mtch off len) ++ rest) = .ok (.mtch off len, (encodeToken (.mtch off len)).length) := by
  obtain ⟨hoff, hlit, -⟩ := offsetInstr_shape off
  have hlen := lengthInstr_isSome len
  have hdrop : ((offsetInstr off).bits ++ ((lengthInstr len).bits ++ rest)).drop (offsetInstr off).width =
      (lengthInstr len).bits ++ rest := by rw [← Instr.bits_length (.inr (.inl hoff)), List.drop_left]
  rw [encodeToken_mtch, List.append_assoc, decodeWhole, decodeToken_bits (.inr hoff), List.length_append,
    Instr.bits_length (.inr (.inl hoff)), Instr.bits_length (.inr (.inr hlen))]
  dsimp only
  rw [hlit, hdrop, decodeLength_bits hlen]
  dsimp only
  rw [offsetInstr_offset ho, lengthInstr_length h3 hl]

/-- Settles O3: by the two kinds of token. -/
theorem wholeTokenDecodes : Obligations.WholeTokenDecodes := by
  intro t rest hwf
  cases t with
  | lit b => exact decodeWhole_lit b rest
  | mtch off len =>
    obtain ⟨-, ho, h3, hl⟩ : 1 ≤ off ∧ off ≤ 65535 ∧ 3 ≤ len ∧ len ≤ 65535 := of_decide_eq_true hwf
    exact decodeWhole_mtch (by omega) h3 hl rest

/-! ## The accepted bits (30 R101 to R111) -/

/-- The bits read at a token boundary are the bits of the row, and the width is the row's. -/
theorem decodeToken_code {bits : Bits} {i : Instr} {n : Nat} (h : decodeToken bits = .ok (i, n)) :
    n ≤ bits.length ∧ bits.take n = i.bits ∧ n = i.width := by
  unfold decodeToken at h
  split at h
  case h_1 => exact field_code (pfx := [false]) (fun _ => rfl) (fun _ => rfl) h
  case h_2 => exact field_code (pfx := [true, false]) (fun _ => rfl) (fun _ => rfl) h
  case h_3 => exact field_code (pfx := [true, true, false]) (fun _ => rfl) (fun _ => rfl) h
  case h_4 => exact field_code (pfx := [true, true, true, false]) (fun _ => rfl) (fun _ => rfl) h
  case h_5 => exact field_code (pfx := [true, true, true, true, false]) (fun _ => rfl) (fun _ => rfl) h
  case h_6 => exact field_code (pfx := [true, true, true, true, true]) (fun _ => rfl) (fun _ => rfl) h
  case h_7 => exact nomatch h

/-- Settles O4: the token boundary by `decodeToken_code`, a length code by `decodeLengthFrom_code` with no one-bit read. -/
theorem decodedBitsAreTheCode : Obligations.DecodedBitsAreTheCode :=
  fun bits i n => ⟨decodeToken_code, decodeLengthFrom_code 0 bits i n (by decide)⟩

/-! ## The offset and length tables (30 R104, R105, R108, R109) -/

/-- A row of the offset table is an offset code that stands for the row's offset (30 R104). -/
theorem offsetRow_iff {i : Instr} {d : Nat} : OffsetRow i d ↔ i.offset? = some d := by
  constructor
  · rintro (⟨o, rfl, rfl⟩ | ⟨o, rfl, rfl⟩ | ⟨o, rfl, rfl⟩ | ⟨o, rfl, rfl⟩) <;> rfl
  · intro h
    cases i
    case matchO6 o => exact .inl ⟨o, rfl, (Option.some.inj h).symm⟩
    case matchO8 o => exact .inr (.inl ⟨o, rfl, (Option.some.inj h).symm⟩)
    case matchO11 o => exact .inr (.inr (.inl ⟨o, rfl, (Option.some.inj h).symm⟩))
    case matchO16 o => exact .inr (.inr (.inr ⟨o, rfl, (Option.some.inj h).symm⟩))
    all_goals exact nomatch h

/-- A row of the offset table is the one code of its offset (30 R105). -/
theorem offsetRow_code {i : Instr} {d : Nat} (h : OffsetRow i d) : d ≤ 67903 ∧ i = offsetInstr d := by
  rcases h with ⟨o, rfl, rfl⟩ | ⟨o, rfl, rfl⟩ | ⟨o, rfl, rfl⟩ | ⟨o, rfl, rfl⟩
  all_goals
    have := o.isLt
    refine ⟨by omega, ?_⟩
    unfold offsetInstr
    repeat rw [if_neg (by omega)]
    try rw [if_pos (by omega)]
    simp

/-- Settles O5: a row is the code of its offset, and that code is a row. -/
theorem offsetsHaveOneCode : Obligations.OffsetsHaveOneCode := by
  intro i d
  constructor
  · exact offsetRow_code
  · rintro ⟨hd, rfl⟩
    exact offsetRow_iff.2 (offsetInstr_offset hd)

/-- A length code is a row of the length table (30 R108). -/
theorem lengthRow_of_lengthCode {i : Instr} {ones l : Nat} (h : i.lengthCode? = some (ones, l)) :
    LengthRow i ones (lengthValue ones l) := by
  cases i
  all_goals cases h
  all_goals simp [LengthRow, lengthValue]

/-- Settles O6: a row is the code of its length (`lengthRow_code`), and that code is a row. -/
theorem lengthsHaveOneCode : Obligations.LengthsHaveOneCode := by
  intro i n
  constructor
  · rintro ⟨ones, hrow⟩
    obtain ⟨-, -, -, h3, hn, hi⟩ := lengthRow_code hrow
    exact ⟨h3, hn, hi⟩
  · rintro ⟨h3, hn, rfl⟩
    obtain ⟨⟨ones, l⟩, hcode, rfl⟩ := Option.map_eq_some_iff.1 (lengthInstr_length h3 hn)
    exact ⟨ones, lengthRow_of_lengthCode hcode⟩

/-! ## The flags byte (30 R91 to R93) -/

theorem decodeFlags_ok_iff {b : Byte} : (∃ x, decodeFlags b = .ok x) ↔ b &&& 0x1F = 0x01 := by
  unfold decodeFlags
  split
  · exact iff_of_true ⟨_, rfl⟩ ‹_›
  · exact iff_of_false (fun ⟨_, h⟩ => nomatch h) ‹_›

/-- The bytes with type 1 and bit 4 clear are the eight combinations of the three flags. -/
theorem flagsByte_accepted_iff {b : Byte} : b &&& 0x1F = 0x01 ↔
    b = 0x01 ∨ b = 0x21 ∨ b = 0x41 ∨ b = 0x61 ∨ b = 0xC1 ∨ b = 0xE1 ∨ b = 0x81 ∨ b = 0xA1 := by
  revert b
  decide +kernel

/-- Any other byte takes the fault BadFlags (43 R222). -/
theorem exec_decompress_badFlags {s : State} {b : Byte} (payload : List Byte) (hb : ¬ b &&& 0x1F = 0x01)
    (hf : s.dec.faulted = false) : ∃ t, exec (.decompress b payload) s = .next t ∧ FaultTaken .badFlags s t :=
  ⟨_, exec_decompress_ok (Dec.decompress_badFlags payload hf hb), rfl⟩

/-- Where PACKET_FLUSHED is set, PACKET_AT_FRONT changes nothing but the operand the command keeps (43 R223, R224). -/
theorem Dec.opened_flushed (x y : Byte) (bs : List Byte) (c : Bool) (d : Dec) :
    d.opened x bs true false c = (d.opened y bs true true c).withFlags x := rfl

theorem Dec.opened_left (fb : Byte) (bs : List Byte) (f a c : Bool) (d : Dec) :
    (d.opened fb bs f a c).left ≤ 2 * bs.length + 1 := by
  rw [Dec.left_some (w := d.openedWork fb bs f a c) rfl]
  cases c with
  | true => show 2 * ((8 * bs.length - 0) / 8) + 1 ≤ _; omega
  | false => show 1 ≤ _; omega

/-- A flags byte with PACKET_FLUSHED acts the same with and without PACKET_AT_FRONT (30 R93). -/
theorem Dec.decompress_flushed {x y : Byte} {c : Bool} {n m : Nat} (hx : decodeFlags x = .ok (.flags true false c, n))
    (hy : decodeFlags y = .ok (.flags true true c, m)) (bs : List Byte) (d : Dec) : d.decompress x bs = d.decompress y bs := by
  cases hf : d.faulted with
  | true => simp [Dec.decompress, hf]
  | false =>
    rw [Dec.decompress_flags hf hx, Dec.decompress_flags hf hy, Dec.opened_flushed x y]
    refine Dec.runCommand_withFlags x (fun w hw => ?_) (Dec.opened_left ..)
    cases hw
    cases c <;> exact nofun

/-- Settles O9: the accepted bytes by `flagsByte_accepted_iff`, any other by BadFlags (43 R222), 0x81 and 0xA1 by
`Dec.decompress_flushed`. -/
theorem acceptedFlagsBytes : Obligations.AcceptedFlagsBytes := by
  refine ⟨fun b => decodeFlags_ok_iff.trans flagsByte_accepted_iff, fun b s payload hb hf => ?_, fun s payload => ⟨?_, ?_⟩⟩
  · rw [decodeFlags_ok_iff] at hb
    exact ⟨if_neg hb, exec_decompress_badFlags payload hb hf⟩
  · exact congrArg s.withDec (Dec.decompress_flushed (c := false) rfl rfl payload s.dec)
  · exact congrArg s.withDec (Dec.decompress_flushed (c := true) rfl rfl payload s.dec)

/-- A chunk that carries PACKET_AT_FRONT starts at 0 (42 R185). -/
theorem Enc.chunkBase_of_atFront {e : Enc} {n : Nat} (h : legalHold e.flagsHold)
    (h6 : (e.chunkHold n).getLsbD 6 = true) : e.chunkBase n = 0 :=
  if_pos ((Enc.chunkHold_bits n h).2.2.2 h6)

/-- Settles O30: an empty chunk by R182, any other by `Enc.compress_result`, whose flags 7 and 6 are `chunkHold`'s. -/
theorem emittedFlagsEnumerated : Obligations.EmittedFlagsEnumerated := by
  intro s m input hinv hlen
  by_cases hne : input = []
  · subst hne
    exact ⟨_, exec_compress_ok (if_pos rfl), .inl rfl, fun _ => rfl, fun h => absurd rfl h⟩
  · obtain ⟨e, he, hflags, h6, h7, hoff, htoks⟩ := Enc.compress_result m hinv hne hlen
    obtain ⟨hfront, hflushed, -⟩ := Enc.chunkHold_bits input.length hinv.hold
    refine ⟨_, exec_compress_ok he, hflags, fun h => absurd h hne, fun _ => ⟨?_, ?_, fun hb => ?_, htoks⟩⟩
    · exact (Bool.eq_iff_iff.1 h6).trans hfront
    · exact (Bool.eq_iff_iff.1 h7).trans hflushed
    · show e.historyOffset.toNat = input.length
      rw [hoff, Enc.chunkBase_of_atFront hinv.hold (h6.symm.trans hb), Nat.zero_add]

/-! ## The tables' words (30 R101 to R110, R120, R121) -/

/-- Settles O1: each word is decoded. -/
theorem tableWordsDecode : Obligations.TableWordsDecode := by
  refine ⟨?_, ?_, ?_, ?_, ?_, ?_, ?_, ?_, ?_, ?_, ?_⟩ <;> rfl

/-! ## The reserved length code (30 R110) -/

/-- No row of a token is the reserved code: a literal and an offset code are no length code, a length code has a length. -/
theorem lenReserved_not_mem_instrs (t : Token) : .lenReserved ∉ t.instrs := by
  cases t with
  | lit b =>
    have hb := literalInstr_isSome b
    intro h
    rw [← List.mem_singleton.1 h] at hb
    exact nomatch hb
  | mtch off len =>
    have hoff := (offsetInstr_shape off).1
    have hlen := lengthInstr_isSome len
    intro h
    obtain h | h : .lenReserved = offsetInstr off ∨ .lenReserved = lengthInstr len := by simpa [Token.instrs] using h
    · rw [← h] at hoff
      exact nomatch hoff
    · rw [← h] at hlen
      exact nomatch hlen

/-- LEN_RESERVED inside a DECOMPRESS takes the fault ReservedLengthCode (43 R234). -/
theorem exec_lenReserved {s : State} {w : DecWork} (hw : s.dec.work = some w) :
    exec .lenReserved s = .next { s with dec := s.dec.faultEntry .reservedLengthCode } := by
  show s.withDec s.dec.reservedLength = _
  rw [Dec.reservedLength, Dec.inCommand, hw]
  rfl

/-- Settles O14: the decoder by `decodeLength_reserved`, the fault by `exec_lenReserved`. -/
theorem reservedLengthFaults : Obligations.ReservedLengthFaults :=
  ⟨decodeLength_reserved, fun s _ hw => ⟨_, exec_lenReserved hw, faultTaken_faultEntry s .reservedLengthCode s.dec.work⟩,
    lenReserved_not_mem_instrs⟩

/-! ## Rows outside a command (log 9) -/

theorem Dec.inCommand_idle {d : Dec} (hw : d.work = none) (f : DecWork → Except Stop Dec) :
    d.inCommand f = .error .outOfPlace := by
  rw [Dec.inCommand, hw]

/-- A row of the stream, or the flags byte, is an operation on the command in progress. -/
theorem exec_streamOp_idle {i : Instr} {s : State} (h : i.literal?.isSome = true ∨ i.offset?.isSome = true ∨
    i.lengthCode?.isSome = true ∨ i = .lenReserved ∨ ∃ f a c, i = .flags f a c) (hw : s.dec.work = none) :
    exec i s = .fault .outOfPlace := by
  suffices hop : Dec.streamOp i s.dec = .error .outOfPlace by
    rw [(exec_streamOp h s).1, hop]
    rfl
  rcases h with h | h | h | rfl | ⟨f, a, c, rfl⟩
  · obtain ⟨b, hb⟩ := Option.isSome_iff_exists.1 h
    exact (Dec.streamOp_literal hb s.dec).trans (Dec.inCommand_idle hw _)
  · obtain ⟨off, ho⟩ := Option.isSome_iff_exists.1 h
    exact (Dec.streamOp_offset ho s.dec).trans (Dec.inCommand_idle hw _)
  · obtain ⟨c, hc⟩ := Option.isSome_iff_exists.1 h
    exact (Dec.streamOp_length hc s.dec).trans (Dec.inCommand_idle hw _)
  · exact Dec.inCommand_idle hw _
  · exact Dec.inCommand_idle hw _

/-- Settles O16: every row named is a row of the stream or the flags byte (`exec_streamOp_idle`). -/
theorem streamRowsNeedACommand : Obligations.StreamRowsNeedACommand := by
  intro s i hw hrow
  refine exec_streamOp_idle ?_ hw
  rcases hrow with ⟨v, rfl⟩ | ⟨v, rfl⟩ | ⟨d, h⟩ | ⟨ones, n, h⟩ | h | h
  · exact .inl rfl
  · exact .inl rfl
  · exact .inr (.inl (Option.isSome_iff_exists.2 ⟨d, offsetRow_iff.1 h⟩))
  · obtain ⟨l, hcode, -⟩ := lengthRow_code h
    exact .inr (.inr (.inl (Option.isSome_iff_exists.2 ⟨_, hcode⟩)))
  · exact .inr (.inr (.inr (.inl h)))
  · exact .inr (.inr (.inr (.inr h)))

end Sys2Proof.Machine
end

section
/-! The match finder family (spec 41): what a candidate's acceptance and extension say (R163, R165), what a scan step does
(R161, R164; 42 R188 to R192), and the round trip for every `HASH` and table (R167). -/

namespace Sys2Proof.Machine

/-! ## Acceptance and extension (41 R163, R165) -/

/-- An accepted candidate is extended without a read of an unwritten byte. -/
theorem extend_of_accept {h : Memory} {q p fin : Nat} (hf : h.filled fin) (hp : p + 2 < fin)
    (hacc : accept h q p = some true) : ∃ L, extend h q p fin (fin - p) 3 = some L := by
  obtain ⟨F, rfl, hF⟩ := Memory.filled_holds hf
  obtain ⟨b, hb, htrue⟩ := accept_some hF (q := q) hp
  cases hb.symm.trans hacc
  obtain ⟨hq, heq⟩ := htrue rfl
  obtain ⟨L, hL, -⟩ := extend_some hF hq (F.length - p) 3 hp heq
  exact ⟨L, hL⟩

/-- Settles O24: acceptance by `accept_iff`, the extension by `extend_of_accept` and `extend_spec`; a match that ends inside
a chunk of at most 65535 bytes is never cut at MAX_MATCH. -/
theorem foundMatchesAreTrue : Obligations.FoundMatchesAreTrue := by
  intro h q p fin hf hp hfin
  obtain ⟨b, hb, hiff⟩ := accept_iff (q := q) hf hp
  refine ⟨fun hq => ?_, fun hq => ?_, fun L hacc hL => ?_⟩
  · have hacc : accept h q p = some true := by rw [hb, hiff.2 hq]
    exact ⟨hacc, extend_of_accept hf hp hacc⟩
  · rw [hb, Bool.eq_false_iff.2 (mt hiff.1 hq)]
  · obtain ⟨hqp, hthree⟩ := hiff.1 (Option.some.inj (hb.symm.trans hacc))
    obtain ⟨h3, hend, hrun, hmax⟩ := extend_spec hL hp (by omega)
    refine ⟨hqp, h3, hend, fun k hk => ?_, fun hlt => hmax hlt (by omega)⟩
    by_cases hk3 : k < 3
    · exact hthree k hk3
    · exact hrun k (by omega) hk

/-! ## A scan step (42 R188 to R192) -/

section
variable {H : HashFn} {e : Enc} {w : EncWork}

/-- A scan step with three bytes of the chunk left (42 R188). -/
theorem Enc.scanStep_hashed (hw : e.work = some w) (h3 : w.ctr + 3 ≤ w.input.length) :
    e.scanStep H = e.scanHashed H w.examine := by
  have hleft : Config.minMatch ≤ w.input.length - w.ctr := by simp only [Config.minMatch]; omega
  rw [Enc.scanStep, hw]
  simp only [if_pos (show w.ctr < w.input.length by omega), if_pos hleft]

/-- A scan step in the chunk tail (42 R192). -/
theorem Enc.scanStep_tail (hw : e.work = some w) (hc : w.ctr < w.input.length) (h3 : w.input.length < w.ctr + 3) :
    e.scanStep H = e.emitLiteral w.examine := by
  have hleft : ¬ Config.minMatch ≤ w.input.length - w.ctr := by simp only [Config.minMatch]; omega
  rw [Enc.scanStep, hw]
  simp only [if_pos hc, if_neg hleft]

/-- The lookup reads the entry of the position's hash (41 R164). -/
theorem Enc.lookup_eq {hv : Nat} (hh : hashAt H e.hist w.p = some hv) :
    e.lookup H w = some { w with hv := hv, q := (e.hash.read hv).toNat } := by
  rw [Enc.lookup, hh, Option.map_some]

/-- A literal emitted at a written position (42 R189). -/
theorem Enc.emitLiteral_eq {b : Byte} (hb : e.hist.read w.p = some b) :
    e.emitLiteral w = some { e with work := some (w.emit (.lit b) 1) } := by
  rw [Enc.emitLiteral, hb, Option.map_some]

/-- The match emitted and its interior inserted (42 R190, R191). -/
theorem Enc.emitMatch_eq {L : Nat} {t : Table} (hL : extend e.hist w.q w.p w.fin (w.fin - w.p) 3 = some L)
    (ht : insertInterior H e.hist w.fin (L - 1) (w.p + 1) e.hash = some t) :
    e.emitMatch H w =
      some { e with hash := t, work := some ({ w with L := L }.emit (.mtch (w.p - w.q) L) L) } := by
  rw [Enc.emitMatch, hL]
  simp only [ht, Option.map_some]

/-- A candidate not accepted: the position is inserted and the literal emitted (42 R189). -/
theorem Enc.scanHashed_rejected {hv : Nat} (hh : hashAt H e.hist w.p = some hv)
    (hacc : accept e.hist (e.hash.read hv).toNat w.p = some false) :
    e.scanHashed H w = Enc.emitLiteral { w with hv := hv, q := (e.hash.read hv).toNat }
      { e with hash := e.hash.write hv (BitVec.ofNat 16 w.p) } := by
  rw [Enc.scanHashed, Enc.lookup_eq hh]
  simp only [hacc]

/-- A candidate accepted: the position is inserted and the match emitted (42 R190). -/
theorem Enc.scanHashed_accepted {hv : Nat} (hh : hashAt H e.hist w.p = some hv)
    (hacc : accept e.hist (e.hash.read hv).toNat w.p = some true) :
    e.scanHashed H w = Enc.emitMatch H { w with hv := hv, q := (e.hash.read hv).toNat }
      { e with hash := e.hash.write hv (BitVec.ofNat 16 w.p) } := by
  rw [Enc.scanHashed, Enc.lookup_eq hh]
  simp only [hacc]

end

/-- Settles O25: with three bytes left by `Enc.scanHashed_rejected` and `Enc.scanHashed_accepted`, in the chunk tail by
`Enc.scanStep_tail`. -/
theorem scanEmitsLiteralOrMatch : Obligations.ScanEmitsLiteralOrMatch := by
  rintro H e w _ hw rfl
  refine ⟨?_, fun b hc h3 hb => ?_⟩
  · rintro a b c hv q h3 ha hb hc hhv rfl
    have hh : hashAt H e.hist w.examine.p = some hv := hashAt_eq_some.2 ⟨a, b, c, ha, hb, hc, hhv⟩
    rw [Enc.scanStep_hashed hw h3]
    refine ⟨fun hacc => ?_, fun L t hacc hL ht => ?_⟩
    · exact (Enc.scanHashed_rejected hh hacc).trans (Enc.emitLiteral_eq ha)
    · exact (Enc.scanHashed_accepted hh hacc).trans (Enc.emitMatch_eq hL ht)
  · exact (Enc.scanStep_tail hw hc h3).trans (Enc.emitLiteral_eq hb)

/-! ## The round trip for every `HASH` (41 R167, 42 R193) -/

/-- Settles O51: `Enc.compress_spec` holds for every `HASH` and table, and the decompressor replays what it emitted
(`pair_chunk`). -/
theorem roundTripForEveryHash : Obligations.RoundTripForEveryHash := by
  intro H e d maxOut input he hd hsync hne hlen
  obtain ⟨e', toks, F, hcompress, hresult⟩ := Enc.compress_spec H maxOut he hne hlen
  obtain ⟨d', hdecompress, hview, -, hmirror⟩ := pair_chunk he hd hsync hsync.notFaulted hresult
  exact ⟨e', d', hcompress, hdecompress, hview, hmirror⟩

end Sys2Proof.Machine
end

section
/-! The encoder family (spec 42): interior insertion (R191), the end of the scan (R199 to R201), COMPRESS as a whole (R182,
R193, R200 to R203). -/

namespace Sys2Proof.Machine

/-! ## Interior insertion (42 R191; 41 R161, R162, R166) -/

/-- Position `p` is one that an insertion stores under the hash value `v`: three bytes of the chunk are left (41 R162) and `v`
is their hash. -/
def InsertsAt (H : HashFn) (h : Memory) (fin p v : Nat) : Prop := p + 2 < fin ∧ HashOf H h p v

theorem HashOf.unique {H : HashFn} {h : Memory} {p u v : Nat} (hu : HashOf H h p u) (hv : HashOf H h p v) : u = v :=
  Option.some.inj ((hashAt_eq_some.2 hu).symm.trans (hashAt_eq_some.2 hv))

/-- An insertion writes the entry of the position's hash value (41 R166). -/
theorem insertAt_eq_some {H : HashFn} {h : Memory} {t t' : Table} {p : Nat} :
    insertAt H h t p = some t' ↔ ∃ u, HashOf H h p u ∧ t.write u (BitVec.ofNat 16 p) = t' := by
  rw [insertAt, Option.map_eq_some_iff]
  simp only [hashAt_eq_some]

/-- What one insertion changes: the entry of the position's hash value, and no other. -/
theorem read_insertAt {H : HashFn} {h : Memory} {t t' : Table} {p : Nat} (ht : Table.wf t)
    (hins : insertAt H h t p = some t') :
    Table.wf t' ∧ ∀ v, (HashOf H h p v → t'.read v = BitVec.ofNat 16 p) ∧ (¬ HashOf H h p v → t'.read v = t.read v) := by
  obtain ⟨u, hu, rfl⟩ := insertAt_eq_some.1 hins
  refine ⟨Table.write_wf _ (hashAt_lt (hashAt_eq_some.2 hu)) ht, fun v => ⟨fun hv => ?_, fun hv => ?_⟩⟩
  · rw [Table.read_write ht, if_pos (hv.unique hu)]
  · rw [Table.read_write ht, if_neg fun hvu : v = u => hv (hvu ▸ hu)]

/-- InsertInterior passes one position: it inserts it where three bytes of the chunk are left, and goes on behind it. -/
theorem insertInterior_succ {H : HashFn} {h : Memory} {fin n a : Nat} {t t' : Table} (ht : Table.wf t)
    (hins : insertInterior H h fin (n + 1) a t = some t') :
    ∃ t₁, Table.wf t₁ ∧ insertInterior H h fin n (a + 1) t₁ = some t' ∧
      ∀ v, (InsertsAt H h fin a v → t₁.read v = BitVec.ofNat 16 a) ∧ (¬ InsertsAt H h fin a v → t₁.read v = t.read v) := by
  rw [insertInterior] at hins
  by_cases ha : a + 2 < fin
  · rw [if_pos ha] at hins
    cases hat : insertAt H h t a with
    | none => rw [hat] at hins; exact nomatch hins
    | some t₁ =>
      rw [hat] at hins
      obtain ⟨hwf, hread⟩ := read_insertAt ht hat
      exact ⟨t₁, hwf, hins, fun v => ⟨fun hv => (hread v).1 hv.2, fun hv => (hread v).2 fun hh => hv ⟨ha, hh⟩⟩⟩
  · rw [if_neg ha] at hins
    exact ⟨t, ht, hins, fun v => ⟨fun hv => absurd hv.1 ha, fun _ => rfl⟩⟩

/-- After InsertInterior an entry holds the greatest of the positions inserted under its hash value; an entry under which none
was inserted is unchanged. -/
theorem read_insertInterior {H : HashFn} {h : Memory} {fin n a : Nat} {t t' : Table} (ht : Table.wf t)
    (hins : insertInterior H h fin n a t = some t') (v : Nat) :
    (∀ j, a ≤ j → j < a + n → InsertsAt H h fin j v → (∀ k, j < k → k < a + n → ¬ InsertsAt H h fin k v) →
      t'.read v = BitVec.ofNat 16 j) ∧
    ((∀ j, a ≤ j → j < a + n → ¬ InsertsAt H h fin j v) → t'.read v = t.read v) := by
  induction n generalizing a t with
  | zero =>
    cases hins
    exact ⟨fun j _ _ => by omega, fun _ => rfl⟩
  | succ n ih =>
    obtain ⟨t₁, hwf, hrest, hread⟩ := insertInterior_succ ht hins
    obtain ⟨hlast, hsame⟩ := ih hwf hrest
    refine ⟨fun j haj hjn hj hmax => ?_, fun hnone => ?_⟩
    · obtain rfl | hlt := Nat.eq_or_lt_of_le haj
      · rw [hsame fun k hk hkn => hmax k hk (by omega)]
        exact (hread v).1 hj
      · exact hlast j hlt (by omega) hj fun k hk hkn => hmax k hk (by omega)
    · rw [hsame fun k hk hkn => hnone k (by omega) (by omega)]
      exact (hread v).2 (hnone a le_rfl (by omega))

/-- Settles O26: it completes on a written history (`insertInterior_some`), and what it leaves is `read_insertInterior`. -/
theorem interiorInsertsMostRecentWins : Obligations.InteriorInsertsMostRecentWins := by
  intro H h fin n a t ht _
  refine ⟨fun hf => ?_, fun t' hins v => ?_⟩
  · obtain ⟨F, rfl, hF⟩ := Memory.filled_holds hf
    obtain ⟨t', hins, -⟩ := insertInterior_some hF n a ht
    exact ⟨t', hins⟩
  · obtain ⟨hlast, hsame⟩ := read_insertInterior ht hins v
    refine ⟨fun j haj hjn hfin hj hmax => ?_, fun hnone => ?_⟩
    · exact hlast j haj hjn ⟨hfin, hj⟩ fun k hk hkn hins => hmax k hk hkn hins.1 hins.2
    · exact hsame fun j haj hjn hins => hnone j haj hjn hins.1 hins.2

/-! ## The end of the scan (42 R199 to R201) -/

/-- The step at the end of a scan, where no host action is accepted: the scan finishes, and `enc_done` is raised. -/
theorem step_finish {s : State} {w : EncWork} (hb : ∀ a ∈ s.host, s.blocked a = true) (hw : s.enc.work = some w)
    (hend : w.ctr = w.input.length) :
    step s = .next { s with enc := s.enc.finish w, encPort := { s.encPort with done := true } } := by
  rw [step_enc hb (by rw [hw]; rfl) (Enc.scanStep_end Config.hash hw hend.ge), State.settleEnc, Enc.finish_work]
  rfl

/-- Settles O27: `step_finish`, with the fallback or the packed result of `Enc.finish_eq`. -/
theorem scanEndsCompressedOrRaw : Obligations.ScanEndsCompressedOrRaw := by
  intro s w hb hw hend
  rw [step_finish hb hw hend, Enc.finish_eq]
  refine ⟨fun hraw => ?_, fun hfits => ?_⟩
  · rw [if_pos (show _ < ceil8 w.nbits from hraw)]
    rfl
  · rw [if_neg (show ¬ _ < ceil8 w.nbits from Nat.not_lt.2 hfits)]
    rfl

/-! ## COMPRESS as a whole (42 R182, R193, R200 to R203) -/

/-- Settles O29: R182 is the first branch of COMPRESS. -/
theorem emptyCompressIsANoOp : Obligations.EmptyCompressIsANoOp := by
  intro s maxOut
  exact ⟨_, exec_compress_ok (if_pos rfl), rfl, List.take_zero, rfl, rfl⟩

/-- A chunk carries a reset flag exactly where the compressor rewinds (42 R183, R184). -/
theorem Enc.chunkHold_ne_zero_iff {e : Enc} (n : Nat) (h : legalHold e.flagsHold) :
    e.chunkHold n ≠ 0 ↔ e.rewinds n = true := by
  obtain ⟨hfront, -, hne⟩ := Enc.chunkHold_bits n h
  rw [hne, hfront]
  simp only [Enc.rewinds, Bool.or_eq_true, decide_eq_true_eq]
  tauto

/-- The scan of a chunk that rewinds starts with a cleared table (42 R185). -/
theorem Enc.resetPolicy_hash_of_rewinds {e : Enc} {n : Nat} (h : legalHold e.flagsHold) (hr : e.rewinds n = true) :
    (e.resetPolicy n).hash = Table.cleared := by
  rw [Enc.resetPolicy_hash, if_pos ((Enc.chunkHold_ne_zero_iff n h).2 hr)]

/-- The scan of a chunk that does not rewind starts with the old table. -/
theorem Enc.resetPolicy_hash_of_not_rewinds {e : Enc} {n : Nat} (h : legalHold e.flagsHold) (hr : e.rewinds n = false) :
    (e.resetPolicy n).hash = e.hash := by
  rw [Enc.resetPolicy_hash, if_neg (by rw [Enc.chunkHold_ne_zero_iff n h, hr]; exact Bool.false_ne_true)]

section
variable {s : State} {e : Enc} {m : BitVec 16} {bs F : List Byte} {toks : List Token}

/-- A completed COMPRESS leaves the state of 42 R203. -/
theorem Enc.Compressed.stored (h : s.enc.Compressed m bs e toks F) (hhold : legalHold s.enc.flagsHold) :
    Stored bs s { s with enc := e } := by
  have hbase := Enc.chunkBase_eq bs.length hhold
  have hread := h.read
  have hoffset := h.offset.trans h.length
  rw [hbase] at hoffset
  simp only [hbase] at hread
  refine { frame := ?frame, offset := hoffset, bytes := fun k hk => ?bytes, outside := fun x hx => ?outside }
  case frame =>
    show _ = { s with enc := { e with flagsHold := 0x00, firstPkt := false, work := none } }
    conv_rhs => rw [← h.hold, ← h.firstPkt, ← h.work]
  case bytes =>
    show e.hist.read _ = _
    rw [hread, if_pos (by omega), Nat.add_sub_cancel_left]
  case outside => exact (hread x).trans (if_neg (by omega))

/-- The packed result of a completed COMPRESS (42 R201). -/
theorem Enc.Compressed.sentPacked (h : s.enc.Compressed m bs e toks F) (hhold : legalHold s.enc.flagsHold)
    (hfits : ceil8 (encodeTokens toks).length ≤ min bs.length m.toNat) :
    e.flags = 0x01 ||| s.enc.resetFlags bs.length ||| 0x20 ∧ e.output = assemble toks ∧
      e.bytesInOpb.toNat = ceil8 (encodeTokens toks).length := by
  obtain ⟨hflags, -, hlen⟩ := h.packed hfits
  refine ⟨?_, h.output_packed hfits, hlen⟩
  rw [hflags, Enc.chunkHold_eq _ hhold]
  rfl

/-- The fallback of a completed COMPRESS (42 R200). -/
theorem Enc.Compressed.sentRaw (h : s.enc.Compressed m bs e toks F) (hhold : legalHold s.enc.flagsHold)
    (hraw : min bs.length m.toNat < ceil8 (encodeTokens toks).length) :
    e.flags = 0x01 ||| s.enc.resetFlags bs.length ∧ e.output = bs ∧ e.bytesInOpb.toNat = bs.length := by
  obtain ⟨hflags, -, hlen⟩ := h.raw hraw
  refine ⟨?_, h.output_raw hraw, hlen⟩
  rw [hflags, Enc.chunkHold_eq _ hhold]
  rfl

end

/-- Settles O28: the run of the scan by `Enc.compress_scanned`, whose record gives the state of R203, the replay, and the form
the chunk is sent in. -/
theorem compressCompletes : Obligations.CompressCompletes := by
  intro s m bs hinv hne hlen
  obtain ⟨e, toks, F, he, hc, hscan⟩ := Enc.compress_scanned Config.hash m hinv hne hlen
  have hbase := Enc.chunkBase_eq bs.length hinv.hold
  have hF : F = F.take (s.enc.chunkBase bs.length) ++ bs := by
    conv_lhs => rw [← List.take_append_drop (s.enc.chunkBase bs.length) F, hc.chunk]
  refine ⟨{ s with enc := e }, toks, F.take (s.enc.chunkBase bs.length), exec_compress_ok he, hc.stored hinv.hold, hc.inv hinv,
    fun hr v => ?_, Enc.resetPolicy_hash_of_not_rewinds hinv.hold, rfl, hbase ▸ hc.old, hscan, hc.legal, ?_,
    hc.sentPacked hinv.hold, hc.sentRaw hinv.hold⟩
  · rw [Enc.resetPolicy_hash_of_rewinds hinv.hold hr, Table.read_cleared]
  · rw [← hF]
    exact hc.replays

end Sys2Proof.Machine
end

section
/-! The decoder family (spec 43): the rows of the token stream (R228 to R237), the flags byte and the fault state (R221 to
R225), a chunk as a whole (R226, R227, R238), and one chunk through a pair (R239). -/

namespace Sys2Proof.Machine

/-! ## One chunk through a pair (43 R239) -/

/-- A chunk passes the pair where COMPRESS and DECOMPRESS complete and the view is readable. -/
theorem exchange_eq_some {s r : State} {m : BitVec 16} {bs v : List Byte} {e : Enc} {d : Dec}
    (he : s.enc.compress Config.hash m bs = some e) (hd : r.dec.decompress e.flags e.output = .ok d)
    (hv : d.output = some v) : exchange m bs s r = some ({ s with enc := e }, { r with dec := d }, v) := by
  rw [exchange, exec_compress_ok he]
  dsimp only [State.encFlags]
  rw [exec_decompress_ok hd]
  dsimp only
  rw [hv, Option.map_some]

/-- A DECOMPRESS that completed has not faulted. -/
theorem Decompressed.faulted {f a : Bool} {s t : State} {out : List Byte} (h : Decompressed f a s t out) :
    t.dec.faulted = s.dec.faulted := by
  rw [h.frame]

/-- The empty raw chunk leaves cursor and history as they are, and its view is empty (43 R227). -/
theorem Dec.decompress_empty {d : Dec} (hi : d.Inv) (hf : d.faulted = false) :
    ∃ d', d.decompress 0x01 [] = .ok d' ∧ d'.output = some [] ∧ d'.Inv ∧ d'.faulted = false ∧
      d'.historyPtr = d.historyPtr ∧ ∀ x, d'.hist.read x = d.hist.read x := by
  obtain ⟨d', hd, hdone, hinv⟩ := Dec.rawChunk (s := { State.reset with dec := d }) (fb := 0x01) (pl := []) hi hf rfl
    (Nat.le_of_lt_succ d.historyPtr.isLt)
  exact ⟨d', hd, hdone.output, hinv, hdone.faulted.trans hf, BitVec.eq_of_toNat_eq hdone.cursor,
    fun x => hdone.outside x (Nat.lt_or_ge x _)⟩

/-- The mirror relation looks at the offset, the cursor and the two histories only. -/
theorem Mirror.congr {e e' : Enc} {d d' : Dec} (h : Mirror e d) (he : e'.hist = e.hist)
    (ho : e'.historyOffset = e.historyOffset) (hf : d'.faulted = false) (hp : d'.historyPtr = d.historyPtr)
    (hr : ∀ x, d'.hist.read x = d.hist.read x) : Mirror e' d' := by
  obtain ⟨-, hptr, hsame⟩ := h
  refine ⟨hf, by rw [hp, hptr, ho], fun a ha => ?_⟩
  rw [hr, he, hsame a (ho ▸ ha)]

/-- Settles O50: a non-empty chunk by `pair_chunk`, after which the pair mirrors; the empty chunk leaves both histories and
what is pending alone. -/
theorem oneChunkRoundTrip : Obligations.OneChunkRoundTrip := by
  intro s r m bs he hd hsync hlen
  have hnf := hsync.notFaulted
  by_cases hne : bs = []
  · subst hne
    obtain ⟨e', hc, hinv⟩ := Enc.compress_inv Config.hash m he hlen
    obtain rfl : e' = { s.enc with flags := rawFlags 0, bytesInOpb := 0 } := by
      simpa [Enc.compress, eq_comm] using hc
    obtain ⟨d', hdec, hview, hdinv, hdf, hptr, hread⟩ := Dec.decompress_empty hd hnf
    have hmirror : Mirror s.enc r.dec → Mirror { s.enc with flags := rawFlags 0, bytesInOpb := 0 } d' :=
      fun hm => hm.congr rfl rfl hdf hptr hread
    exact ⟨_, _, exchange_eq_some hc hdec hview, hsync.imp hmirror fun hp => ⟨hp.1, hdf⟩, hinv, hdinv,
      fun h => hmirror (h.resolve_left fun h => h rfl)⟩
  · obtain ⟨e', toks, F, hc, hresult⟩ := Enc.compress_spec Config.hash m he hne hlen
    obtain ⟨d', hdec, hview, -, hmirror⟩ := pair_chunk he hd hsync hnf hresult
    obtain ⟨d₂, hdec₂, hdinv, -⟩ := Dec.decompress_completes e'.flags e'.output hd
    cases hdec₂.symm.trans hdec
    exact ⟨_, _, exchange_eq_some hc hdec hview, .inl hmirror, hresult.inv he, hdinv, fun _ => hmirror⟩

/-! ## The rows of the token stream (43 R228 to R237) -/

/-- With a command in progress a row's operation is done on it. -/
theorem Dec.inCommand_some {d : Dec} {w : DecWork} (hw : d.work = some w) (f : DecWork → Except Stop Dec) :
    d.inCommand f = d.take (f w) := by
  rw [Dec.inCommand, hw]

/-- A raised cause is a next state in which the fault is taken (60 R283, R286). -/
theorem withDec_raise (s : State) (c : Cause) :
    ∃ t, s.withDec (s.dec.take (.error (.raise c))) = .next t ∧ FaultTaken c s t :=
  ⟨_, rfl, faultTaken_faultEntry s c s.dec.work⟩

/-- Growing the history by `n` bytes is all that happened to the decompressor, where the rest is unchanged but the transient
registers. -/
theorem grown_of_rest {s : State} {d : Dec} {n : Nat}
    (hrest : { d with hist := s.dec.hist, historyPtr := s.dec.historyPtr, validHi := s.dec.validHi, work := s.dec.work } =
      s.dec)
    (hptr : d.historyPtr.toNat = s.dec.historyPtr.toNat + n)
    (hmark : d.validHi.toNat = max s.dec.validHi.toNat (s.dec.historyPtr.toNat + n))
    (hsame : ∀ a, a < s.dec.historyPtr.toNat ∨ s.dec.historyPtr.toNat + n ≤ a → d.hist.read a = s.dec.hist.read a) :
    Grown s { s with dec := d } n d.work := by
  refine ⟨?_, hptr, hmark, hsame⟩
  rw [← hrest]

/-- A literal row writes its byte (43 R228, R229). -/
theorem exec_literal {i : Instr} {b : Byte} {s : State} {w : DecWork} (hb : i.literal? = some b)
    (hw : s.dec.work = some w) : exec i s = s.withDec (s.dec.take (s.dec.writeByte b)) := by
  rw [(exec_streamOp (.inl (Option.isSome_iff_exists.2 ⟨b, hb⟩)) s).1, Dec.streamOp_literal hb, Dec.literal,
    Dec.inCommand_some hw]

/-- Settles O10: WriteByte below position 65535 and at it. -/
theorem literalsWriteOneByte : Obligations.LiteralsWriteOneByte := by
  intro s w i b hw hrow
  have hb : i.literal? = some b := by rcases hrow with ⟨v, rfl, rfl⟩ | ⟨v, rfl, rfl⟩ <;> rfl
  rw [exec_literal hb hw]
  refine ⟨fun hp => ?_, fun hp => ?_⟩
  · rw [Dec.writeByte_ok hp]
    refine ⟨_, rfl, ?_, by rw [Dec.wrote_read, if_pos rfl]⟩
    rw [← hw]
    exact grown_of_rest rfl (Dec.wrote_historyPtr hp) (Dec.wrote_validHi hp)
      fun a ha => by rw [Dec.wrote_read, if_neg (by omega)]
  · rw [Dec.writeByte_full hp]
    exact withDec_raise s .historyOverflow

/-- Settles O11: each of the four rows of the offset table sets its offset. -/
theorem offsetCodesSetTheOffset : Obligations.OffsetCodesSetTheOffset := by
  intro s w i d hw hrow
  have hoff := offsetRow_iff.1 hrow
  rw [(exec_streamOp (.inr (.inl (Option.isSome_iff_exists.2 ⟨d, hoff⟩))) s).1, Dec.streamOp_offset hoff, Dec.matchOffset,
    Dec.inCommand_some hw, Dec.setWork, hw]
  rfl

/-- A match that passes the two static tests is the copy (43 R235). -/
theorem Dec.copyMatch_eq {off : Nat} (h1 : 1 ≤ off) (h2 : off ≤ 65535) (n : Nat) (d : Dec) :
    d.copyMatch off n = d.copyBytes off n := by
  rw [Dec.copyMatch, if_neg (by omega), if_neg (by simp only [Config.histCap]; omega)]

theorem matchSource_eq {off : Nat} (h : off ≤ 65535) (p k : Nat) :
    matchSource off p k = (p + 65536 - off + k) % 65536 := by
  rw [matchSource, show p + k + 65536 - off = p + 65536 - off + k by omega]

/-- Settles O12: the copy by `Dec.copyBytes_ok`, the last source by `Dec.copyBytes_src`. -/
theorem lengthCodesCopyTheMatch : Obligations.LengthCodesCopyTheMatch := by
  intro s w i ones n hi hw hrow h1 h2 hfit hvalid
  obtain ⟨hnf, -⟩ := hi.working w hw
  obtain ⟨-, -, -, h3, -⟩ := lengthRow_code hrow
  simp only [matchSource_eq h2] at hvalid ⊢
  rw [exec_lengthRow hrow hw, Dec.copyMatch_eq h1 h2]
  obtain ⟨d', hcopy, hg, -, hread⟩ := Dec.copyBytes_ok (n := n)
    (d := { s.dec with work := some { w with ones := ones, mlen := n, phase := .token } }) h1 h2 (hi.cursor hnf)
    (hi.filled hnf) hfit hvalid
  obtain ⟨w', hw', -, hsrc⟩ := Dec.copyBytes_src h2 rfl hcopy
  rw [hsrc (by omega), matchSource_eq h2] at hw'
  rw [hcopy]
  refine ⟨_, rfl, ?_, hread⟩
  rw [← hw']
  exact grown_of_rest (congrArg (fun d : Dec => { d with work := s.dec.work }) hg.rest) hg.ptr hg.valid hg.same

/-- Settles O13: the static tests in their order, then the first byte that cannot be copied (`Dec.copyBytes_fault`). -/
theorem matchFaultsInOrder : Obligations.MatchFaultsInOrder := by
  intro s w i ones n hi hw hrow
  obtain ⟨hnf, -⟩ := hi.working w hw
  rw [exec_lengthRow hrow hw]
  refine ⟨fun h0 => ?_, fun hbig => ?_, fun k h1 h2 hk hcopied => ?_⟩
  · rw [Dec.copyMatch, if_pos h0]
    exact withDec_raise s .offsetZero
  · rw [Dec.copyMatch, if_neg (by omega), if_pos hbig]
    exact withDec_raise s .offsetOutOfWindow
  · obtain ⟨houtside, hfull⟩ := Dec.copyBytes_fault
      (d := { s.dec with work := some { w with ones := ones, mlen := n, phase := .token } }) h2 (hi.cursor hnf)
      (hi.filled hnf) k hk hcopied
    rw [Dec.copyMatch_eq h1 h2]
    refine ⟨fun hsrc => ?_, fun hsrc hend => ?_⟩
    · rw [houtside hsrc]
      exact withDec_raise s .offsetOutOfWindow
    · rw [hfull hsrc hend]
      exact withDec_raise s .historyOverflow

/-! ## The flags byte and the fault state (43 R221 to R225) -/

/-- Settles O15: by the two flags that rewind. -/
theorem flagsByteRewinds : Obligations.FlagsByteRewinds := by
  intro s w f a c hw
  show s.withDec (s.dec.chunkFlags f a c) = _
  rw [Dec.chunkFlags, Dec.inCommand_some hw]
  dsimp only [Dec.setWork]
  rw [Dec.applyFlags_work, hw]
  cases f <;> cases a <;> rfl

/-- A byte of another type, or with bit 4 set, is not accepted (43 R222). -/
theorem flagsByte_rejected {fb : Byte} (h : fb &&& 0x0F ≠ 0x01 ∨ fb.getLsbD 4 = true) : ¬ fb &&& 0x1F = 0x01 := by
  revert fb
  decide +kernel

/-- Settles O17 by `Dec.decompress_badFlags`. -/
theorem badFlagsChangeNothing : Obligations.BadFlagsChangeNothing := by
  intro s fb payload hnf hbad
  exact exec_decompress_ok (Dec.decompress_badFlags payload hnf (flagsByte_rejected hbad))

/-- DECOMPRESS in the fault state does nothing (43 R221). -/
theorem exec_decompress_refused {s : State} (fb : Byte) (payload : List Byte) (hf : s.dec.faulted = true) :
    exec (.decompress fb payload) s = .next s := exec_decompress_ok (if_pos hf)

/-- In the fault state no command is in progress. -/
theorem Dec.Inv.idle_of_faulted {d : Dec} (h : d.Inv) (hf : d.faulted = true) : d.work = none := by
  cases hw : d.work with
  | none => rfl
  | some w => exact nomatch hf.symm.trans (h.working w hw).1

/-- No instruction but DEC_RESET and DEC_LOAD_STATE changes the decompressor in the fault state: a compressor command never
does, and a row of the stream has no command to work on. -/
theorem exec_dec_of_faulted {i : Instr} {s t : State} (h : s.dec.Inv) (hf : s.dec.faulted = true)
    (ht : exec i s = .next t) (hreset : i ≠ .decReset) (hload : ∀ image, i ≠ .decLoadState image) : t.dec = s.dec := by
  have hidle := h.idle_of_faulted hf
  cases hi : engineOf i with
  | enc =>
    obtain ⟨f, hexec⟩ := exec_enc hi
    obtain ⟨e, -, rfl⟩ := State.withEnc_next ((hexec s).symm.trans ht)
    rfl
  | dec =>
    cases i
    case decNop => cases ht; rfl
    case decompress fb payload => cases (exec_decompress_refused fb payload hf).symm.trans ht; rfl
    case decReset => exact absurd rfl hreset
    case decLoadState image => exact absurd rfl (hload image)
    case lit7 | lit8 => exact nomatch (exec_streamOp_idle (.inl rfl) hidle).symm.trans ht
    case matchO6 | matchO8 | matchO11 | matchO16 =>
      exact nomatch (exec_streamOp_idle (.inr (.inl rfl)) hidle).symm.trans ht
    case lenReserved => exact nomatch (exec_streamOp_idle (.inr (.inr (.inr (.inl rfl)))) hidle).symm.trans ht
    case flags f a c => exact nomatch (exec_streamOp_idle (.inr (.inr (.inr (.inr ⟨f, a, c, rfl⟩)))) hidle).symm.trans ht
    case encNop | compress | encReset | encReqFront | encReqFlush | encLoadHash | encLoadState | encReserved7 =>
      exact nomatch hi
    all_goals exact nomatch (exec_streamOp_idle (.inr (.inr (.inl rfl))) hidle).symm.trans ht

/-- Settles O18: DECOMPRESS by `exec_decompress_refused`, the other instructions by `exec_dec_of_faulted`. -/
theorem faultStateRefuses : Obligations.FaultStateRefuses := by
  intro s fb payload hi hf
  refine ⟨exec_decompress_refused fb payload hf, hf, (hi.code hf).1, if_pos hf, hi.noView hf, fun i t ht hreset hload => ?_⟩
  have hdec := exec_dec_of_faulted hi hf ht hreset hload
  exact ⟨(congrArg Dec.faulted hdec).trans hf, congrArg Dec.faultCode hdec⟩

/-! ## A chunk as a whole (43 R226, R227, R238) -/

/-- Settles O19: a chunk that fits by `Dec.rawChunk`, one that does not by `Dec.decompress_raw_overflow`. -/
theorem rawChunksAreAppended : Obligations.RawChunksAreAppended := by
  intro s fb payload hi hnf hfb
  refine ⟨fun hfit => ?_, fun hover => ?_⟩
  · obtain ⟨d, hd, hdone, -⟩ := Dec.rawChunk hi hnf hfb hfit
    exact ⟨_, exec_decompress_ok hd, hdone⟩
  · rw [← Dec.applyFlags_ptr] at hover
    exact ⟨_, exec_decompress_ok (Dec.decompress_raw_overflow hnf (decodeFlags_of_type (c := false) hfb) hover),
      faultTaken_of_rest (d := s.dec.opened fb payload (fb.getLsbD 7) (fb.getLsbD 6) false) rfl rfl _⟩

/-- Settles O20 by `Dec.decompress_packed`: what the history grew by is what the replay adds. -/
theorem compressedChunksAreReplayed : Obligations.CompressedChunksAreReplayed := by
  intro s fb payload ts pad before out hi hnf hfb hbits hpad hts hbefore hreplay hfit
  rw [← Dec.applyFlags_ptr] at hbefore
  obtain ⟨d, w, hd, hstart, hg, hhist⟩ := Dec.decompress_packed hnf (hi.cursor hnf) (decodeFlags_of_type (c := true) hfb)
    hbits hpad hbefore hts hreplay (by rw [List.length_append]; exact hfit)
  rw [List.length_append, Nat.add_sub_cancel_left] at hg
  exact ⟨_, exec_decompress_ok hd, decompressed_of_grew hnf hstart
    ((Memory.readRange_eq_some.1 hbefore).1.trans (Dec.applyFlags_ptr ..)) hg hhist⟩

/-- An offset code is no literal (30 R111). -/
theorem Instr.literal?_of_offset? {i : Instr} {off : Nat} (h : i.offset? = some off) : i.literal? = none := by
  obtain ⟨o, rfl, -⟩ | ⟨o, rfl, -⟩ | ⟨o, rfl, -⟩ | ⟨o, rfl, -⟩ := offsetRow_iff.2 h <;> rfl

/-- Where a whole token is rejected: at the token boundary; or after an offset code, at the length code or by its being the
reserved code (30 R115). -/
theorem decodeWhole_error {bits : Bits} {r : Reject} (h : decodeWhole bits = .error r) :
    decodeToken bits = .error r ∨ ∃ i n off, decodeToken bits = .ok (i, n) ∧ i.offset? = some off ∧
      (decodeLength (bits.drop n) = .error r ∨
        r = .reservedLengthCode ∧ ∃ m, decodeLength (bits.drop n) = .ok (.lenReserved, m)) := by
  rw [decodeWhole] at h
  cases htok : decodeToken bits with
  | error r' => rw [htok] at h; cases h; exact .inl rfl
  | ok p =>
    obtain ⟨i, n⟩ := p
    rw [htok] at h
    dsimp only at h
    obtain ⟨hlit, -⟩ | ⟨hoff, -⟩ := decodeToken_ok htok
    · obtain ⟨b, hb⟩ := Option.isSome_iff_exists.1 hlit
      rw [hb] at h
      exact nomatch h
    · obtain ⟨off, ho⟩ := Option.isSome_iff_exists.1 hoff
      rw [Instr.literal?_of_offset? ho] at h
      refine .inr ⟨i, n, off, rfl, ho, ?_⟩
      dsimp only at h
      cases hlen : decodeLength (bits.drop n) with
      | error r' => rw [hlen] at h; cases h; exact .inl rfl
      | ok q =>
        obtain ⟨j, m⟩ := q
        rw [hlen] at h
        dsimp only at h
        obtain ⟨hcode | rfl, -⟩ := decodeLength_ok hlen
        · obtain ⟨c, hc⟩ := Option.isSome_iff_exists.1 hcode
          rw [ho, Instr.length?, hc] at h
          exact nomatch h
        · rw [ho] at h
          exact .inr ⟨(Except.error.inj h).symm, m, rfl⟩

/-- A finer step whose bits are rejected takes the fault the rejection stands for (60 R281). -/
theorem Dec.microStep_reject {d : Dec} {w : DecWork} {f : Fetch} {r : Reject} (hw : d.work = some w)
    (hf : d.fetch w = d.fetchAt f) (hdec : decode f = .error r) : d.microStep = .ok (d.faultEntry (rejectCause r)) := by
  simp only [Dec.microStep, hw, hf, Dec.fetchAt, hdec]

/-- A finer step that reads a row runs it with the cursor moved past it. -/
theorem Dec.microStep_row {d : Dec} {w : DecWork} {f : Fetch} {i : Instr} {n : Nat} (hw : d.work = some w)
    (hf : d.fetch w = d.fetchAt f) (hdec : decode f = .ok (i, n)) :
    d.microStep = Dec.streamOp i { d with work := some { w with bitpos := w.bitpos + n } } := by
  simp only [Dec.microStep, hw, hf, Dec.fetchAt_run hw hdec]

theorem Dec.fetch_token {d : Dec} {w : DecWork} (hp : w.phase = .token) (h8 : 8 ≤ w.bits.length) :
    d.fetch w = d.fetchAt (.token w.bits) := by
  rw [DecWork.bits_length] at h8
  simp only [Dec.fetch, hp, if_neg (Nat.not_lt.2 h8)]

theorem Dec.fetch_length {d : Dec} {w : DecWork} (hp : w.phase = .length) : d.fetch w = d.fetchAt (.length w.bits) := by
  simp only [Dec.fetch, hp]

/-- A finer step that ends in the fault state ends the run. -/
theorem Dec.runCommand_fault {d d' : Dec} {w : DecWork} {c : Cause} (hw : d.work = some w)
    (h : d.microStep = .ok (d'.faultEntry c)) (k : Nat) : Dec.runCommand (k + 1) d = .ok (d'.faultEntry c) :=
  (Dec.runCommand_succ (by rw [hw]; rfl) h).trans (Dec.runCommand_done (Dec.faultEntry_work c d'))

@[simp] theorem DecWork.setOffset_bits (off : Nat) (w : DecWork) : (w.setOffset off).bits = w.bits := rfl

/-- After an offset code, bits that are no length code, or the reserved one, take the fault (43 R234). -/
theorem Dec.run_badLength {d : Dec} {w : DecWork} {r : Reject} (hw : d.work = some w) (hp : w.phase = .length)
    (h : decodeLength w.bits = .error r ∨
      r = .reservedLengthCode ∧ ∃ m, decodeLength w.bits = .ok (.lenReserved, m)) (k : Nat) :
    ∃ w', Dec.runCommand (k + 1) d = .ok ({ d with work := w' }.faultEntry (rejectCause r)) := by
  obtain hlen | ⟨rfl, m, hlen⟩ := h
  · exact ⟨d.work, Dec.runCommand_fault hw (Dec.microStep_reject hw (Dec.fetch_length hp) hlen) k⟩
  · exact ⟨_, Dec.runCommand_fault hw (Dec.microStep_row hw (Dec.fetch_length hp) hlen) k⟩

/-- At a token boundary, bits that are no whole token take the fault of their rejection, in at most two finer steps (43 R226,
R234). -/
theorem Dec.run_malformed {d : Dec} {w : DecWork} {r : Reject} (hw : d.work = some w) (hp : w.phase = .token)
    (h8 : 8 ≤ w.bits.length) (h : decodeWhole w.bits = .error r) (k : Nat) :
    ∃ w', Dec.runCommand (k + 2) d = .ok ({ d with work := w' }.faultEntry (rejectCause r)) := by
  have hfetch := Dec.fetch_token (d := d) hp h8
  obtain htok | ⟨i, n, off, htok, hoff, hlen⟩ := decodeWhole_error h
  · exact ⟨d.work, Dec.runCommand_fault hw (Dec.microStep_reject hw hfetch htok) (k + 1)⟩
  · have hstep : d.microStep =
        .ok { d with work := some (({ w with bitpos := w.bitpos + n } : DecWork).setOffset off) } :=
      (Dec.microStep_row hw hfetch htok).trans (Dec.streamOp_offset hoff _)
    rw [← DecWork.bits_advance, ← DecWork.setOffset_bits off] at hlen
    rw [Dec.runCommand_succ (by rw [hw]; rfl) hstep]
    exact Dec.run_badLength rfl rfl hlen k

/-- A compressed payload that goes on behind its tokens with bits that are no whole token takes the fault of their
rejection. -/
theorem Dec.decompress_malformed {s : State} {fb : Byte} {payload before out : List Byte} {ts : List Token} {tail : Bits}
    {r : Reject} (hi : s.dec.Inv) (hnf : s.dec.faulted = false) (hfb : fb &&& 0x3F = 0x21)
    (hbits : bytesToBits payload = encodeTokens ts ++ tail) (htail : 8 ≤ tail.length) (hts : ∀ t ∈ ts, t.wellFormed = true)
    (hbefore : s.dec.hist.readRange 0 (chunkStart (fb.getLsbD 7) (fb.getLsbD 6) s.dec) = some before)
    (hreplay : replay ts before = some out) (hfit : out.length ≤ 65535) (hrej : decodeWhole tail = .error r) :
    ∃ t, exec (.decompress fb payload) s = .next t ∧ FaultTaken (rejectCause r) s t := by
  have hsize : 2 * ts.length + 2 ≤ 2 * payload.length := by
    have hlen := congrArg List.length hbits
    have := encodeTokens_length ts
    rw [bytesToBits_length, List.length_append] at hlen
    omega
  rw [← Dec.applyFlags_ptr] at hbefore
  obtain ⟨d, w, m, hrun, hw, hp, hrest, hd⟩ := Dec.run_prefix (n := 2 * payload.length + 1)
    (d := s.dec.opened fb payload (fb.getLsbD 7) (fb.getLsbD 6) true) rfl rfl hbits hts
    (Dec.applyFlags_cursor _ _ (hi.cursor hnf)) hbefore hreplay hfit (by omega)
  obtain ⟨w', hfault⟩ := Dec.run_malformed hw hp (hrest ▸ htail) (hrest ▸ hrej)
    (m + (2 * payload.length + 1 - 2 * ts.length) - 2)
  rw [Nat.sub_add_cancel (by omega), ← hrun, ← Dec.decompress_flags hnf (decodeFlags_of_type (c := true) hfb)] at hfault
  exact ⟨_, exec_decompress_ok hfault, faultTaken_of_rest hd rfl w'⟩

/-- Settles O21: `Dec.decompress_malformed` for the two rejections. -/
theorem malformedTokensFault : Obligations.MalformedTokensFault := by
  intro s fb payload ts tail before out hi hnf hfb hbits htail hts hbefore hreplay hfit
  rw [← List.length_append] at hfit
  exact ⟨Dec.decompress_malformed hi hnf hfb hbits htail hts hbefore hreplay hfit,
    Dec.decompress_malformed hi hnf hfb hbits htail hts hbefore hreplay hfit⟩

/-- Settles O54: the finer step at the end of the stream (`Dec.microStep_end`) is the machine's step. -/
theorem endOfStreamPublishesTheView : Obligations.EndOfStreamPublishesTheView := by
  intro s w hb he hw hp hleft
  exact step_dec hb he (by rw [hw]; rfl) (Dec.microStep_end hw hp (by rw [DecWork.bits_length]; exact hleft))

end Sys2Proof.Machine
end

section
/-! The control-command family (spec 44): the no-ops (R260), the reset requests (R262, R263), the bulk loads (R266, R268,
R270; 30 R122 to R125). -/

namespace Sys2Proof.Machine

/-! ## No-ops (44 R260) -/

/-- Settles O31: the meaning of each of the three commands is the unchanged state. -/
theorem noOpsChangeNothing : Obligations.NoOpsChangeNothing := fun _ => ⟨rfl, rfl, rfl⟩

/-! ## Reset requests (44 R262, R263) -/

/-- A write of a legal value to `flagsHold` stores it unmasked. -/
theorem Enc.writeHold_legal {v : Byte} (h : legalHold v) (e : Enc) : e.writeHold v = { e with flagsHold := v } := by
  rw [Enc.writeHold, legalHold_mask h]

/-- A legal value of `flagsHold` in place of the old one keeps the invariant. -/
theorem Enc.Inv.withHold {e : Enc} {v : Byte} (h : e.Inv) (hv : legalHold v) : ({ e with flagsHold := v } : Enc).Inv :=
  Enc.writeHold_legal hv e ▸ Enc.writeHold_inv h ((legalHold_mask hv).symm ▸ hv)

/-- A front request leaves a pending flush pending. -/
theorem legalHold_or_front {b : Byte} (h : legalHold b) : legalHold (b ||| packetAtFront) := by
  rcases h with rfl | rfl | rfl <;> decide

/-- A flush request absorbs whatever is pending. -/
theorem legalHold_or_flush {b : Byte} (h : legalHold b) : b ||| (packetAtFront ||| packetFlushed) = 0xC0 := by
  rcases h with rfl | rfl | rfl <;> rfl

/-- ENC_REQ_FRONT sets bit 6 of `flagsHold`, whose bits 5:0 are zero. -/
theorem exec_encReqFront {s : State} (h : legalHold s.enc.flagsHold) :
    exec .encReqFront s = .next { s with enc := { s.enc with flagsHold := s.enc.flagsHold ||| packetAtFront } } := by
  rw [← Enc.writeHold_legal (legalHold_or_front h), ← legalHold_mask h]
  rfl

/-- ENC_REQ_FLUSH leaves bits 7 and 6 of `flagsHold` set. -/
theorem exec_encReqFlush {s : State} (h : legalHold s.enc.flagsHold) :
    exec .encReqFlush s = .next { s with enc := { s.enc with flagsHold := 0xC0 } } := by
  rw [← Enc.writeHold_legal (.inr (.inr rfl)), ← legalHold_or_flush h, ← legalHold_mask h]
  rfl

/-- `Enc.compress_pending` for the machine: the next non-empty chunk while the reset request `v` is pending. -/
theorem exec_compress_pending {s : State} {v : Byte} (h : s.enc.Inv) (hv : legalHold v) (hpend : v ≠ 0) (m : BitVec 16)
    {bs : List Byte} (hn : bs ≠ []) (hl : bs.length ≤ 65535) :
    ∃ u, exec (.compress m bs) { s with enc := { s.enc with flagsHold := v } } = .next u ∧
      u.enc.historyOffset.toNat = bs.length ∧ u.encFlags.getLsbD 6 = true ∧
      (v.getLsbD 7 = true → u.encFlags.getLsbD 7 = true) ∧
      ∀ i, (({ s.enc with flagsHold := v } : Enc).begin m bs).hash.read i = 0 := by
  obtain ⟨e, he, hresult⟩ := Enc.compress_pending (h.withHold hv) hpend m bs hn hl
  exact ⟨_, exec_compress_ok he, hresult⟩

/-- Settles O34: a request is one `or` to a legal `flagsHold`, which a second request repeats, and it acts on the next chunk by
`exec_compress_pending`. -/
theorem frontRequestIsHeld : Obligations.FrontRequestIsHeld := by
  intro s hinv
  have hlegal := legalHold_or_front hinv.hold
  have hpend : s.enc.flagsHold ||| packetAtFront ≠ 0 := by
    rcases hinv.hold with h | h | h <;> rw [h] <;> decide
  refine ⟨_, exec_encReqFront hinv.hold, rfl, ?again, fun m input hn hl => ?chunk⟩
  case again =>
    rw [exec_encReqFront hlegal]
    simp only [BitVec.or_assoc, BitVec.or_self]
  case chunk =>
    obtain ⟨u, hu, hoffset, hfront, -, hcleared⟩ := exec_compress_pending hinv hlegal hpend m hn hl
    exact ⟨u, hu, hoffset, hfront, hcleared⟩

/-- Settles O35: the request leaves 0xC0 whatever was pending, and it acts on the next chunk by `exec_compress_pending`. -/
theorem flushRequestIsHeld : Obligations.FlushRequestIsHeld := by
  intro s hinv
  have hlegal : legalHold 0xC0 := .inr (.inr rfl)
  refine ⟨_, exec_encReqFlush hinv.hold, rfl, exec_encReqFlush hlegal, fun m input hn hl => ?_⟩
  obtain ⟨u, hu, hoffset, hfront, hflushed, hcleared⟩ := exec_compress_pending hinv hlegal (by decide) m hn hl
  exact ⟨u, hu, hoffset, hflushed rfl, hfront, hcleared⟩

/-! ## Bulk loads (44 R266, R268, R270) -/

/-- Two bytes of a payload as a 16-bit field, low byte first (20 R68). -/
theorem le16_getD_toNat {bs : List Byte} {n : Nat} {lo hi : Byte} (hlo : bs[n]? = some lo) (hhi : bs[n + 1]? = some hi) :
    (le16 (bs.getD n 0) (bs.getD (n + 1) 0)).toNat = lo.toNat + 256 * hi.toNat := by
  rw [List.getD_eq_getElem?_getD, List.getD_eq_getElem?_getD, hlo, hhi]
  exact le16_toNat lo hi

/-- Settles O36: `read_hashImage` gives each entry as the pair of its two bytes. -/
theorem loadHashReplacesTheTable : Obligations.LoadHashReplacesTheTable := by
  intro s table hlen
  refine ⟨_, rfl, rfl, hashImage_wf (by omega), fun i lo hi hi_lt hlo hhi => ?_⟩
  show ((hashImage 0 table).read i).toNat = _
  rw [read_hashImage 0 table i (Nat.zero_le i), Nat.sub_zero, if_pos (by omega)]
  exact le16_getD_toNat hlo hhi

/-- A loaded `flagsHold` by bits 7 and 6 of its byte: a pending flush includes a front reset (30 R124). -/
theorem loadedHold_mask_eq (b : Byte) :
    loadedHold b &&& holdMask = if b.getLsbD 7 then 0xC0 else if b.getLsbD 6 then 0x40 else 0x00 := by
  have hflush : b &&& 0x80 = if b.getLsbD 7 then 0x80 else 0x00 := BitVec.and_twoPow b 7
  have hfront : b &&& 0x40 = if b.getLsbD 6 then 0x40 else 0x00 := BitVec.and_twoPow b 6
  have hboth : b &&& (0x80 ||| 0x40) = b &&& 0x80 ||| b &&& 0x40 := BitVec.and_or_distrib_left
  rw [loadedHold, show (0xC0 : Byte) = 0x80 ||| 0x40 from rfl, hboth, hflush, hfront]
  cases b.getLsbD 7 <;> cases b.getLsbD 6 <;> rfl

/-- Settles O37: the four header bytes by `le16_getD_toNat` and `loadedHold_mask_eq`, the history by `read_imageHist`. -/
theorem encLoadStateLoads : Obligations.EncLoadStateLoads := by
  intro s image b0 b1 b2 b3 _ h0 h1 h2 h3
  have hfirst : image.getD 2 0 = b2 := by rw [List.getD_eq_getElem?_getD, h2]; rfl
  have hhold : image.getD 3 0 = b3 := by rw [List.getD_eq_getElem?_getD, h3]; rfl
  refine ⟨{ s with enc := s.enc.loadState image }, rfl, ?frame, le16_getD_toNat h0 h1, ?hold, fun a _ => read_imageHist a⟩
  case frame =>
    rw [← hfirst]
    rfl
  case hold =>
    rw [← hhold]
    exact loadedHold_mask_eq _

/-- Settles O38: the two header fields by `le16_getD_toNat`, the mark by `maxPos_toNat`, the history by `read_imageHist`. -/
theorem decLoadStateLoads : Obligations.DecLoadStateLoads := by
  intro s image b0 b1 b2 b3 _ h0 h1 h2 h3
  have hcursor : (imageField image 0).toNat = b0.toNat + 256 * b1.toNat := le16_getD_toNat h0 h1
  have hmark : (imageField image 1).toNat = b2.toNat + 256 * b3.toNat := le16_getD_toNat h2 h3
  refine ⟨{ s with dec := s.dec.loadState image }, rfl, rfl, hcursor, ?_, fun a _ => read_imageHist a⟩
  rw [Dec.loadState_validHi, maxPos_toNat, hcursor, hmark]

end Sys2Proof.Machine
end

section
/-! The exception family (spec 60): fault entry (R281, R286) and the exits of the fault state (R288). -/

namespace Sys2Proof.Machine

/-! ## Fault entry (60 R286) -/

/-- Settles O39: the state by `faultTaken_faultEntry`, the two outputs by the lemmas of `Dec.faultEntry`. -/
theorem faultEntrySetsTheCode : Obligations.FaultEntrySetsTheCode := fun s c =>
  ⟨faultTaken_faultEntry s c s.dec.work, Dec.faultEntry_faulted c s.dec, Dec.faultEntry_faultCode c s.dec,
    rfl, rfl, rfl, rfl, rfl, rfl⟩

/-! ## What a step does to a decompressor in the fault state (60 R288) -/

/-- The actions of the host that may end the fault state (60 R288): `rst`, the commands DEC_RESET and DEC_LOAD_STATE, and
payload bytes for a DEC_LOAD_STATE that waits. -/
def State.MayExitFault (s : State) (a : HostAct) : Prop :=
  a = .decRst ∨ (∃ r, a = .decCmd r ∧ (r.cmd = 2 ∨ r.cmd = 3)) ∨
    ∃ r bs, a = .decData bs ∧ s.decPort.waiting = some r ∧ r.cmd = 3

/-- A decompressor command is DEC_RESET or DEC_LOAD_STATE only where its code is 2 or 3 (30 R121). -/
theorem DecReq.instr_ne_of_cmd {r : DecReq} (hcmd : ¬ (r.cmd = 2 ∨ r.cmd = 3)) :
    r.instr ≠ .decReset ∧ ∀ image, r.instr ≠ .decLoadState image := by
  have hcode : r.cmd.toNat = 0 ∨ r.cmd.toNat = 1 := by bv_omega
  rcases hcode with h | h <;> simp [DecReq.instr, h]

/-- DEC_RESET takes no payload, so a command whose payload is short is another one (30 R121). -/
theorem DecReq.cmd_ne_two_of_short {r : DecReq} (h : decode (.decCmd r) = .error .payloadShort) : r.cmd ≠ 2 := by
  intro hcmd
  simp [decode, DecReq.need, hcmd] at h

/-- The `done` output is all a step adds to the next state of an instruction (10 R45). -/
theorem settleOutcome_next {g : Engine} {o : Host.Outcome State Fault Refusal} {t : State}
    (h : settleOutcome g o = .next t) : ∃ u, o = .next u ∧ t = u.settle g := by
  cases o with
  | next u =>
    cases h
    exact ⟨u, rfl, rfl⟩
  | fault f => exact nomatch h
  | refused r => exact nomatch h

/-- A compressor command does not touch the decompressor (10 R20). -/
theorem State.acceptEnc_dec {s t : State} {r : EncReq} (ht : (s.acceptEnc r).outcome = .next t) : t.dec = s.dec := by
  rw [State.acceptEnc_eq] at ht
  split at ht
  · obtain ⟨u, hu, rfl⟩ := settleOutcome_next ht
    obtain ⟨f, hf⟩ := exec_enc (EncReq.instr_engine r)
    obtain ⟨e, -, rfl⟩ := State.withEnc_next ((hf _).symm.trans hu)
    exact State.settle_dec _ _
  · cases ht
    rfl

/-- In the fault state a decompressor command of another code than 2 and 3 leaves the decompressor as it is (43 R221). -/
theorem State.acceptDec_of_faulted {s t : State} {r : DecReq} (hi : s.dec.Inv) (hf : s.dec.faulted = true)
    (hcmd : ¬ (r.cmd = 2 ∨ r.cmd = 3)) (ht : (s.acceptDec r).outcome = .next t) : t.dec = s.dec := by
  obtain ⟨hreset, hload⟩ := DecReq.instr_ne_of_cmd hcmd
  rw [State.acceptDec_eq] at ht
  split at ht
  · obtain ⟨u, hu, rfl⟩ := settleOutcome_next ht
    rw [State.settle_dec]
    exact exec_dec_of_faulted (s := { s with decPort := { s.decPort with waiting := none } }) hi hf hu hreset hload
  · cases ht
    rfl

/-- In the fault state an accepted action that is no exit leaves the decompressor as it is. -/
theorem State.hostAct_of_faulted {s t : State} {a : HostAct} (h : s.Inv) (hf : s.dec.faulted = true)
    (ha : ¬ s.MayExitFault a) (ht : (s.hostAct a).outcome = .next t) : t.dec = s.dec := by
  cases a with
  | encRst => cases ht; rfl
  | decRst => exact absurd (.inl rfl) ha
  | encCmd r => exact State.acceptEnc_dec ht
  | decCmd r => exact State.acceptDec_of_faulted h.dec hf (fun hcmd => ha (.inr (.inl ⟨r, rfl, hcmd⟩))) ht
  | encData bs =>
    rw [State.hostAct] at ht
    split at ht
    · cases ht; rfl
    · exact State.acceptEnc_dec ht
  | decData bs =>
    rw [State.hostAct] at ht
    split at ht
    · cases ht; rfl
    · rename_i r hr
      have hcmd : ¬ (r.cmd = 2 ∨ r.cmd = 3) := fun hcmd =>
        hcmd.elim (DecReq.cmd_ne_two_of_short (h.decWaiting r hr)) fun h3 => ha (.inr (.inr ⟨r, bs, rfl, hr, h3⟩))
      exact State.acceptDec_of_faulted (r := { r with data := r.data ++ bs }) h.dec hf hcmd ht

/-- In the fault state a step that accepts no action is a finer step of a COMPRESS, or nothing. -/
theorem step_of_faulted_blocked {s t : State} (h : s.Inv) (hf : s.dec.faulted = true)
    (hb : ∀ x ∈ s.host, s.blocked x = true) (ht : step s = .next t) : t.dec = s.dec := by
  cases hw : s.enc.work with
  | some w =>
    obtain ⟨e, he, -⟩ := Enc.scanStep_inv Config.hash h.enc
    cases (step_enc hb (by rw [hw]; rfl) he).symm.trans ht
    rfl
  | none =>
    cases (step_idle hb hw (h.dec.idle_of_faulted hf)).symm.trans ht
    rfl

/-- In the fault state a step leaves the decompressor as it is, or accepts an action that may end the fault state. -/
theorem step_of_faulted {s t : State} (h : s.Inv) (hf : s.dec.faulted = true) (ht : step s = .next t) :
    t.dec = s.dec ∨ ∃ pre a rest, s.host = pre ++ a :: rest ∧ (∀ x ∈ pre, s.blocked x = true) ∧ s.blocked a = false ∧
      s.MayExitFault a := by
  cases hfree : firstFree s.blocked s.host with
  | none => exact .inl (step_of_faulted_blocked h hf (firstFree_eq_none hfree) ht)
  | some x =>
    obtain ⟨pre, rest, hhost, -, hpre, ha⟩ := firstFree_some hfree
    by_cases hexit : s.MayExitFault x.1
    · exact .inr ⟨pre, x.1, rest, hhost, hpre, ha, hexit⟩
    · rw [step_eq, State.fetch_act rest hpre ha hhost] at ht
      exact .inl (State.hostAct_of_faulted (s := { s with host := pre ++ rest }) (h.withHost _) hf hexit ht)

/-- `rst` of the decompressor acts whatever actions that are not accepted stand before it (70 R310). -/
theorem step_decRst_behind {s : State} {pre rest : List HostAct} (hpre : ∀ x ∈ pre, s.blocked x = true)
    (hh : s.host = pre ++ .decRst :: rest) : step s = .next ({ s with host := pre ++ rest } : State).resetDec := by
  rw [step_eq, State.fetch_act rest hpre rfl hh]
  rfl

/-- Settles O40: a step by `step_of_faulted`; the three exits write the fault state and its code. -/
theorem faultStateExits : Obligations.FaultStateExits := by
  refine ⟨fun s t hs hf ht => ?_, fun s => ⟨_, rfl, rfl, rfl⟩, fun s image => ⟨_, rfl, rfl, rfl⟩,
    fun s pre rest hpre hh => ⟨_, step_decRst_behind hpre hh, rfl, rfl⟩⟩
  obtain hdec | hexit := step_of_faulted hs hf ht
  · exact .inl ⟨(congrArg Dec.faulted hdec).trans hf, congrArg Dec.faultCode hdec⟩
  · exact .inr hexit

end Sys2Proof.Machine
end

section
/-! The reset and hazards family (spec 70): `rst` at any time (R310), the state after reset (R311), a short payload (R322),
DECOMPRESS completes (R325), the round trip of a session (R330), flag symmetry (R331). -/

namespace Sys2Proof.Machine

/-! ## The round trip of a session (70 R330) -/

/-- The compressor command that an act of the host is, where it is no chunk. -/
def SessionAct.command? : SessionAct → Option Instr
  | .chunk _ _ => none
  | .nop => some .encNop
  | .reqFront => some .encReqFront
  | .reqFlush => some .encReqFlush
  | .loadHash table => some (.encLoadHash table)

/-- A session runs a command on the compressor and goes on with the same decompressor; the command adds no chunk. -/
theorem session_command {a : SessionAct} {i : Instr} {s t : State} (ha : a.command? = some i) (hi : exec i s = .next t)
    (as : List SessionAct) (r : State) : session (a :: as) s r = session as t r ∧ chunksOf (a :: as) = chunksOf as := by
  have hc : command i s = some t := by rw [command, hi]
  cases a with
  | chunk m bs => exact nomatch ha
  | nop | reqFront | reqFlush | loadHash =>
    cases ha
    rw [session, hc]
    exact ⟨rfl, rfl⟩

/-- A session passes a chunk through the pair and goes on with what the chunk leaves. -/
theorem session_chunk {s r t u : State} {m : BitVec 16} {bs v : List Byte} (h : exchange m bs s r = some (t, u, v))
    (as : List SessionAct) :
    session (.chunk m bs :: as) s r = (session as t u).map fun x => (x.1, x.2.1, v :: x.2.2) := by
  rw [session, h]

/-- The compressor `e'` comes from `e` by a command that 70 R330 admits between chunks: the history and its offset are the
same, and a pending flush stays pending. -/
structure Enc.KeepsPair (e e' : Enc) : Prop where
  inv     : e'.Inv
  hist    : e'.hist = e.hist
  offset  : e'.historyOffset = e.historyOffset
  pending : e.flushPending → e'.flushPending

theorem Enc.KeepsPair.mirror {e e' : Enc} {d : Dec} (h : e.KeepsPair e') (hm : Mirror e d) : Mirror e' d :=
  hm.congr h.hist h.offset hm.1 rfl fun _ => rfl

theorem Enc.KeepsPair.synced {e e' : Enc} {d : Dec} (h : e.KeepsPair e') (hs : Synced e d) : Synced e' d :=
  hs.imp h.mirror fun hp => ⟨h.pending hp.1, hp.2⟩

/-- Every command of a session completes and keeps the pair as it is. -/
theorem exec_sessionCommand {a : SessionAct} {i : Instr} {s : State} (ha : a.command? = some i) (hwf : a.wellFormed = true)
    (hs : s.enc.Inv) : ∃ e, exec i s = .next { s with enc := e } ∧ s.enc.KeepsPair e := by
  cases a with
  | chunk m bs => exact nomatch ha
  | nop =>
    cases ha
    exact ⟨s.enc, rfl, hs, rfl, rfl, id⟩
  | reqFront =>
    cases ha
    exact ⟨_, exec_encReqFront hs.hold, hs.withHold (legalHold_or_front hs.hold), rfl, rfl,
      Or.imp_right fun h7 => by rw [BitVec.getLsbD_or, h7, Bool.true_or]⟩
  | reqFlush =>
    cases ha
    exact ⟨_, exec_encReqFlush hs.hold, hs.withHold (.inr (.inr rfl)), rfl, rfl,
      fun _ => .inr (show (0xC0 : Byte).getLsbD 7 = true by decide)⟩
  | loadHash table =>
    cases ha
    exact ⟨_, rfl, Enc.loadHash_inv hs (of_decide_eq_true hwf), rfl, rfl, id⟩

/-- Settles O52, by induction on the session: a chunk by `oneChunkRoundTrip`, a command by `exec_sessionCommand`. -/
theorem sessionRoundTrip : Obligations.SessionRoundTrip := by
  intro acts
  induction acts with
  | nil => exact fun s r _ _ hsync _ => ⟨s, r, rfl, hsync, fun h => h.resolve_right fun ⟨_, hc, _⟩ => nomatch hc⟩
  | cons a acts ih =>
    intro s r he hd hsync hwf
    obtain ⟨ha, hacts⟩ := List.forall_mem_cons.1 hwf
    cases hcmd : a.command? with
    | some i =>
      obtain ⟨e, hexec, hkeep⟩ := exec_sessionCommand hcmd ha he
      obtain ⟨hsession, hchunks⟩ := session_command hcmd hexec acts r
      obtain ⟨t, u, hrun, hsync', hmirror⟩ := ih { s with enc := e } r hkeep.inv hd (hkeep.synced hsync) hacts
      rw [hsession, hchunks]
      exact ⟨t, u, hrun, hsync', fun h => hmirror (h.imp_left hkeep.mirror)⟩
    | none =>
      obtain ⟨m, bs, rfl⟩ : ∃ m bs, a = .chunk m bs := by
        cases a with
        | chunk m bs => exact ⟨m, bs, rfl⟩
        | nop | reqFront | reqFlush | loadHash => exact nomatch hcmd
      obtain ⟨s', r', hx, hsync', he', hd', hm'⟩ := oneChunkRoundTrip s r m bs he hd hsync (of_decide_eq_true ha)
      obtain ⟨t, u, hrun, hsync'', hmirror⟩ := ih s' r' he' hd' hsync' hacts
      refine ⟨t, u, by rw [session_chunk hx, hrun]; rfl, hsync'', fun h => hmirror ?_⟩
      obtain hm | ⟨c, hc, hne⟩ := h
      · exact .inl (hm' (.inr hm))
      · obtain rfl | hc := List.mem_cons.1 hc
        · exact .inl (hm' (.inl hne))
        · exact .inr ⟨c, hc, hne⟩

/-! ## Flag symmetry (70 R331) -/

/-- PACKET_COMPRESSED cleared gives the flags byte of the raw form, whichever form was sent. -/
theorem flags_and_raw {b : Byte} (h : legalHold b) :
    compressedFlags b &&& 0xDF = rawFlags b ∧ rawFlags b &&& 0xDF = rawFlags b := by
  rcases h with rfl | rfl | rfl <;> decide

/-- The two forms of a chunk carry the same reset flags, each with its own type (30 R91, R92). -/
theorem flags_of_forms {b : Byte} (h : legalHold b) :
    (rawFlags b &&& 0x3F = 0x01 ∧ compressedFlags b &&& 0x3F = 0x21) ∧
      (compressedFlags b).getLsbD 7 = (rawFlags b).getLsbD 7 ∧ (compressedFlags b).getLsbD 6 = (rawFlags b).getLsbD 6 := by
  rcases h with rfl | rfl | rfl <;> decide

/-- The tokens of a chunk and the chunk itself, each sent in its own form to a synced decompressor, leave the same
decompressor, whichever of the two the compressor chose. -/
theorem Enc.Compressed.decompress_forms {e e' : Enc} {r : State} {m : BitVec 16} {bs F : List Byte} {toks : List Token}
    (h : e.Compressed m bs e' toks F) (he : e.Inv) (hd : r.dec.Inv) (hs : Synced e r.dec) :
    ∃ d, r.dec.decompress (compressedFlags (e.chunkHold bs.length)) (assemble toks) = .ok d ∧
      r.dec.decompress (rawFlags (e.chunkHold bs.length)) bs = .ok d ∧ d.output = some bs := by
  have hl := Enc.chunkHold_legal bs.length he.hold
  obtain ⟨-, -, -, -, hraw6, hraw7, -⟩ := legalHold_flags _ hl
  obtain ⟨⟨hrawType, hpackedType⟩, h7, h6⟩ := flags_of_forms hl
  have hbefore := Synced.base he hs h.old
  rw [Dec.applyFlags_ptr, ← hraw7, ← hraw6] at hbefore
  have hstart := (Memory.readRange_eq_some.1 hbefore).1
  have hF : F.take (e.chunkBase bs.length) ++ bs = F := by
    conv_rhs => rw [← List.take_append_drop (e.chunkBase bs.length) F, h.chunk]
  have hfit : (F.take (e.chunkBase bs.length)).length + bs.length ≤ 65535 := by
    rw [← List.length_append, hF]
    exact h.fits
  obtain ⟨d, hrawRun, hrawDone, hinv⟩ := Dec.rawChunk hd hs.notFaulted hrawType (hstart ▸ hfit)
  obtain ⟨t, hexec, hpackedDone⟩ := compressedChunksAreReplayed r _ (assemble toks) toks _ _ bs hd hs.notFaulted hpackedType
    (bytesToBits_bitsToBytes _) (by rw [List.length_replicate]; omega) h.legal (by rw [h7, h6]; exact hbefore)
    (by rw [hF]; exact h.replays) hfit
  obtain ⟨d', hpackedRun, hinv', -⟩ := Dec.decompress_completes (compressedFlags (e.chunkHold bs.length)) (assemble toks) hd
  cases (exec_decompress_ok hpackedRun).symm.trans hexec
  rw [h7, h6] at hpackedDone
  obtain rfl : d' = d := hpackedDone.unique hrawDone hinv'.histWf hinv.histWf
  exact ⟨d', hpackedRun, hrawRun, hrawDone.output⟩

/-- Settles O53: `Enc.Compressed.decompress_forms`, whichever form COMPRESS sent. -/
theorem compressedAndRawFormsAgree : Obligations.CompressedAndRawFormsAgree := by
  intro s r m bs he hd hs hne hlen
  obtain ⟨e, toks, F, hc, hresult⟩ := Enc.compress_spec Config.hash m he hne hlen
  obtain ⟨d, hpacked, hraw, hview⟩ := hresult.decompress_forms he hd hs
  obtain ⟨hclear, hkeep⟩ := flags_and_raw (Enc.chunkHold_legal bs.length he.hold)
  have hforms : r.dec.decompress e.flags e.output = .ok d ∧ r.dec.decompress (e.flags &&& 0xDF) bs = .ok d := by
    by_cases hform : min bs.length m.toNat < ceil8 (encodeTokens toks).length
    · rw [(hresult.raw hform).1, hresult.output_raw hform, hkeep]
      exact ⟨hraw, hraw⟩
    · rw [(hresult.packed (Nat.le_of_not_lt hform)).1, hresult.output_packed (Nat.le_of_not_lt hform), hclear]
      exact ⟨hpacked, hraw⟩
  obtain ⟨hsent, hcleared⟩ := hforms
  exact ⟨_, _, exec_compress_ok hc, exec_decompress_ok hsent, exec_decompress_ok hcleared, hview⟩

/-! ## DECOMPRESS completes (70 R325) -/

/-- A completed DECOMPRESS without a fault has a readable view: it ends at the cursor, below which the history holds values. -/
theorem Dec.Inv.output_readable {d : Dec} (h : d.Inv) (hf : d.faulted = false) (hw : d.work = none) :
    ∃ view, d.output = some view ∧ view.length = d.viewLen.toNat := by
  have hend : d.viewStart.toNat + d.viewLen.toNat ≤ d.validHi.toNat := h.view hf hw ▸ h.cursor hf
  obtain ⟨view, hview⟩ := Memory.readRange_of_filled (h.filled hf) hend
  exact ⟨view, by rw [Dec.output, hf, if_neg Bool.false_ne_true, hview], (Memory.readRange_eq_some.1 hview).1⟩

/-- Settles O22: in the fault state it is refused; else it completes by `Dec.decompress_completes`, with the view of
`Dec.decompress_view`. -/
theorem decompressCompletes : Obligations.DecompressCompletes := by
  intro s fb payload hi hidle
  obtain ⟨d, hd, hinv, hdone⟩ := Dec.decompress_completes fb payload hi
  refine ⟨_, exec_decompress_ok hd, rfl, hinv, hdone hidle, fun hf => ?_⟩
  have hnf : s.dec.faulted = false := by
    cases hsf : s.dec.faulted with
    | false => rfl
    | true =>
      have hsame := exec_dec_of_faulted hi hsf (exec_decompress_ok hd) nofun nofun
      exact hsf.symm.trans ((congrArg Dec.faulted hsame).symm.trans hf)
  obtain ⟨hstart, -, hsame⟩ := Dec.decompress_view hi hnf hd hf (hdone hidle)
  exact ⟨hstart, hinv.view hf (hdone hidle), hinv.output_readable hf (hdone hidle), hsame⟩

/-! ## Reset (70 R310, R311) -/

/-- `rst` of the compressor acts whatever actions that are not accepted stand before it (70 R310). -/
theorem step_encRst_behind {s : State} {pre rest : List HostAct} (hpre : ∀ x ∈ pre, s.blocked x = true)
    (hh : s.host = pre ++ .encRst :: rest) : step s = .next ({ s with host := pre ++ rest } : State).resetEnc := by
  rw [step_eq, State.fetch_act rest hpre rfl hh]
  rfl

/-- Settles O41: the step takes the `rst`, and the two resets write every register. -/
theorem rstAbandonsTheCommand : Obligations.RstAbandonsTheCommand := fun _ _ _ hpre =>
  ⟨fun hh => ⟨_, step_encRst_behind hpre hh, rfl, rfl, rfl, rfl, rfl, rfl, rfl, Table.read_cleared⟩,
    fun hh => ⟨_, step_decRst_behind hpre hh, rfl, rfl, rfl, rfl, rfl, rfl, rfl, rfl⟩⟩

/-- Settles O42: the invariant by `State.reset_inv`, the values as `State.reset` writes them. -/
theorem resetMeetsTheInvariant : Obligations.ResetMeetsTheInvariant :=
  ⟨State.reset_inv, rfl, rfl, rfl, rfl, rfl, Table.read_cleared, rfl, rfl, rfl, rfl, rfl, rfl, rfl, rfl, rfl, rfl, rfl⟩

/-! ## Short payloads (70 R322) -/

/-- A step accepts the host's first action where it is not held back. -/
theorem step_head {s : State} {a : HostAct} {rest : List HostAct} (hh : s.host = a :: rest) (ha : s.blocked a = false) :
    step s = (State.hostAct { s with host := rest } a).outcome := by
  rw [step_eq, State.fetch_act (pre := []) rest (fun _ hx => nomatch hx) ha hh]
  rfl

/-- A compressor command whose payload is short waits. -/
theorem State.acceptEnc_short {s : State} {r : EncReq} (h : r.data.length < r.need) :
    (s.acceptEnc r).outcome = .next { s with encPort := { done := false, waiting := some r } } := by
  rw [State.acceptEnc_eq, if_neg (Nat.not_le.2 h)]
  rfl

/-- A compressor command whose payload is complete is run. -/
theorem State.acceptEnc_complete {s : State} {r : EncReq} (h : r.need ≤ r.data.length) :
    (s.acceptEnc r).outcome = settleOutcome .enc (exec r.instr { s with encPort := { s.encPort with waiting := none } }) := by
  rw [State.acceptEnc_eq, if_pos h, Fetched.outcome, EncReq.instr_engine]

/-- A decompressor command whose payload is short waits. -/
theorem State.acceptDec_short {s : State} {r : DecReq} (h : r.data.length < r.need) :
    (s.acceptDec r).outcome = .next { s with decPort := { done := false, waiting := some r } } := by
  rw [State.acceptDec_eq, if_neg (Nat.not_le.2 h)]
  rfl

/-- A decompressor command whose payload is complete is run. -/
theorem State.acceptDec_complete {s : State} {r : DecReq} (h : r.need ≤ r.data.length) :
    (s.acceptDec r).outcome = settleOutcome .dec (exec r.instr { s with decPort := { s.decPort with waiting := none } }) := by
  rw [State.acceptDec_eq, if_pos h, Fetched.outcome, DecReq.instr_engine]

/-- How many bytes a compressor command consumes does not depend on the bytes that came (30 R120). -/
theorem EncReq.need_data (r : EncReq) (bs : List Byte) : EncReq.need { r with data := bs } = r.need := rfl

/-- How many bytes a decompressor command consumes does not depend on the bytes that came (30 R121). -/
theorem DecReq.need_data (r : DecReq) (bs : List Byte) : DecReq.need { r with data := bs } = r.need := rfl

/-- Bytes beyond the payload do not change the command (70 R322). -/
theorem EncReq.instr_take (r : EncReq) (bs : List Byte) :
    EncReq.instr { r with data := bs.take r.need } = EncReq.instr { r with data := bs } := by
  simp only [EncReq.instr, EncReq.need_data, List.take_take, Nat.min_self]

/-- Bytes beyond the payload do not change the command (70 R322). -/
theorem DecReq.instr_take (r : DecReq) (bs : List Byte) :
    DecReq.instr { r with data := bs.take r.need } = DecReq.instr { r with data := bs } := by
  simp only [DecReq.instr, DecReq.need_data, List.take_take, Nat.min_self]

/-- A command at the compressor's ready port is accepted. -/
theorem step_encCmd_ready {s : State} {r : EncReq} {rest : List HostAct} (hh : s.host = .encCmd r :: rest)
    (hready : s.encCmdReady = true) : step s = (State.acceptEnc r { s with host := rest }).outcome :=
  step_head hh (by rw [State.blocked, hready]; rfl)

/-- Payload bytes go to the compressor command that waits. -/
theorem step_encData_waiting {s : State} {r : EncReq} {bs : List Byte} {rest : List HostAct}
    (hh : s.host = .encData bs :: rest) (hidle : s.enc.work = none) (hw : s.encPort.waiting = some r) :
    step s = (State.acceptEnc { r with data := r.data ++ bs } { s with host := rest }).outcome := by
  rw [step_head hh (by rw [State.blocked, hidle]; rfl), State.hostAct]
  dsimp only
  rw [hw]

/-- Payload bytes that no compressor command waits for are dropped. -/
theorem step_encData_dropped {s : State} {bs : List Byte} {rest : List HostAct} (hh : s.host = .encData bs :: rest)
    (hidle : s.enc.work = none) (hw : s.encPort.waiting = none) : step s = .next { s with host := rest } := by
  rw [step_head hh (by rw [State.blocked, hidle]; rfl), State.hostAct]
  dsimp only
  rw [hw]
  rfl

/-- A command at the decompressor's ready port is accepted. -/
theorem step_decCmd_ready {s : State} {r : DecReq} {rest : List HostAct} (hh : s.host = .decCmd r :: rest)
    (hready : s.decCmdReady = true) : step s = (State.acceptDec r { s with host := rest }).outcome :=
  step_head hh (by rw [State.blocked, hready]; rfl)

/-- Payload bytes go to the decompressor command that waits. -/
theorem step_decData_waiting {s : State} {r : DecReq} {bs : List Byte} {rest : List HostAct}
    (hh : s.host = .decData bs :: rest) (hidle : s.dec.work = none) (hw : s.decPort.waiting = some r) :
    step s = (State.acceptDec { r with data := r.data ++ bs } { s with host := rest }).outcome := by
  rw [step_head hh (by rw [State.blocked, hidle]; rfl), State.hostAct]
  dsimp only
  rw [hw]

/-- Payload bytes that no decompressor command waits for are dropped. -/
theorem step_decData_dropped {s : State} {bs : List Byte} {rest : List HostAct} (hh : s.host = .decData bs :: rest)
    (hidle : s.dec.work = none) (hw : s.decPort.waiting = none) : step s = .next { s with host := rest } := by
  rw [step_head hh (by rw [State.blocked, hidle]; rfl), State.hostAct]
  dsimp only
  rw [hw]
  rfl

/-- Settles O44: what is accepted by `step_head` and what the port then does, what is held back by `step_blocked`. -/
theorem shortPayloadsWait : Obligations.ShortPayloadsWait := by
  constructor
  · intro s r rest
    exact ⟨fun hh hready hshort => (step_encCmd_ready hh hready).trans (State.acceptEnc_short hshort),
      fun t hh hready ht => step_blocked hh (by rw [State.blocked, hready]; rfl) ht,
      fun bs hh hidle hw hshort => (step_encData_waiting hh hidle hw).trans
        (State.acceptEnc_short (by rwa [EncReq.need_data, List.length_append])),
      fun bs hh hidle hw hfull => by
        rw [step_encData_waiting hh hidle hw, EncReq.instr_take]
        exact State.acceptEnc_complete (by rwa [EncReq.need_data, List.length_append]),
      fun bs hh hidle hw => step_encData_dropped hh hidle hw,
      fun bs t hh hbusy ht => step_blocked hh (Option.isSome_iff_ne_none.2 hbusy) ht⟩
  · intro s r rest
    exact ⟨fun hh hready hshort => (step_decCmd_ready hh hready).trans (State.acceptDec_short hshort),
      fun t hh hready ht => step_blocked hh (by rw [State.blocked, hready]; rfl) ht,
      fun bs hh hidle hw hshort => (step_decData_waiting hh hidle hw).trans
        (State.acceptDec_short (by rwa [DecReq.need_data, List.length_append])),
      fun bs hh hidle hw hfull => by
        rw [step_decData_waiting hh hidle hw, DecReq.instr_take]
        exact State.acceptDec_complete (by rwa [DecReq.need_data, List.length_append]),
      fun bs hh hidle hw => step_decData_dropped hh hidle hw,
      fun bs t hh hbusy ht => step_blocked hh (Option.isSome_iff_ne_none.2 hbusy) ht⟩

end Sys2Proof.Machine
end
